-- ==== Sys2Proof/Word.lean ====
section
/-! DEFINITION. The word types of the block's channels and fields (spec 30_encoding.md R91, R92). -/

namespace Sys2Proof

/-- One command word on the `CMD` channel (R91, R92). -/
abbrev Cmd := BitVec 32

/-- One 64-bit word of the `WDATA`, `RDATA` and `SINK` channels; it carries a binary64 value in the
interchange encoding wherever a sample or a coefficient is meant (R15, R91). -/
abbrev Word := BitVec 64

/-- The 24-bit immediate of a command word, and the width of an integer configuration register
(R41 to R43, R92). -/
abbrev Imm := BitVec 24

/-- One byte of the input stream (R105). -/
abbrev Byte := BitVec 8

end Sys2Proof
end

