-- ==== Sys2Proof/Syntax.lean ====
section
/-! DEFINITION. The operations of the block as syntax (spec 30_encoding.md R90 to R94): one constructor
for each row of spec/opcode_table.json, with the payload words of the operation among its operands, since
an operation is the pair of a command word and its payload (R97). -/

namespace Sys2Proof

/-- The index `r` of the `CFG` space; indices 4 to 15 do not exist (R71). -/
inductive CfgReg where
  | n
  | ts
  | rbs
  | beta
  deriving DecidableEq, Repr

/-- The twelve operations in the sixteen rows of the opcode table (R94, R95). -/
inductive Instr where
  /-- `WRCFG N, v` (R186). -/
  | wrcfgN (v : Imm)
  /-- `WRCFG TS, v` (R186). -/
  | wrcfgTs (v : Imm)
  /-- `WRCFG RBS, v` (R186). -/
  | wrcfgRbs (v : Imm)
  /-- `WRCFG BETA, x`; `x` is the one payload word (R187). -/
  | wrcfgBeta (x : Word)
  /-- `RDCFG r` (R188). -/
  | rdcfg (r : CfgReg)
  /-- `RDSTAT` (R189). -/
  | rdstat
  /-- `INIT` (R190). -/
  | init
  /-- `MAP b`; bit 1 of `b` is the first bit, bit 0 the second (R122). -/
  | map (b : BitVec 2)
  /-- `UNPACK v` (R151). -/
  | unpack (v : Byte)
  /-- `MOD nb, v` with `nb` in 0 to 7 (R158; first row of the operation). -/
  | mod (nb : BitVec 3) (v : Byte)
  /-- `MOD 8, v` (R158; second row of the operation). -/
  | modNb8 (v : Byte)
  /-- `RDCOEF p` (R140). -/
  | rdcoef (p : Imm)
  /-- `WRCOEF p, c`; `c` is the one payload word (R141). -/
  | wrcoef (p : Imm) (c : Word)
  /-- `FILTER L, samples`; the payload is `2·L` words, `re` then `im` of each sample (R171). -/
  | filter (l : Imm) (payload : List Word)
  /-- `PUSHB v` (R191). -/
  | pushb (v : Byte)
  /-- `FLUSH` (R192). -/
  | flush
  deriving DecidableEq, Repr

end Sys2Proof
end

