-- ==== Sys2Proof/WellFormed.lean ====
section
/-! DEFINITION. Which operations are well formed (spec 30_encoding.md R93, R97). The operand types already
bound every field, so the one check left is the number of payload words of `FILTER`. -/

namespace Sys2Proof

/-- The number of 64-bit words the operation consumes from `WDATA`; a function of the command word
alone (R93). -/
def Instr.payloadWords : Instr → Nat
  | .wrcfgN _ => 0
  | .wrcfgTs _ => 0
  | .wrcfgRbs _ => 0
  | .wrcfgBeta _ => 1
  | .rdcfg _ => 0
  | .rdstat => 0
  | .init => 0
  | .map _ => 0
  | .unpack _ => 0
  | .mod _ _ => 0
  | .modNb8 _ => 0
  | .rdcoef _ => 0
  | .wrcoef _ _ => 1
  | .filter l _ => 2 * l.toNat
  | .pushb _ => 0
  | .flush => 0

/-- The payload words the operation carries. -/
def Instr.payload : Instr → List Word
  | .wrcfgN _ => []
  | .wrcfgTs _ => []
  | .wrcfgRbs _ => []
  | .wrcfgBeta x => [x]
  | .rdcfg _ => []
  | .rdstat => []
  | .init => []
  | .map _ => []
  | .unpack _ => []
  | .mod _ _ => []
  | .modNb8 _ => []
  | .rdcoef _ => []
  | .wrcoef _ c => [c]
  | .filter _ ps => ps
  | .pushb _ => []
  | .flush => []

/-- An operation is well formed when its payload has exactly the length R93 gives (R97). -/
def Instr.wellFormed (i : Instr) : Bool := i.payload.length == i.payloadWords

end Sys2Proof
end

