-- ==== Sys2Proof/Decode.lean ====
section
/-! DEFINITION. Decoding of the pair (command word, payload) into an operation, total and rejecting by
name, then the encoder (spec 30_encoding.md R92 to R97), and the opcode table's masks and patterns (R95). -/

namespace Sys2Proof

/-- Why a pair is not an operation. The first three are `ILLEGAL_OP` (R95, R211); the last is no fault of
the block: the pair is not well formed and the model refuses it (R97). -/
inductive DecodeError where
  /-- Opcode `0x0`, `0xD`, `0xE` or `0xF` (R95 step 2). -/
  | reservedOpcode
  /-- The `A` field is outside the values the row allows (R95 step 3). -/
  | badOperandField
  /-- A one in a must-be-zero part of `IMM` (R95 step 4). -/
  | mustBeZero
  /-- The payload does not have the length the command word calls for (R97). -/
  | payloadLength
  deriving DecidableEq, Repr

/-! ### Fields of `CMD32` (R92) -/

/-- `OPC`, bits 31:28. -/
def opcField (w : Cmd) : BitVec 4 := w.extractLsb' 28 4

/-- `A`, bits 27:24. -/
def aField (w : Cmd) : BitVec 4 := w.extractLsb' 24 4

/-- `IMM`, bits 23:0. -/
def immField (w : Cmd) : Imm := w.extractLsb' 0 24

/-! ### Decoding of a command word (R95) -/

/-- `i` when the field condition holds, otherwise the error. -/
def accept (ok : Bool) (e : DecodeError) (r : Except DecodeError Instr) : Except DecodeError Instr :=
  if ok then r else .error e

/-- The rows whose operand is one byte: `IMM[23:8]` must be zero (R94). -/
def acceptByte (imm : Imm) (i : Byte → Instr) : Except DecodeError Instr :=
  accept (imm.extractLsb' 8 16 == 0#16) .mustBeZero (.ok (i (imm.extractLsb' 0 8)))

/-- `WRCFG`: the row is chosen by `A` (R94, R95 step 3). -/
def decodeWrcfg (a : BitVec 4) (imm : Imm) : Except DecodeError Instr :=
  match a.toNat with
  | 0 => .ok (.wrcfgN imm)
  | 1 => .ok (.wrcfgTs imm)
  | 2 => .ok (.wrcfgRbs imm)
  | 3 => accept (imm == 0#24) .mustBeZero (.ok (.wrcfgBeta 0#64))
  | _ => .error .badOperandField

/-- `RDCFG`: `A` names the register (R94). -/
def decodeRdcfg (a : BitVec 4) (imm : Imm) : Except DecodeError Instr :=
  match a.toNat with
  | 0 => accept (imm == 0#24) .mustBeZero (.ok (.rdcfg .n))
  | 1 => accept (imm == 0#24) .mustBeZero (.ok (.rdcfg .ts))
  | 2 => accept (imm == 0#24) .mustBeZero (.ok (.rdcfg .rbs))
  | 3 => accept (imm == 0#24) .mustBeZero (.ok (.rdcfg .beta))
  | _ => .error .badOperandField

/-- `MOD`: `A` is the bit count, 0 to 8 (R94). An odd count decodes (R96). -/
def decodeMod (a : BitVec 4) (imm : Imm) : Except DecodeError Instr :=
  if a.toNat < 8 then acceptByte imm (.mod (a.extractLsb' 0 3))
  else if a.toNat = 8 then acceptByte imm .modNb8
  else .error .badOperandField

/-- Decoding of the command word alone (R95): the operation with its payload operand, if it has one,
still empty (a zero word, or no sample words). Decoding does not read the state. -/
def decodeCmd (w : Cmd) : Except DecodeError Instr :=
  match (opcField w).toNat with
  | 1 => decodeWrcfg (aField w) (immField w)
  | 2 => decodeRdcfg (aField w) (immField w)
  | 3 => accept (aField w == 0#4) .badOperandField (accept (immField w == 0#24) .mustBeZero (.ok .rdstat))
  | 4 => accept (aField w == 0#4) .badOperandField (accept (immField w == 0#24) .mustBeZero (.ok .init))
  | 5 => accept (aField w == 0#4) .badOperandField
      (accept ((immField w).extractLsb' 2 22 == 0#22) .mustBeZero (.ok (.map ((immField w).extractLsb' 0 2))))
  | 6 => accept (aField w == 0#4) .badOperandField (acceptByte (immField w) .unpack)
  | 7 => decodeMod (aField w) (immField w)
  | 8 => accept (aField w == 0#4) .badOperandField (.ok (.rdcoef (immField w)))
  | 9 => accept (aField w == 0#4) .badOperandField (.ok (.wrcoef (immField w) 0#64))
  | 10 => accept (aField w == 0#4) .badOperandField (.ok (.filter (immField w) []))
  | 11 => accept (aField w == 0#4) .badOperandField (acceptByte (immField w) .pushb)
  | 12 => accept (aField w == 0#4) .badOperandField (accept (immField w == 0#24) .mustBeZero (.ok .flush))
  | _ => .error .reservedOpcode

/-! ### The payload (R93, R97) -/

/-- An operation that calls for no payload word. -/
def noPayload (i : Instr) : List Word → Except DecodeError Instr
  | [] => .ok i
  | _ :: _ => .error .payloadLength

/-- An operation that calls for one payload word. -/
def onePayload (i : Word → Instr) : List Word → Except DecodeError Instr
  | [x] => .ok (i x)
  | _ => .error .payloadLength

/-- Gives the decoded command word its payload; the pair is refused when the lengths differ (R97). -/
def attachPayload : Instr → List Word → Except DecodeError Instr
  | .wrcfgN v, ps => noPayload (.wrcfgN v) ps
  | .wrcfgTs v, ps => noPayload (.wrcfgTs v) ps
  | .wrcfgRbs v, ps => noPayload (.wrcfgRbs v) ps
  | .wrcfgBeta _, ps => onePayload .wrcfgBeta ps
  | .rdcfg r, ps => noPayload (.rdcfg r) ps
  | .rdstat, ps => noPayload .rdstat ps
  | .init, ps => noPayload .init ps
  | .map b, ps => noPayload (.map b) ps
  | .unpack v, ps => noPayload (.unpack v) ps
  | .mod nb v, ps => noPayload (.mod nb v) ps
  | .modNb8 v, ps => noPayload (.modNb8 v) ps
  | .rdcoef p, ps => noPayload (.rdcoef p) ps
  | .wrcoef p _, ps => onePayload (.wrcoef p) ps
  | .filter l _, ps => if ps.length = 2 * l.toNat then .ok (.filter l ps) else .error .payloadLength
  | .pushb v, ps => noPayload (.pushb v) ps
  | .flush, ps => noPayload .flush ps

/-- Decoding of an operation, the pair of a command word and its payload. An illegal command word calls
for no payload word (R93), so with payload words beside it the pair is not well formed either. -/
def decode (w : Cmd) (payload : List Word) : Except DecodeError Instr :=
  match decodeCmd w with
  | .ok i => attachPayload i payload
  | .error e => if payload.isEmpty then .error e else .error .payloadLength

/-! ### The encoder (R92, R94) -/

/-- `OPC ‖ A ‖ IMM`. -/
def cmdWord (opc a : BitVec 4) (imm : Imm) : Cmd := opc ++ a ++ imm

/-- The index of a configuration register in the `CFG` space (R71). -/
def CfgReg.index : CfgReg → BitVec 4
  | .n => 0#4
  | .ts => 1#4
  | .rbs => 2#4
  | .beta => 3#4

/-- A byte in `IMM[7:0]`, `IMM[23:8]` zero. -/
def byteImm (v : Byte) : Imm := 0#16 ++ v

/-- The command word of an operation (R94). -/
def encodeCmd : Instr → Cmd
  | .wrcfgN v => cmdWord 1#4 0#4 v
  | .wrcfgTs v => cmdWord 1#4 1#4 v
  | .wrcfgRbs v => cmdWord 1#4 2#4 v
  | .wrcfgBeta _ => cmdWord 1#4 3#4 0#24
  | .rdcfg r => cmdWord 2#4 r.index 0#24
  | .rdstat => cmdWord 3#4 0#4 0#24
  | .init => cmdWord 4#4 0#4 0#24
  | .map b => cmdWord 5#4 0#4 (0#22 ++ b)
  | .unpack v => cmdWord 6#4 0#4 (byteImm v)
  | .mod nb v => cmdWord 7#4 (0#1 ++ nb) (byteImm v)
  | .modNb8 v => cmdWord 7#4 8#4 (byteImm v)
  | .rdcoef p => cmdWord 8#4 0#4 p
  | .wrcoef p _ => cmdWord 9#4 0#4 p
  | .filter l _ => cmdWord 10#4 0#4 l
  | .pushb v => cmdWord 11#4 0#4 (byteImm v)
  | .flush => cmdWord 12#4 0#4 0#24

/-- The words of an operation: its command word and its payload words. -/
def encode (i : Instr) : Cmd × List Word := (encodeCmd i, i.payload)

/-! ### The opcode table's rows (R95) -/

/-- One row of opcode_table.json: `w &&& mask = pattern` picks the words of the row. -/
structure Row where
  mask : Cmd
  pattern : Cmd
  deriving DecidableEq, Repr

/-- The row an operation belongs to. -/
def rowOf : Instr → Row
  | .wrcfgN _ => ⟨0xFF000000#32, 0x10000000#32⟩
  | .wrcfgTs _ => ⟨0xFF000000#32, 0x11000000#32⟩
  | .wrcfgRbs _ => ⟨0xFF000000#32, 0x12000000#32⟩
  | .wrcfgBeta _ => ⟨0xFFFFFFFF#32, 0x13000000#32⟩
  | .rdcfg _ => ⟨0xFCFFFFFF#32, 0x20000000#32⟩
  | .rdstat => ⟨0xFFFFFFFF#32, 0x30000000#32⟩
  | .init => ⟨0xFFFFFFFF#32, 0x40000000#32⟩
  | .map _ => ⟨0xFFFFFFFC#32, 0x50000000#32⟩
  | .unpack _ => ⟨0xFFFFFF00#32, 0x60000000#32⟩
  | .mod _ _ => ⟨0xF8FFFF00#32, 0x70000000#32⟩
  | .modNb8 _ => ⟨0xFFFFFF00#32, 0x78000000#32⟩
  | .rdcoef _ => ⟨0xFF000000#32, 0x80000000#32⟩
  | .wrcoef _ _ => ⟨0xFF000000#32, 0x90000000#32⟩
  | .filter _ _ => ⟨0xFF000000#32, 0xA0000000#32⟩
  | .pushb _ => ⟨0xFFFFFF00#32, 0xB0000000#32⟩
  | .flush => ⟨0xFFFFFFFF#32, 0xC0000000#32⟩

/-- The sixteen rows, in the table's order. -/
def opcodeRows : List Row :=
  [rowOf (.wrcfgN 0#24), rowOf (.wrcfgTs 0#24), rowOf (.wrcfgRbs 0#24), rowOf (.wrcfgBeta 0#64),
    rowOf (.rdcfg .n), rowOf .rdstat, rowOf .init, rowOf (.map 0#2)] ++
  [rowOf (.unpack 0#8), rowOf (.mod 0#3 0#8), rowOf (.modNb8 0#8), rowOf (.rdcoef 0#24),
    rowOf (.wrcoef 0#24 0#64), rowOf (.filter 0#24 []), rowOf (.pushb 0#8), rowOf .flush]

/-! ### The host's question -/

/-- The command word whose bits the table numbers as `w`. -/
def tableCmd (nbits w : Nat) : Cmd := BitVec.ofNat 32 (w % 2 ^ nbits)

/-- The payload of zeros that a command word calls for. -/
def zeroPayload (w : Cmd) : List Word :=
  match decodeCmd w with
  | .ok i => List.replicate i.payloadWords 0#64
  | .error _ => []

/-- The operation the decoder reads from the command word `w` with a payload of zeros. -/
def decodeTableWord (nbits w : Nat) : Option Instr :=
  (decode (tableCmd nbits w) (zeroPayload (tableCmd nbits w))).toOption

end Sys2Proof
end

