-- ==== Sys2Proof/Machine/State.lean ====
section
/-! DEFINITION. The state of one block as plain data (spec 10_state.md R40 to R57), its channels
(30_encoding.md R91), the host's moves still to come, the reasons a step can stop, and the state after
reset. -/

namespace Sys2Proof.Machine

/-- `STATUS.PHASE` (R45, R185). The encoding 3 never occurs (U4a), so the type does not contain it. -/
inductive Phase where
  /-- 0: configuration may be written, no session exists. -/
  | config
  /-- 1: a session exists, data operations are legal. -/
  | run
  /-- 2: a fault was raised; nothing but `RDSTAT` executes until reset. -/
  | faulted
  deriving DecidableEq, Repr

/-- The seven synchronous faults of the block (R210). Codes 8 to 15 are never produced (U4a). -/
inductive FaultCode where
  /-- 1, R211. -/
  | illegalOp
  /-- 2, R212. -/
  | badPhase
  /-- 3, R213. -/
  | badConfig
  /-- 4, R214. -/
  | oddBits
  /-- 5, R215. -/
  | indexRange
  /-- 6, R216. -/
  | chunkRange
  /-- 7, R217. -/
  | divZero
  deriving DecidableEq, Repr

/-- A complex sample: the ordered pair `(re, im)` of binary64 words (R20). -/
structure Sample where
  re : Word
  im : Word
  deriving DecidableEq, Repr

/-- One word on the `SINK` channel with its last-word mark (R91, R102). -/
structure SinkWord where
  data : Word
  last : Bool
  deriving DecidableEq, Repr

/-- One move of the environment: the host issues an operation, the pair of a command word (channel
`CMD`) and its payload words (channel `WDATA`) (R91, R97); or the platform pulses `RESET` between two
operations (R240). -/
inductive HostMove where
  | op (cmd : Cmd) (payload : List Word)
  | reset
  deriving DecidableEq, Repr

/-- The machine: the tuple of R40, the channels of R91, and two fields of the model's own (`inbox`,
`freeCtr`). The constant file `PT` of R46 is the definition `Machine.constellation`, since nothing writes it.
`STATUS.OUTCNT` is `outq.length` (R40). -/
structure State where
  /-- `CFG_N`, 24-bit (R41). -/
  cfgN : Imm
  /-- `CFG_TS`, 24-bit (R42). -/
  cfgTs : Imm
  /-- `CFG_RBS`, 24-bit (R43). -/
  cfgRbs : Imm
  /-- `CFG_BETA`, a binary64 word (R44). -/
  cfgBeta : Word
  /-- `STATUS.PHASE` (R45). -/
  phase : Phase
  /-- `STATUS.FCODE`, `none` for 0 (R45). -/
  fcode : Option FaultCode
  /-- `COEF`; `none` is "holds no value" (R47, R51). -/
  coef : Option (List Word)
  /-- `H`, oldest first; `none` is "holds no value" (R48, R51). -/
  hist : Option (List Sample)
  /-- `OUTQ`, oldest first (R49). -/
  outq : List Sample
  /-- The words the channel `RSP` has carried since reset, in order (R91, R101). -/
  rsp : List (BitVec 32)
  /-- The words the channel `RDATA` has carried since reset, in order (R91). -/
  rdata : List Word
  /-- The words the channel `SINK` has carried since reset, in order (R91, R102). -/
  sink : List SinkWord
  /-- The model's own: the moves the host and the platform make next, in order (R9, R78, R79). -/
  inbox : List HostMove
  /-- The model's own: how many free values (NaN words, `NW` fields) have been used. -/
  freeCtr : Nat
  deriving DecidableEq, Repr

/-- A step of the model that stops with a fault. The block's own faults (R210) are not among them: they are
taken, with a next state. -/
inductive Fault where
  /-- Raised by `RDCOEF`, `WRCOEF`, `FILTER` and `PUSHB` when `COEF` does not have `CFG_N` elements or `H`
  not one fewer: "mismatched coefficient/filter-width length — undefined arithmetic result" (R218 (b), U2).
  No run reaches such a state (R56, R176). That the stop is a fault and no refusal is log entry 7. Safe: the machine
  stops where the spec has no state. -/
  | sizeMismatch
  deriving DecidableEq, Repr

/-- A step the model gives no meaning. -/
inductive Refusal where
  /-- Raised by an arm of `exec` for an instruction that has no meaning yet. Safe. No arm uses it. -/
  | notModelled (mnemonic : String)
  /-- Raised by the fetch, and by `FILTER`, for a pair of a command word and a payload of another length than
  R93 gives: "a model refuses a pair that is not well formed" (R97, U11). Safe. -/
  | malformedOperation
  /-- Raised by `RDCOEF`, `WRCOEF`, `FILTER` and `PUSHB` in phase `RUN` when `COEF` or `H` holds no value (R51, U10
  `refuse`). No run reaches such a state (R56). Safe. -/
  | noValue
  deriving DecidableEq, Repr

/-- The state after reset (R57, R241): every configuration register at its default, phase `CONFIG`, no
fault, `COEF` and `H` without a value, `OUTQ` and the channels empty; no move of the host is placed and
no free value has been used. -/
def State.reset : State where
  cfgN := 20#24
  cfgTs := 4#24
  cfgRbs := 1024#24
  cfgBeta := 0x3FD0000000000000#64
  phase := .config
  fcode := none
  coef := none
  hist := none
  outq := []
  rsp := []
  rdata := []
  sink := []
  inbox := []
  freeCtr := 0

end Sys2Proof.Machine
end

