-- ==== Sys2Proof/Machine/Flags.lean ====
section
/-! DEFINITION. The only flag-like state of the block as words: `STATUS` (spec 10_state.md R45) and the
response word `RSP` (30_encoding.md R101). There are no condition codes and no arithmetic flags (R53). -/

namespace Sys2Proof.Machine

/-- `STATUS.PHASE` as its two bits (R45). -/
def phaseBits : Phase → BitVec 2
  | .config => 0#2
  | .run => 1#2
  | .faulted => 2#2

/-- The four-bit code of a fault (R210). -/
def faultBits : FaultCode → BitVec 4
  | .illegalOp => 1#4
  | .badPhase => 2#4
  | .badConfig => 3#4
  | .oddBits => 4#4
  | .indexRange => 5#4
  | .chunkRange => 6#4
  | .divZero => 7#4

/-- `STATUS.FCODE` as its four bits: 0 if no fault was raised (R45). -/
def fcodeBits : Option FaultCode → BitVec 4
  | none => 0#4
  | some f => faultBits f

/-- `STATUS`: `len(OUTQ)[23:0] ‖ FCODE ‖ 00 ‖ PHASE` (R45, R189). -/
def statusWord (s : State) : BitVec 32 :=
  BitVec.ofNat 24 s.outq.length ++ fcodeBits s.fcode ++ 0#2 ++ phaseBits s.phase

/-- A response word: `NW ‖ 0000 ‖ CODE` (R101). -/
def rspWord (nw : Imm) (code : BitVec 4) : BitVec 32 := nw ++ 0#4 ++ code

end Sys2Proof.Machine
end

