-- ==== Sys2Proof/Config.lean ====
section
/-! DEFINITION. What one implementation fixes and the spec leaves open, and the free values: constants
with no body, so that no proof can see what they are. The capacities and the trigonometric functions
are given the shape the spec allows them in Sys2Proof/Machine/Params.lean, the free words in
Sys2Proof/Machine/Ops.lean. -/

namespace Sys2Proof.Config

/-- Fixes `N_MAX` (R7, D5 OPEN): see `Machine.nMax`. -/
opaque nMaxFree : Nat

/-- Fixes `TS_MAX` (R7, D5 OPEN): see `Machine.tsMax`. -/
opaque tsMaxFree : Nat

/-- Fixes `RBS_MAX` (R7, D5 OPEN): see `Machine.rbsMax`. -/
opaque rbsMaxFree : Nat

/-- Fixes `L_MAX` (R7, D5 OPEN): see `Machine.lMax`. -/
opaque lMaxFree : Nat

/-- `NUM.SIN` (R19, D11 OPEN): a total function of its argument; no accuracy is promised. -/
opaque sinFn : Word → Word

/-- `NUM.COS` (R19, D11 OPEN): a total function of its argument; no accuracy is promised. -/
opaque cosFn : Word → Word

/-- The free choice of the word a NaN result is delivered in (R15, U6), one for each value of
`State.freeCtr`. Log entry 2. -/
opaque nanBits : Nat → Word

/-- The free value of the `NW` field when the number of result words does not fit its 24 bits (R101
gives the field no value there), one for each value of `State.freeCtr`. Log entry 3. -/
opaque nwBits : Nat → Imm

end Sys2Proof.Config
end

