-- ==== Sys2Proof/Machine/Binary64.lean ====
section
/-! DEFINITION. Binary64 arithmetic on 64-bit words (spec 00_scope.md R15 to R18): exact integer arithmetic
in units of the smallest subnormal, `2⁻¹⁰⁷⁴`, then one rounding to nearest, ties to even. -/

namespace Sys2Proof.Machine

/-! ### The encoding (R15) -/

/-- The sign bit, bit 63. -/
def signBit (w : Word) : Bool := w.getLsbD 63

/-- Bits 62:0, the exponent and fraction fields as one number; it orders the magnitudes. -/
def magBits (w : Word) : Nat := w.toNat % 2 ^ 63

/-- The magnitude field of the infinities: exponent all ones, fraction zero. -/
def infMag : Nat := 0x7FF0000000000000

/-- A NaN: exponent all ones, fraction not zero. -/
def isNaN (w : Word) : Bool := infMag < magBits w

/-- `+Inf` or `−Inf`. -/
def isInf (w : Word) : Bool := magBits w == infMag

/-- A finite number, zeros and subnormals included. -/
def isFinite (w : Word) : Bool := magBits w < infMag

/-- `+0` or `−0`. -/
def isZero (w : Word) : Bool := magBits w == 0

/-- The word with sign `s` and magnitude field `k`. -/
def ofMag (s : Bool) (k : Nat) : Word := BitVec.ofNat 64 (if s then 2 ^ 63 + k else k)

/-- The word every NaN result has inside the model; which word it is delivered in is a free choice, made
where a result leaves an operation (`Machine.freeNaN`). -/
def canonicalNaN : Word := 0x7FF8000000000000#64

/-- All NaNs are one value (R15): a NaN word becomes the canonical one. -/
def canonical (w : Word) : Word := if isNaN w then canonicalNaN else w

/-- The significand of a finite word as an integer: the implicit bit is present but for exponent field 0. -/
def significand (w : Word) : Nat :=
  if magBits w / 2 ^ 52 = 0 then magBits w % 2 ^ 52 else 2 ^ 52 + magBits w % 2 ^ 52

/-- The exponent of the significand, in units of `2⁻¹⁰⁷⁴`: a subnormal has 0. -/
def exponent (w : Word) : Nat := magBits w / 2 ^ 52 - 1

/-- The magnitude of a finite word, an integer number of units of `2⁻¹⁰⁷⁴`. -/
def units (w : Word) : Nat := significand w * 2 ^ exponent w

/-- A finite word's value in units of `2⁻¹⁰⁷⁴`. -/
def signedUnits (w : Word) : Int := if signBit w then -(units w : Int) else (units w : Int)

/-! ### Rounding (R16) -/

/-- Nearest integer to `n / d`, ties to even. -/
def roundDiv (n d : Nat) : Nat :=
  n / d + (if d < 2 * (n % d) ∨ (2 * (n % d) = d ∧ n / d % 2 = 1) then 1 else 0)

/-- How many low bits, in units, the magnitude `n / d` loses to a 53-bit significand. -/
def quantum (n d : Nat) : Nat := (n / d).log2 - 52

/-- The binary64 word nearest to `± n / d` units, ties to even, overflow to infinity; `d` is not zero. The
magnitude field is `quantum · 2⁵² + significand`, which also carries a significand that rounds up to `2⁵³`
into the next exponent. -/
def roundUnits (s : Bool) (n d : Nat) : Word :=
  ofMag s (min (quantum n d * 2 ^ 52 + roundDiv n (d * 2 ^ quantum n d)) infMag)

/-! ### Operations (R16) -/

/-- `−a`: the sign bit flipped. -/
def negF (a : Word) : Word := a ^^^ 0x8000000000000000#64

/-- `a + b`. An exact zero sum is `+0` unless both operands are negative zeros. -/
def addF (a b : Word) : Word :=
  if isNaN a || isNaN b then canonicalNaN
  else if isInf a then (if isInf b && signBit a != signBit b then canonicalNaN else a)
  else if isInf b then b
  else if signedUnits a + signedUnits b = 0 then ofMag (signBit a && signBit b) 0
  else roundUnits (decide (signedUnits a + signedUnits b < 0)) (signedUnits a + signedUnits b).natAbs 1

/-- `a − b`. -/
def subF (a b : Word) : Word := addF a (negF b)

/-- `a · b`. -/
def mulF (a b : Word) : Word :=
  if isNaN a || isNaN b then canonicalNaN
  else if isInf a || isInf b then
    (if isZero a || isZero b then canonicalNaN else ofMag (signBit a != signBit b) infMag)
  else roundUnits (signBit a != signBit b) (units a * units b) (2 ^ 1074)

/-- `a / b`. A non-zero number divided by a zero is an infinity, without a trap. -/
def divF (a b : Word) : Word :=
  if isNaN a || isNaN b then canonicalNaN
  else if isInf a then (if isInf b then canonicalNaN else ofMag (signBit a != signBit b) infMag)
  else if isInf b then ofMag (signBit a != signBit b) 0
  else if isZero b then
    (if isZero a then canonicalNaN else ofMag (signBit a != signBit b) infMag)
  else roundUnits (signBit a != signBit b) (units a * 2 ^ 1074) (units b)

/-- Integer square root, rounded down, of a number below `4 ^ fuel`. -/
def isqrt : Nat → Nat → Nat
  | 0, _ => 0
  | fuel + 1, n =>
    let r := isqrt fuel (n / 4)
    if (2 * r + 1) * (2 * r + 1) ≤ n then 2 * r + 1 else 2 * r

/-- The integer whose square root, scaled by `sqrtScale`, is the root of `w` in units: the significand
with enough zero bits below it that the integer root has more than 53 bits. -/
def radicand (w : Word) : Nat := significand w * 2 ^ ((exponent w + 1074) % 2 + 108)

/-- The power of two that `radicand` leaves out of the root. -/
def sqrtScale (w : Word) : Nat := 2 ^ ((exponent w + 1074) / 2 - 54)

/-- `sqrt a`, correctly rounded: the integer root, doubled, plus a sticky one where the root is not
exact, then one rounding. -/
def sqrtF (a : Word) : Word :=
  if isNaN a then canonicalNaN
  else if isZero a then a
  else if signBit a then canonicalNaN
  else if isInf a then a
  else
    let r := isqrt 81 (radicand a)
    roundUnits false ((2 * r + (if r * r = radicand a then 0 else 1)) * sqrtScale a) 2

/-! ### Comparisons (R17) -/

/-- The magnitude field with its sign: it orders the values that are no NaN, both zeros alike. -/
def orderKey (w : Word) : Int := if signBit w then -(magBits w : Int) else (magBits w : Int)

/-- `a == b`: `+0 == −0`, and false with a NaN. -/
def eqF (a b : Word) : Bool := !isNaN a && !isNaN b && decide (orderKey a = orderKey b)

/-- `a < b`: false with a NaN. -/
def ltF (a b : Word) : Bool := !isNaN a && !isNaN b && decide (orderKey a < orderKey b)

/-! ### Integers and constants (R12, R18) -/

/-- `ofInt(i)`. -/
def ofIntF (i : Int) : Word := roundUnits (decide (i < 0)) (i.natAbs * 2 ^ 1074) 1

/-- `+0`. -/
def zeroF : Word := 0#64

/-- `1 = ofInt(1)`. -/
def oneF : Word := ofIntF 1

/-- `2 = ofInt(2)`. -/
def twoF : Word := ofIntF 2

/-- `4 = ofInt(4)`. -/
def fourF : Word := ofIntF 4

/-- `PI`, the binary64 number nearest to π. -/
def piF : Word := 0x400921FB54442D18#64

/-- `SQRT2 = sqrt(ofInt(2))`. -/
def sqrt2F : Word := sqrtF twoF

end Sys2Proof.Machine
end

