-- ==== Sys2Proof/Machine/Params.lean ====
section
/-! DEFINITION. The parameters of the model in the shape the spec gives them: the four capacities with every
legal value possible and no other (00_scope.md R7, D5), and the trigonometric functions (R19, D11). -/

namespace Sys2Proof.Machine

/-- `N_MAX`: even, `20 ≤ N_MAX < 2²⁴`; any such number (R7). -/
def nMax : Nat := 2 * (Config.nMaxFree % 8388598) + 20

/-- `TS_MAX`: `4 ≤ TS_MAX`, at most `2²² − 256`, the largest value the joint constraints leave (R7). -/
def tsMax : Nat := Config.tsMaxFree % 4194045 + 4

/-- `RBS_MAX`: `1024 ≤ RBS_MAX` and `RBS_MAX + 4·TS_MAX ≤ 2²⁴`; any such number (R7). -/
def rbsMax : Nat := Config.rbsMaxFree % (2 ^ 24 - 4 * tsMax - 1023) + 1024

/-- `L_MAX`: `4·TS_MAX ≤ L_MAX < 2²⁴`; any such number (R7). -/
def lMax : Nat := Config.lMaxFree % (2 ^ 24 - 4 * tsMax) + 4 * tsMax

/-- The two functions `SIN` and `COS` of the record `NUM` (R19). -/
structure Trig where
  sin : Word → Word
  cos : Word → Word

/-- The hardware's `SIN` and `COS`: functions of the value alone, so that all NaN arguments are one (R15, R19). -/
def hwTrig : Trig where
  sin := fun x => Config.sinFn (canonical x)
  cos := fun x => Config.cosFn (canonical x)

end Sys2Proof.Machine
end

