-- ==== Sys2Proof/Machine/Operands.lean ====
section
/-! DEFINITION. Samples, bits, the constellation, the mapper, the unpacker and the modulator (spec
00_scope.md R20, R21; 10_state.md R46; 30_encoding.md R103, R104; 40_mapper.md; 42_bit_unpacker.md;
43_modulator.md). -/

namespace Sys2Proof.Machine

/-! ### Complex samples (R20, R21) -/

/-- The complex zero `(+0, +0)`. -/
def czero : Sample := ⟨zeroF, zeroF⟩

/-- `scale(z, c)`: two independent multiplications. -/
def scale (z : Sample) (c : Word) : Sample := ⟨mulF z.re c, mulF z.im c⟩

/-- `cadd(a, b)`: two independent additions. -/
def cadd (a b : Sample) : Sample := ⟨addF a.re b.re, addF a.im b.im⟩

/-- Samples as words: `re`, then `im`, oldest sample first (R20, R75). -/
def wordsOf : List Sample → List Word
  | [] => []
  | z :: zs => z.re :: z.im :: wordsOf zs

/-- The samples of a payload: `xs[s] = (payload[2s], payload[2s + 1])` (R171). A payload of odd length does
not reach it (R97). -/
def samplesOf : List Word → List Sample
  | re :: im :: ws => ⟨re, im⟩ :: samplesOf ws
  | _ => []

/-! ### The constellation (R46) -/

/-- `ang_k = (PI · ofInt(2k + 1)) / ofInt(4)`. -/
def angle (k : Nat) : Word := divF (mulF piF (ofIntF (2 * k + 1))) (ofIntF 4)

/-- `PT[k] = (COS(ang_k), SIN(ang_k))` under the functions `tr`. -/
def pointOf (tr : Trig) (k : Fin 4) : Sample := ⟨tr.cos (angle k), tr.sin (angle k)⟩

/-- `PT`, the constant register file of the block (R46). -/
def constellation : Fin 4 → Sample := pointOf hwTrig

/-! ### The mapper (R103, R120) -/

/-- The table of R103. -/
def pointIndex : (first second : Bool) → Fin 4
  | true, true => 0
  | false, true => 1
  | false, false => 2
  | true, false => 3

/-- `MAPPT(first, second)` over a constellation `pt`. -/
def mapPoint (pt : Fin 4 → Sample) (first second : Bool) : Sample := pt (pointIndex first second)

/-! ### The unpacker (R150) -/

/-- `UNPACKF(v)`: the eight bits of the byte, most significant first. -/
def unpackBits (v : Byte) : List Bool :=
  [v.getLsbD 7, v.getLsbD 6, v.getLsbD 5, v.getLsbD 4, v.getLsbD 3, v.getLsbD 2, v.getLsbD 1, v.getLsbD 0]

/-- A bit as a word of value 0 or 1 (R104). -/
def bitWord (b : Bool) : Word := if b then 1#64 else 0#64

/-! ### The modulator (R155) -/

/-- `MODULATE(bits, Ts)`: each consecutive pair mapped, each point repeated `Ts` times. It is defined for an
even number of bits; `MOD` faults before it gives it an odd one (R157). -/
def modulate (pt : Fin 4 → Sample) : List Bool → Nat → List Sample
  | first :: second :: rest, ts => List.replicate ts (mapPoint pt first second) ++ modulate pt rest ts
  | _, _ => []

end Sys2Proof.Machine
end

