-- ==== Sys2Proof/Machine/Ops.lean ====
section
/-! DEFINITION. The shared operations of the meanings: taking a fault, responding, sending a burst, the phase
check, reading the memories, free NaN words, and the fetch of the host's next move. -/

namespace Sys2Proof.Machine

/-! ### Free values -/

/-- The word the NaN result number `k` is delivered in: any word that encodes a NaN, and no other (R15,
U6). -/
def freeNaN (k : Nat) : Word := if isNaN (Config.nanBits k) then Config.nanBits k else canonicalNaN

/-- A result word as it leaves an operation: itself, or a free NaN word for a NaN. -/
def deliver (k : Nat) (w : Word) : Word := if isNaN w then freeNaN k else w

/-- Result words delivered in order, each with a free value of its own. -/
def deliverWords : Nat → List Word → List Word
  | _, [] => []
  | k, w :: ws => deliver k w :: deliverWords (k + 1) ws

/-- Result samples delivered in order, `re` before `im`. -/
def deliverSamples : Nat → List Sample → List Sample
  | _, [] => []
  | k, z :: zs => ⟨deliver k z.re, deliver (k + 1) z.im⟩ :: deliverSamples (k + 2) zs

/-- `NW` for `n` result words (R101): `n`, or a free value when `n` does not fit the field. -/
def nwField (k n : Nat) : Imm := if n < 2 ^ 24 then BitVec.ofNat 24 n else Config.nwBits k

/-! ### Ends of an operation (R14) -/

/-- `raise f` (R221, R222): nothing is written but the two `STATUS` fields, the response carries the code of
`f` and no result word. In phase `FAULTED` the state keeps the code of the first fault. -/
def raise (f : FaultCode) (s : State) : State :=
  { s with
    phase := .faulted
    fcode := if s.phase = .faulted then s.fcode else some f
    rsp := s.rsp ++ [rspWord 0#24 (faultBits f)] }

/-- `respond OK(ws)` (R14, R101). -/
def respond (ws : List Word) (s : State) : State :=
  { s with
    rsp := s.rsp ++ [rspWord (nwField s.freeCtr ws.length) 0#4]
    rdata := s.rdata ++ ws
    freeCtr := if ws.length < 2 ^ 24 then s.freeCtr else s.freeCtr + 1 }

/-- The words of a burst, the last of them marked (R102). -/
def markLast : List Word → List SinkWord
  | [] => []
  | [w] => [⟨w, true⟩]
  | w :: v :: ws => ⟨w, false⟩ :: markLast (v :: ws)

/-- `emit burst(q)` (R14, R102). An empty burst is never sent: it adds no word. -/
def emit (q : List Sample) (s : State) : State := { s with sink := s.sink ++ markLast (wordsOf q) }

/-! ### Checks and reads -/

/-- The phase check: `k` in phase `p`, otherwise `raise BAD_PHASE` (R185, R212). -/
def requirePhase (p : Phase) (s : State) (k : Host.Outcome State Fault Refusal) :
    Host.Outcome State Fault Refusal :=
  if s.phase = p then k else .next (raise .badPhase s)

/-- The whole of `COEF`, which has `CFG_N` elements in every state a run reaches (R47, R176). -/
def withCoef (s : State) (k : List Word → Host.Outcome State Fault Refusal) :
    Host.Outcome State Fault Refusal :=
  match s.coef with
  | none => .refused .noValue
  | some c => if c.length = s.cfgN.toNat then k c else .fault .sizeMismatch

/-- The whole of `COEF` and `H`, with `CFG_N` and `CFG_N − 1` elements (R47, R48, R176). -/
def withSession (s : State) (k : List Word → List Sample → Host.Outcome State Fault Refusal) :
    Host.Outcome State Fault Refusal :=
  withCoef s fun c =>
    match s.hist with
    | none => .refused .noValue
    | some h => if h.length + 1 = c.length then k c h else .fault .sizeMismatch

/-- One element of `COEF`: the range check `p < CFG_N` first, `raise INDEX_RANGE` when it fails (R73,
R215). -/
def withTap (p : Imm) (s : State) (k : List Word → Host.Outcome State Fault Refusal) :
    Host.Outcome State Fault Refusal :=
  if p.toNat < s.cfgN.toNat then withCoef s k else .next (raise .indexRange s)

/-- The form of the two memories (R47, R48, R51): both hold no value, or `COEF` has `CFG_N` elements and `H`
one fewer. The block has no byte-addressed memory (R70, R75); this takes the place of a canonical form of one. -/
def Memory.wf (s : State) : Bool :=
  match s.coef, s.hist with
  | none, none => true
  | some c, some h => c.length == s.cfgN.toNat && h.length + 1 == s.cfgN.toNat
  | none, some _ => false
  | some _, none => false

/-! ### Reset and fetch -/

/-- The `RESET` input (R240, R241): the state of `State.reset`; the moves of the environment still to come
stay, and the free values used stay used. -/
def resetBlock (s : State) : State := { State.reset with inbox := s.inbox, freeCtr := s.freeCtr }

/-- What the next move of the environment asks of the block. -/
inductive Fetched where
  /-- The move is settled without running an operation. -/
  | settled (s : State)
  /-- An operation to run. -/
  | run (i : Instr) (s : State)
  /-- A pair that is not well formed (R97). -/
  | refuse
  deriving DecidableEq, Repr

/-- Takes the next move: with none the block waits (R241); a reset resets; an operation is decoded, and an
illegal command word raises `ILLEGAL_OP` in every phase (R211). The move is consumed, payload words
included, whatever the operation does (R93, R221). -/
def fetch (s : State) : Fetched :=
  match s.inbox with
  | [] => .settled s
  | .reset :: rest => .settled (resetBlock { s with inbox := rest })
  | .op w payload :: rest =>
    match decode w payload with
    | .ok i => .run i { s with inbox := rest }
    | .error .payloadLength => .refuse
    | .error .reservedOpcode => .settled (raise .illegalOp { s with inbox := rest })
    | .error .badOperandField => .settled (raise .illegalOp { s with inbox := rest })
    | .error .mustBeZero => .settled (raise .illegalOp { s with inbox := rest })

end Sys2Proof.Machine
end

