-- ==== Sys2Proof/Machine/Coefficients.lean ====
section
/-! DEFINITION. The operations `RDCOEF` and `WRCOEF` on the coefficient memory (spec 41_rrc_generator.md R140,
R141; 20_memory.md R73). -/

namespace Sys2Proof.Machine

/-- `RDCOEF p`: the word last written to `COEF[p]` (R140). -/
def execRdcoef (p : Imm) (s : State) : Host.Outcome State Fault Refusal :=
  requirePhase .run s (withTap p s fun coefs => .next (respond [coefs.getD p.toNat zeroF] s))

/-- `WRCOEF p, c`: any word is stored unchecked; the length of `COEF` cannot change (R141). -/
def execWrcoef (p : Imm) (c : Word) (s : State) : Host.Outcome State Fault Refusal :=
  requirePhase .run s
    (withTap p s fun coefs => .next (respond [] { s with coef := some (coefs.set p.toNat c) }))

end Sys2Proof.Machine
end

