-- ==== Sys2Proof/Machine/Configuration.lean ====
section
/-! DEFINITION. The operations `WRCFG`, `RDCFG` and `RDSTAT` (spec 45_pipeline_control.md R186 to R189). -/

namespace Sys2Proof.Machine

/-- `WRCFG N, v`: any 24-bit value is stored unchecked (R186). -/
def execWrcfgN (v : Imm) (s : State) : Host.Outcome State Fault Refusal :=
  requirePhase .config s (.next (respond [] { s with cfgN := v }))

/-- `WRCFG TS, v` (R186). -/
def execWrcfgTs (v : Imm) (s : State) : Host.Outcome State Fault Refusal :=
  requirePhase .config s (.next (respond [] { s with cfgTs := v }))

/-- `WRCFG RBS, v` (R186). -/
def execWrcfgRbs (v : Imm) (s : State) : Host.Outcome State Fault Refusal :=
  requirePhase .config s (.next (respond [] { s with cfgRbs := v }))

/-- `clamp01(x)`: a negative zero is not below zero and stays (R187). -/
def clamp01 (x : Word) : Word := if ltF x zeroF then zeroF else if ltF oneF x then oneF else x

/-- `WRCFG BETA, x`: a NaN faults, any other value is clamped to [0, 1] (R187). -/
def execWrcfgBeta (x : Word) (s : State) : Host.Outcome State Fault Refusal :=
  requirePhase .config s
    (if isNaN x then .next (raise .badConfig s)
     else .next (respond [] { s with cfgBeta := clamp01 x }))

/-- A configuration register as a 64-bit word (R71, R188). -/
def readCfg (s : State) : CfgReg → Word
  | .n => s.cfgN.setWidth 64
  | .ts => s.cfgTs.setWidth 64
  | .rbs => s.cfgRbs.setWidth 64
  | .beta => s.cfgBeta

/-- `RDCFG r`: legal but in phase `FAULTED` (R188). -/
def execRdcfg (r : CfgReg) (s : State) : Host.Outcome State Fault Refusal :=
  if s.phase = .faulted then .next (raise .badPhase s) else .next (respond [readCfg s r] s)

/-- `RDSTAT`: legal in every phase; it clears nothing (R189). -/
def execRdstat (s : State) : Host.Outcome State Fault Refusal :=
  .next (respond [(statusWord s).setWidth 64] s)

end Sys2Proof.Machine
end

