-- ==== Sys2Proof/Machine/Fir.lean ====
section
/-! DEFINITION. The streaming FIR filter (spec 44_fir_filter.md R165 to R170). -/

namespace Sys2Proof.Machine

/-- The sum of R167 for output `s` over the working buffer `w`, `N` the number of taps, in the order
of R168: from the complex zero, terms added in increasing `k`. The indices `N − 1 + s − k` stay inside `w`
when the history has `N − 1` samples (R167), so the default of `getD` is not used there. -/
def tapSum (c : List Word) (w : List Sample) (s : Nat) : Sample :=
  (List.range c.length).foldl
    (fun acc k => cadd acc (scale (w.getD (c.length + s - 1 - k) czero) (c.getD k zeroF))) czero

/-- `FIR(c, Hin, xs)`: the filtered chunk and the new history, both from the one working buffer
`W = Hin ++ xs` (R165, R166, R169). -/
def fir (c : List Word) (hin xs : List Sample) : List Sample × List Sample :=
  ((List.range xs.length).map (tapSum c (hin ++ xs)), (hin ++ xs).drop xs.length)

end Sys2Proof.Machine
end

