-- ==== Sys2Proof/Machine/Filter.lean ====
section
/-! DEFINITION. The operation `FILTER` (spec 44_fir_filter.md R171). -/

namespace Sys2Proof.Machine

/-- `FILTER L, samples`: the filtered chunk goes back to the host, only `H` is written. A payload of another
length than `2·L` is no operation (R97). -/
def execFilter (l : Imm) (payload : List Word) (s : State) : Host.Outcome State Fault Refusal :=
  if payload.length = 2 * l.toNat then
    requirePhase .run s
      (if lMax < l.toNat then .next (raise .chunkRange s)
       else
        withSession s fun c h =>
          .next (respond
            (deliverWords s.freeCtr (wordsOf (fir c h (samplesOf payload)).1))
            { s with
              hist := some (fir c h (samplesOf payload)).2
              freeCtr := s.freeCtr + 2 * l.toNat }))
  else .refused .malformedOperation

end Sys2Proof.Machine
end

