-- ==== Sys2Proof/Machine/Mapping.lean ====
section
/-! DEFINITION. The operations `MAP`, `UNPACK` and `MOD` (spec 40_mapper.md R122, 42_bit_unpacker.md R151,
43_modulator.md R158). They write no state. -/

namespace Sys2Proof.Machine

/-- `MAP b`: `IMM[1]` is the first bit, `IMM[0]` the second (R122). -/
def execMap (b : BitVec 2) (s : State) : Host.Outcome State Fault Refusal :=
  requirePhase .run s
    (.next (respond (wordsOf [mapPoint constellation (b.getLsbD 1) (b.getLsbD 0)]) s))

/-- `UNPACK v`: eight words, one for each bit (R151). -/
def execUnpack (v : Byte) (s : State) : Host.Outcome State Fault Refusal :=
  requirePhase .run s (.next (respond ((unpackBits v).map bitWord) s))

/-- `MOD nb, v` for any bit count: an odd count faults before any pair is mapped (R157, R158). -/
def modBits (nb : Nat) (v : Byte) (s : State) : Host.Outcome State Fault Refusal :=
  requirePhase .run s
    (if nb % 2 = 1 then .next (raise .oddBits s)
     else .next (respond (wordsOf (modulate constellation ((unpackBits v).take nb) s.cfgTs.toNat)) s))

/-- `MOD nb, v` with `nb` in 0 to 7 (R158). -/
def execMod (nb : BitVec 3) (v : Byte) (s : State) : Host.Outcome State Fault Refusal :=
  modBits nb.toNat v s

/-- `MOD 8, v` (R158). -/
def execModNb8 (v : Byte) (s : State) : Host.Outcome State Fault Refusal := modBits 8 v s

end Sys2Proof.Machine
end

