-- ==== Sys2Proof/Machine/Rrc.lean ====
section
/-! DEFINITION. The root-raised-cosine coefficient generator, tap by tap, in the order of operations the
spec fixes (41_rrc_generator.md R130 to R137). Every function takes `SIN` and `COS` as an argument. -/

namespace Sys2Proof.Machine

/-- `t = p − N/2`; `N` is even (R131). -/
def tapTime (n p : Nat) : Int := (p : Int) - (n / 2 : Nat)

/-- Branch Z: `1 + (β · ((4 / PI) − 1))` (R132). -/
def tapZ (beta : Word) : Word := addF oneF (mulF beta (subF (divF fourF piF) oneF))

/-- `t1 = Tsf / (4 · β)` (R133). -/
def singularTime (beta : Word) (ts : Nat) : Word := divF (ofIntF ts) (mulF fourF beta)

/-- The test for branch S, an exact equality; never taken for a zero β (R133). -/
def takesS (beta : Word) (t : Int) (ts : Nat) : Bool :=
  !eqF beta zeroF &&
    (eqF (ofIntF t) (singularTime beta ts) || eqF (ofIntF t) (negF (singularTime beta ts)))

/-- Branch S: `(β / SQRT2) · ((1 + 2/PI)·SIN(x) + (1 − 2/PI)·COS(x))` with `x = PI / (4·β)` (R134). -/
def tapS (tr : Trig) (beta : Word) : Word :=
  mulF (divF beta sqrt2F)
    (addF (mulF (addF oneF (divF twoF piF)) (tr.sin (divF piF (mulF fourF beta))))
      (mulF (subF oneF (divF twoF piF)) (tr.cos (divF piF (mulF fourF beta)))))

/-- `pts = (PI · tf) / Tsf` (R135). -/
def tapPts (t : Int) (ts : Nat) : Word := divF (mulF piF (ofIntF t)) (ofIntF ts)

/-- `bt = ((4 · β) · tf) / Tsf` (R135). -/
def tapBt (beta : Word) (t : Int) (ts : Nat) : Word :=
  divF (mulF (mulF fourF beta) (ofIntF t)) (ofIntF ts)

/-- The numerator `SIN(pts·(1 − β)) + (bt · COS(pts·(1 + β)))` (R135). -/
def tapNum (tr : Trig) (beta : Word) (t : Int) (ts : Nat) : Word :=
  addF (tr.sin (mulF (tapPts t ts) (subF oneF beta)))
    (mulF (tapBt beta t ts) (tr.cos (mulF (tapPts t ts) (addF oneF beta))))

/-- The denominator `pts · (1 − (bt · bt))` (R135). -/
def tapDen (beta : Word) (t : Int) (ts : Nat) : Word :=
  mulF (tapPts t ts) (subF oneF (mulF (tapBt beta t ts) (tapBt beta t ts)))

/-- Branch G; `none` is `DIV_ZERO`, raised when the denominator is a zero (R135, R136). -/
def tapG (tr : Trig) (beta : Word) (t : Int) (ts : Nat) : Option Word :=
  if eqF (tapDen beta t ts) zeroF then none
  else some (divF (tapNum tr beta t ts) (tapDen beta t ts))

/-- One tap: the three branches in the order they are tested (R137). -/
def tapAt (tr : Trig) (beta : Word) (n ts p : Nat) : Option Word :=
  if tapTime n p = 0 then some (tapZ beta)
  else if takesS beta (tapTime n p) ts then some (tapS tr beta)
  else tapG tr beta (tapTime n p) ts

/-- The taps at the given indices, in order; the first fault ends the function (R137). -/
def tapsAt (tr : Trig) (beta : Word) (n ts : Nat) : List Nat → Option (List Word)
  | [] => some []
  | p :: ps =>
    match tapAt tr beta n ts p with
    | none => none
    | some c =>
      match tapsAt tr beta n ts ps with
      | none => none
      | some cs => some (c :: cs)

/-- `RRC(β, N, Ts)`: the `N` taps, or `none` for `DIV_ZERO` (R130, R137). -/
def rrc (tr : Trig) (beta : Word) (n ts : Nat) : Option (List Word) :=
  tapsAt tr beta n ts (List.range n)

end Sys2Proof.Machine
end

