-- ==== Sys2Proof/Machine/Session.lean ====
section
/-! DEFINITION. The operations `INIT`, `PUSHB` and `FLUSH`: the construction of a session, the byte pipeline,
the end of the stream (spec 45_pipeline_control.md R190 to R192). -/

namespace Sys2Proof.Machine

/-- `N` even and `2 ≤ N ≤ N_MAX` (R190). -/
def legalN (n : Imm) : Bool := n.toNat % 2 == 0 && decide (2 ≤ n.toNat) && decide (n.toNat ≤ nMax)

/-- `1 ≤ Ts ≤ TS_MAX` (R190). -/
def legalTs (ts : Imm) : Bool := decide (1 ≤ ts.toNat) && decide (ts.toNat ≤ tsMax)

/-- `1 ≤ RBS ≤ RBS_MAX` (R190). -/
def legalRbs (rbs : Imm) : Bool := decide (1 ≤ rbs.toNat) && decide (rbs.toNat ≤ rbsMax)

/-- The state of a session with the taps `taps`: the history all complex zeros, the queue empty (R190). -/
def openSession (taps : List Word) (s : State) : State :=
  { s with
    coef := some (deliverWords s.freeCtr taps)
    hist := some (List.replicate (s.cfgN.toNat - 1) czero)
    outq := []
    phase := .run
    freeCtr := s.freeCtr + taps.length }

/-- `INIT` (R190): `N`, `Ts`, `RBS` are checked in this order, then the taps are computed; nothing is
written on a fault (R220). -/
def execInit (s : State) : Host.Outcome State Fault Refusal :=
  requirePhase .config s
    (if legalN s.cfgN = false then .next (raise .badConfig s)
     else if legalTs s.cfgTs = false then .next (raise .badConfig s)
     else if legalRbs s.cfgRbs = false then .next (raise .badConfig s)
     else
      match rrc hwTrig s.cfgBeta s.cfgN.toNat s.cfgTs.toNat with
      | none => .next (raise .divZero s)
      | some taps => .next (respond [] (openSession taps s)))

/-- Staging of filtered samples (R49, R191): the whole queue goes to the sink as one burst once it holds
`RBS` samples or more, otherwise it waits. -/
def stage (q : List Sample) (s : State) : State :=
  if s.cfgRbs.toNat ≤ q.length then { emit q s with outq := [] } else { s with outq := q }

/-- The samples of one byte of the stream: its eight bits modulated with `Ts` samples per symbol (R191). -/
def byteChips (v : Byte) (s : State) : List Sample :=
  modulate constellation (unpackBits v) s.cfgTs.toNat

/-- `PUSHB v`: one byte through unpacker, modulator and filter into the queue (R191). -/
def execPushb (v : Byte) (s : State) : Host.Outcome State Fault Refusal :=
  requirePhase .run s
    (withSession s fun c h =>
      .next (respond []
        (stage (s.outq ++ deliverSamples s.freeCtr (fir c h (byteChips v s)).1)
          { s with
            hist := some (fir c h (byteChips v s)).2
            freeCtr := s.freeCtr + 2 * (byteChips v s).length })))

/-- `FLUSH`: what is staged goes to the sink, the session ends, `COEF` and `H` hold no value (R192). -/
def execFlush (s : State) : Host.Outcome State Fault Refusal :=
  requirePhase .run s
    (.next (respond []
      { emit s.outq s with outq := [], coef := none, hist := none, phase := .config }))

end Sys2Proof.Machine
end

