-- ==== Sys2Proof/Machine/Dispatch.lean ====
section
/-! DEFINITION. One operation is one atomic step of the block (spec 00_scope.md R9): one arm for each row of
the opcode table. -/

namespace Sys2Proof.Machine

def exec (i : Instr) (s : State) : Host.Outcome State Fault Refusal :=
  match i with
  | .wrcfgN v => Sys2Proof.Machine.execWrcfgN v s
  | .wrcfgTs v => Sys2Proof.Machine.execWrcfgTs v s
  | .wrcfgRbs v => Sys2Proof.Machine.execWrcfgRbs v s
  | .wrcfgBeta x => Sys2Proof.Machine.execWrcfgBeta x s
  | .rdcfg r => Sys2Proof.Machine.execRdcfg r s
  | .rdstat => Sys2Proof.Machine.execRdstat s
  | .init => Sys2Proof.Machine.execInit s
  | .map b => Sys2Proof.Machine.execMap b s
  | .unpack v => Sys2Proof.Machine.execUnpack v s
  | .mod nb v => Sys2Proof.Machine.execMod nb v s
  | .modNb8 v => Sys2Proof.Machine.execModNb8 v s
  | .rdcoef p => Sys2Proof.Machine.execRdcoef p s
  | .wrcoef p c => Sys2Proof.Machine.execWrcoef p c s
  | .filter l payload => Sys2Proof.Machine.execFilter l payload s
  | .pushb v => Sys2Proof.Machine.execPushb v s
  | .flush => Sys2Proof.Machine.execFlush s

end Sys2Proof.Machine
end

