-- ==== Sys2Proof/Machine/Step.lean ====
section
/-! DEFINITION. One step of the block: the environment's next move, fetched, decoded and run (spec
00_scope.md R9, R14; 30_encoding.md R95, R97; 70_reset_and_hazards.md R240). -/

namespace Sys2Proof.Machine

/-- One step. With no move left the block waits, its state unchanged (R241). -/
def step (s : State) : Host.Outcome State Fault Refusal :=
  match fetch s with
  | .settled t => .next t
  | .run i t => exec i t
  | .refuse => .refused .malformedOperation

/-- The state in which the host's next move is the operation whose command word is `w`, with the payload of
zeros it calls for: nothing is fetched from a memory (R55), so this stands for the host issuing it. -/
def State.withFetchWord (s : State) (nbits w : Nat) : State :=
  { s with inbox := .op (tableCmd nbits w) (zeroPayload (tableCmd nbits w)) :: s.inbox }

end Sys2Proof.Machine
end

