-- ==== Sys2Proof/Ideal.lean ====
section
/-! DEFINITION. The real numbers the words stand for, correct rounding, and the ideal reading of the rules
over ℝ (spec 00_scope.md R15, R16, R19, R22). Statements speak of it; no file under Sys2Proof/Machine uses it, so the
machine stays the binary64 instance and stays computable. -/

namespace Sys2Proof.Ideal

open Sys2Proof.Machine

/-- The real number a finite word stands for (R15). -/
noncomputable def realValue (w : Word) : ℝ := (signedUnits w : ℝ) / 2 ^ 1074

/-- The smallest magnitude that rounds to an infinity: halfway between the largest finite number and `2¹⁰²⁴`. -/
noncomputable def overflowBound : ℝ := 2 ^ 1024 - 2 ^ 970

/-- `r` is the binary64 number nearest to `x`, ties to the word whose last fraction bit is zero, with
overflow to the infinity of the sign of `x` (R16). -/
def RoundsTo (x : ℝ) (r : Word) : Prop :=
  (|x| < overflowBound →
    isFinite r = true ∧
      (∀ c : Word, isFinite c = true → |realValue r - x| ≤ |realValue c - x|) ∧
      (∀ c : Word, isFinite c = true → realValue c ≠ realValue r →
        |realValue c - x| = |realValue r - x| → r.getLsbD 0 = false)) ∧
  (overflowBound ≤ |x| → isInf r = true ∧ (signBit r = true ↔ x < 0))

/-- `TRIG_CR`: both functions correctly rounded on finite arguments (R19). -/
def TrigCr (tr : Trig) : Prop :=
  ∀ x : Word, isFinite x = true →
    RoundsTo (Real.sin (realValue x)) (tr.sin x) ∧ RoundsTo (Real.cos (realValue x)) (tr.cos x)

/-- Within one unit in the last place: no other finite number lies between `x` and `r`, so the interval
between `r` and `x` is shorter than the gap to the neighbour beyond `x` (R19). -/
def WithinOneUlp (x : ℝ) (r : Word) : Prop :=
  isFinite r = true ∧
    ∀ c : Word, isFinite c = true →
      ¬ (realValue r < realValue c ∧ realValue c < x) ∧ ¬ (x < realValue c ∧ realValue c < realValue r)

/-- `TRIG_FAITHFUL`: both functions within one unit in the last place on finite arguments (R19). -/
def TrigFaithful (tr : Trig) : Prop :=
  ∀ x : Word, isFinite x = true →
    WithinOneUlp (Real.sin (realValue x)) (tr.sin x) ∧ WithinOneUlp (Real.cos (realValue x)) (tr.cos x)

/-! ### The ideal reading (R22) -/

/-- `PT[k]` over ℝ: `cos(π(2k+1)/4) + i·sin(π(2k+1)/4)` (R46, R124). -/
noncomputable def idealPoint (k : ℕ) : ℂ :=
  ⟨Real.cos (Real.pi * (2 * k + 1) / 4), Real.sin (Real.pi * (2 * k + 1) / 4)⟩

/-- Branch Z over ℝ (R132). -/
noncomputable def idealTapZ (β : ℝ) : ℝ := 1 + β * (4 / Real.pi - 1)

/-- Branch S over ℝ (R134). -/
noncomputable def idealTapS (β : ℝ) : ℝ :=
  β / Real.sqrt 2 *
    ((1 + 2 / Real.pi) * Real.sin (Real.pi / (4 * β)) + (1 - 2 / Real.pi) * Real.cos (Real.pi / (4 * β)))

/-- Branch G over ℝ (R135). -/
noncomputable def idealTapG (β Ts t : ℝ) : ℝ :=
  (Real.sin (Real.pi * t / Ts * (1 - β)) + 4 * β * t / Ts * Real.cos (Real.pi * t / Ts * (1 + β))) /
    (Real.pi * t / Ts * (1 - (4 * β * t / Ts) * (4 * β * t / Ts)))

open Classical in
/-- The tap at `t` over ℝ: the three branches in their order (R132 to R135). -/
noncomputable def idealTap (β Ts t : ℝ) : ℝ :=
  if t = 0 then idealTapZ β
  else if β ≠ 0 ∧ (t = Ts / (4 * β) ∨ t = -(Ts / (4 * β))) then idealTapS β
  else idealTapG β Ts t

end Sys2Proof.Ideal
end

