-- ==== Sys2Proof/Safety.lean ====
section
/-! DEFINITION. What counts as a good state and a good run, in the terms the statements use: the session
invariants (spec 10_state.md R56), the phase table (45_pipeline_control.md R185), runs of operations, and
the chunk-by-chunk use of the filter (44_fir_filter.md R172, R173). -/

namespace Sys2Proof.Machine

/-! ### The invariant -/

/-- In the closed interval [0, 1], either zero allowed (R44). -/
def inUnitInterval (w : Word) : Bool := !isNaN w && !ltF w zeroF && !ltF oneF w

/-- The configuration `INIT` accepts (R190). -/
abbrev LegalConfig (s : State) : Prop :=
  s.cfgN.toNat % 2 = 0 ∧ 2 ≤ s.cfgN.toNat ∧ s.cfgN.toNat ≤ nMax ∧
    1 ≤ s.cfgTs.toNat ∧ s.cfgTs.toNat ≤ tsMax ∧ 1 ≤ s.cfgRbs.toNat ∧ s.cfgRbs.toNat ≤ rbsMax

/-- No session: the memories hold no value and nothing is staged (R45, R51). -/
abbrev NoSession (s : State) : Prop := s.coef = none ∧ s.hist = none ∧ s.outq = []

/-- A session: the memories hold values of the configured lengths and the queue is below the threshold (R56). -/
abbrev OpenSession (s : State) : Prop :=
  LegalConfig s ∧ s.coef.isSome = true ∧ s.hist.isSome = true ∧ Memory.wf s = true ∧
    s.outq.length + 1 ≤ s.cfgRbs.toNat

/-- The invariant of every run: β in [0, 1] (R44), `FCODE ≠ 0` exactly in phase `FAULTED` (R45), no session in
`CONFIG` (R45, R51), a session in `RUN` (R56), and in `FAULTED` whichever of the two stood when the fault was
raised (R221). -/
abbrev BlockInv (s : State) : Prop :=
  inUnitInterval s.cfgBeta = true ∧
    (s.fcode ≠ none ↔ s.phase = .faulted) ∧
    (s.phase = .config → NoSession s) ∧
    (s.phase = .run → OpenSession s) ∧
    (s.phase = .faulted → NoSession s ∨ OpenSession s)

/-! ### The phase table -/

/-- Where an operation executes: the table of R185. -/
def legalIn (i : Instr) (p : Phase) : Bool :=
  match i with
  | .wrcfgN _ => p == .config
  | .wrcfgTs _ => p == .config
  | .wrcfgRbs _ => p == .config
  | .wrcfgBeta _ => p == .config
  | .rdcfg _ => p != .faulted
  | .rdstat => true
  | .init => p == .config
  | .map _ => p == .run
  | .unpack _ => p == .run
  | .mod _ _ => p == .run
  | .modNb8 _ => p == .run
  | .rdcoef _ => p == .run
  | .wrcoef _ _ => p == .run
  | .filter _ _ => p == .run
  | .pushb _ => p == .run
  | .flush => p == .run

/-- The command word `w` raises `ILLEGAL_OP` when the host issues it, in every phase (R95, R211). -/
def RaisesIllegalOp (w : Cmd) : Prop :=
  ∀ (s : State) (rest : List HostMove),
    s.inbox = .op w [] :: rest → step s = .next (raise .illegalOp { s with inbox := rest })

/-- The codes of the fault table (R210). -/
def codeOf : FaultCode → Nat
  | .illegalOp => 1
  | .badPhase => 2
  | .badConfig => 3
  | .oddBits => 4
  | .indexRange => 5
  | .chunkRange => 6
  | .divZero => 7

/-! ### Runs -/

/-- A finite sequence of operations, one after another, up to the first that has no next state. -/
def runAll : List Instr → State → Host.Outcome State Fault Refusal
  | [], s => .next s
  | i :: is, s =>
    match exec i s with
    | .next t => runAll is t
    | .fault r => .fault r
    | .refused r => .refused r

/-- A run ended cleanly (R194): phase `CONFIG` and no fault. -/
abbrev EndedCleanly (s : State) : Prop := s.phase = .config ∧ s.fcode = none

/-- The words the sink was sent, without their marks (R193: burst boundaries carry no meaning). -/
def sinkWords (s : State) : List Word := s.sink.map SinkWord.data

/-- The same value as words: equal, or both a NaN, since all NaNs are one value (R15). -/
abbrev sameValue (a b : Word) : Prop := a = b ∨ (isNaN a = true ∧ isNaN b = true)

/-! ### The filter used chunk by chunk (R172, R173) -/

/-- The chunks filtered one after another, the history carried from each to the next; the outputs are joined. -/
def firChunks (c : List Word) : List Sample → List (List Sample) → List Sample × List Sample
  | h, [] => ([], h)
  | h, xs :: chunks =>
    ((fir c h xs).1 ++ (firChunks c (fir c h xs).2 chunks).1, (firChunks c (fir c h xs).2 chunks).2)

/-- Sample `n − k` of the stream `x`, which is the complex zero before its start (R173). -/
def streamAt (x : List Sample) (n k : Nat) : Sample := if k ≤ n then x.getD (n - k) czero else czero

/-! ### Named properties of `SIN` and `COS` (R19) -/

/-- `TRIG_ODD_EVEN`: `SIN(−x) = −SIN(x)` and `COS(−x) = COS(x)`, as values. -/
def TrigOddEven (tr : Trig) : Prop :=
  ∀ x : Word, sameValue (tr.sin (negF x)) (negF (tr.sin x)) ∧ sameValue (tr.cos (negF x)) (tr.cos x)

/-- `TRIG_FINITE`: a finite argument gives a finite result in [−1, 1]. -/
def TrigFinite (tr : Trig) : Prop :=
  ∀ x : Word, isFinite x = true →
    (isFinite (tr.sin x) = true ∧ magBits (tr.sin x) ≤ magBits oneF) ∧
      (isFinite (tr.cos x) = true ∧ magBits (tr.cos x) ≤ magBits oneF)

end Sys2Proof.Machine
end

