-- ==== Sys2Proof/Certificates/Slice0/Obligations.lean ====
section
/-! DEFINITION. The statements for the provers. Each docstring names the rule of the spec it formalises, or says
that a clause is the model's choice and where the log says so. Two fields of `State` are the model's own: `inbox`
(log entry 1) and `freeCtr` (log entry 2); a statement holds for every value of them. -/

open Sys2Proof Sys2Proof.Machine Sys2Proof.Ideal

/-! ### Reset -/

/-- R57: the state after reset, every piece the spec gives, and the constant file `PT` (R46). -/
def Obligations.ResetLeavesDefaults : Prop :=
  State.reset.cfgN = 20#24 ∧ State.reset.cfgTs = 4#24 ∧ State.reset.cfgRbs = 1024#24 ∧
    State.reset.cfgBeta = 0x3FD0000000000000#64 ∧ State.reset.phase = .config ∧
    State.reset.fcode = none ∧ State.reset.outq = [] ∧ statusWord State.reset = 0#32 ∧
    State.reset.coef = none ∧ State.reset.hist = none ∧
    ∀ k : Fin 4,
      constellation k =
        ⟨hwTrig.cos (divF (mulF piF (ofIntF (2 * (k : Nat) + 1))) (ofIntF 4)),
          hwTrig.sin (divF (mulF piF (ofIntF (2 * (k : Nat) + 1))) (ofIntF 4))⟩

/-- R240, R241: a `RESET` between two operations restores the reset state from any state. That the
environment's further moves stay, that the counter of free values goes on, and that a step without a move
waits are the model's choice (log entries 1 and 2). -/
def Obligations.ResetMoveRestoresTheResetState : Prop :=
  ∀ (s : State) (rest : List HostMove),
    (s.inbox = .reset :: rest →
      step s = .next { State.reset with inbox := rest, freeCtr := s.freeCtr }) ∧
    (s.inbox = [] → step s = .next s)

/-! ### Encoding -/

/-- The examples of 30_encoding.md section 8, legal and illegal words. -/
def Obligations.KnownWordsDecode : Prop :=
  decode 0x10000014#32 [] = .ok (.wrcfgN 20#24) ∧ decode 0x11000004#32 [] = .ok (.wrcfgTs 4#24) ∧
    decode 0x12000400#32 [] = .ok (.wrcfgRbs 1024#24) ∧
    decode 0x13000000#32 [0x3FD0000000000000#64] = .ok (.wrcfgBeta 0x3FD0000000000000#64) ∧
    decode 0x23000000#32 [] = .ok (.rdcfg .beta) ∧ decode 0x30000000#32 [] = .ok .rdstat ∧
    decode 0x40000000#32 [] = .ok .init ∧ decode 0x50000002#32 [] = .ok (.map 2#2) ∧
    decode 0x600000E4#32 [] = .ok (.unpack 0xE4#8) ∧ decode 0x780000E4#32 [] = .ok (.modNb8 0xE4#8) ∧
    decode 0x730000E4#32 [] = .ok (.mod 3#3 0xE4#8) ∧ decode 0x8000000A#32 [] = .ok (.rdcoef 10#24) ∧
    decode 0x90000000#32 [0x3FF0000000000000#64] = .ok (.wrcoef 0#24 0x3FF0000000000000#64) ∧
    decode 0xA0000001#32 [0x3FF0000000000000#64, 0xC000000000000000#64] =
      .ok (.filter 1#24 [0x3FF0000000000000#64, 0xC000000000000000#64]) ∧
    decode 0xB00000E4#32 [] = .ok (.pushb 0xE4#8) ∧ decode 0xC0000000#32 [] = .ok .flush ∧
    decode 0x00000000#32 [] = .error .reservedOpcode ∧ decode 0x40000001#32 [] = .error .mustBeZero ∧
    decode 0x790000E4#32 [] = .error .badOperandField ∧ decode 0xB00001E4#32 [] = .error .mustBeZero ∧
    decode 0x24000000#32 [] = .error .badOperandField

/-- R94, R97: every well-formed operation, with every value of its operands, is what its encoding decodes to. -/
def Obligations.DecodeOfEncode : Prop :=
  ∀ i : Instr, i.wellFormed = true → decode (encode i).1 (encode i).2 = .ok i

/-- R95, R97: what decodes is well formed and has the one encoding it was decoded from. -/
def Obligations.EncodeOfDecode : Prop :=
  ∀ (w : Cmd) (ps : List Word) (i : Instr),
    decode w ps = .ok i → encode i = (w, ps) ∧ i.wellFormed = true

/-- R95: the decoder accepts a command word exactly when it matches a row of the opcode table, as an operation
of that row, and no word matches two rows. -/
def Obligations.DecoderAcceptsExactlyTheTableRows : Prop :=
  (∀ w : Cmd, (∃ i, decodeCmd w = .ok i) ↔ ∃ r ∈ opcodeRows, w &&& r.mask = r.pattern) ∧
    (∀ (w : Cmd) (i : Instr), decodeCmd w = .ok i → w &&& (rowOf i).mask = (rowOf i).pattern) ∧
    (∀ w : Cmd, ∀ r ∈ opcodeRows, ∀ q ∈ opcodeRows,
      w &&& r.mask = r.pattern → w &&& q.mask = q.pattern → r = q)

/-- R96: which command words are illegal, from the fields `OPC`, `A` and `IMM`. An odd bit count is none. -/
def Obligations.IllegalWordsAreTheReservedOnes : Prop :=
  ∀ w : Cmd,
    (∃ e, decodeCmd w = .error e) ↔
      (w.extractLsb' 28 4 ∈ [0#4, 13#4, 14#4, 15#4]) ∨
      (w.extractLsb' 28 4 ∈ [3#4, 4#4, 5#4, 6#4, 8#4, 9#4, 10#4, 11#4, 12#4] ∧ w.extractLsb' 24 4 ≠ 0#4) ∨
      (w.extractLsb' 28 4 ∈ [1#4, 2#4] ∧ 3 < (w.extractLsb' 24 4).toNat) ∨
      (w.extractLsb' 28 4 = 7#4 ∧ 8 < (w.extractLsb' 24 4).toNat) ∨
      (w.extractLsb' 28 4 = 1#4 ∧ w.extractLsb' 24 4 = 3#4 ∧ w.extractLsb' 0 24 ≠ 0#24) ∨
      (w.extractLsb' 28 4 ∈ [2#4, 3#4, 4#4, 12#4] ∧ w.extractLsb' 0 24 ≠ 0#24) ∨
      (w.extractLsb' 28 4 = 5#4 ∧ 4 ≤ (w.extractLsb' 0 24).toNat) ∨
      (w.extractLsb' 28 4 ∈ [6#4, 7#4, 11#4] ∧ 256 ≤ (w.extractLsb' 0 24).toNat)

/-! ### Steps -/

/-- R9, R78, R95: a step takes the host's next operation and runs exactly what its pair decodes to. -/
def Obligations.StepRunsTheDecodedOperation : Prop :=
  ∀ (s : State) (w : Cmd) (ps : List Word) (rest : List HostMove) (i : Instr),
    s.inbox = .op w ps :: rest → decode w ps = .ok i → step s = exec i { s with inbox := rest }

/-- R211: an illegal command word raises `ILLEGAL_OP` in every phase, `FAULTED` included; it calls for no
payload word, and none is consumed. -/
def Obligations.IllegalWordFaultsInEveryPhase : Prop :=
  ∀ (s : State) (w : Cmd) (rest : List HostMove) (e : DecodeError),
    s.inbox = .op w [] :: rest → decodeCmd w = .error e →
      step s = .next (raise .illegalOp { s with inbox := rest })

/-- R97: a pair whose payload does not have the length the command word calls for is refused; an illegal
command word calls for none (R93). -/
def Obligations.MalformedPairIsRefused : Prop :=
  ∀ (s : State) (w : Cmd) (ps : List Word) (rest : List HostMove),
    s.inbox = .op w ps :: rest →
      (∀ i, decodeCmd w = .ok i → ps.length ≠ i.payloadWords) →
      (∀ e, decodeCmd w = .error e → ps ≠ []) →
      step s = .refused .malformedOperation

/-- Which states, that no run reaches, and which pair, that no decoder makes, stop a meaning: a memory without a value
refuses (R51, U10), a payload of another length than `2·L` refuses (R97), memories of the wrong lengths fault (R218 (b);
U2 calls them not representable, and that the model's stop there is a fault and no refusal is the model's choice, log
entry 7; so are the names of the three stops, log entries 6, 7 and 18). From a state of the invariant every well-formed
operation has a next state. -/
def Obligations.MeaningsStopOnlyOutsideTheSpec : Prop :=
  (∀ (i : Instr) (s : State), i.wellFormed = true → BlockInv s → ∃ t, exec i s = .next t) ∧
  ∀ (s : State) (p : Imm) (x : Word) (v : Byte) (l : Imm) (ps : List Word),
    (ps.length ≠ 2 * l.toNat → exec (.filter l ps) s = .refused .malformedOperation) ∧
    (s.phase = .run → ps.length = 2 * l.toNat → l.toNat ≤ lMax → p.toNat < s.cfgN.toNat →
      (s.coef = none →
        exec (.rdcoef p) s = .refused .noValue ∧ exec (.wrcoef p x) s = .refused .noValue ∧
          exec (.filter l ps) s = .refused .noValue ∧ exec (.pushb v) s = .refused .noValue) ∧
      (∀ c, s.coef = some c → c.length ≠ s.cfgN.toNat →
        exec (.rdcoef p) s = .fault .sizeMismatch ∧ exec (.wrcoef p x) s = .fault .sizeMismatch ∧
          exec (.filter l ps) s = .fault .sizeMismatch ∧ exec (.pushb v) s = .fault .sizeMismatch) ∧
      (∀ c, s.coef = some c → c.length = s.cfgN.toNat →
        (s.hist = none →
          exec (.filter l ps) s = .refused .noValue ∧ exec (.pushb v) s = .refused .noValue) ∧
        (∀ h, s.hist = some h → h.length + 1 ≠ s.cfgN.toNat →
          exec (.filter l ps) s = .fault .sizeMismatch ∧ exec (.pushb v) s = .fault .sizeMismatch)))

/-! ### Faults -/

/-- R221 with the codes of R210: in phase `CONFIG` or `RUN` a fault writes `FCODE` and `PHASE` and answers its
code with no result word; nothing else of the state changes. -/
def Obligations.FaultEntryWritesOnlyStatus : Prop :=
  ∀ (f : FaultCode) (s : State), s.phase ≠ .faulted →
    raise f s =
      { s with
        phase := .faulted
        fcode := some f
        rsp := s.rsp ++
          [match f with
            | .illegalOp => 1#32
            | .badPhase => 2#32
            | .badConfig => 3#32
            | .oddBits => 4#32
            | .indexRange => 5#32
            | .chunkRange => 6#32
            | .divZero => 7#32] }

/-- R221: whatever operation faults, the state after it is the state before but for the two `STATUS` fields and
the response, whose `CODE` is the fault's (R210) and whose `NW` and reserved bits are zero (R101). -/
def Obligations.FaultsArePrecise : Prop :=
  ∀ (i : Instr) (s t : State),
    exec i s = .next t → s.phase ≠ .faulted → t.phase = .faulted →
      ∃ f : FaultCode,
        t =
          { s with
            phase := .faulted
            fcode := some f
            rsp := s.rsp ++ [BitVec.ofNat 32 (codeOf f)] }

/-- R222: in phase `FAULTED` every operation but `RDSTAT` is answered by `BAD_PHASE`, an illegal word by
`ILLEGAL_OP`, `RDSTAT` executes, and nothing but the channels changes. -/
def Obligations.FaultedPhaseAnswersOnlyStatus : Prop :=
  ∀ (s : State) (w : Cmd) (ps : List Word) (rest : List HostMove),
    s.phase = .faulted → s.inbox = .op w ps :: rest →
      (∀ i, decode w ps = .ok i → i ≠ .rdstat →
        step s = .next { s with inbox := rest, rsp := s.rsp ++ [2#32] }) ∧
      (decode w ps = .ok .rdstat →
        step s = .next
          { s with
            inbox := rest
            rsp := s.rsp ++ [0x100#32]
            rdata := s.rdata ++ [(statusWord s).setWidth 64] }) ∧
      (∀ e, decodeCmd w = .error e → ps = [] →
        step s = .next { s with inbox := rest, rsp := s.rsp ++ [1#32] })

/-- R223: `FAULTED` is left only by `RESET`; until then the first fault's code and all the block holds stay. That
`RESET` keeps the environment's further moves and the counter of free values is the model's choice (log entries 1
and 2). -/
def Obligations.FaultedIsLeftOnlyByReset : Prop :=
  ∀ s t : State, s.phase = .faulted → step s = .next t →
    (∃ rest, s.inbox = .reset :: rest ∧
        t = { State.reset with inbox := rest, freeCtr := s.freeCtr }) ∨
      (t.phase = .faulted ∧ t.fcode = s.fcode ∧ t.cfgN = s.cfgN ∧ t.cfgTs = s.cfgTs ∧
        t.cfgRbs = s.cfgRbs ∧ t.cfgBeta = s.cfgBeta ∧ t.coef = s.coef ∧ t.hist = s.hist ∧
        t.outq = s.outq ∧ t.sink = s.sink)

/-- R45: the phase is written by `INIT` (`CONFIG` to `RUN`), by `FLUSH` (`RUN` to `CONFIG`) and by a fault. -/
def Obligations.PhaseMovesOnlyByInitFlushAndFaults : Prop :=
  ∀ (i : Instr) (s t : State), exec i s = .next t →
    t.phase = s.phase ∨ t.phase = .faulted ∨
      (i = .init ∧ s.phase = .config ∧ t.phase = .run) ∨
      (i = .flush ∧ s.phase = .run ∧ t.phase = .config)

/-- R185, R212: where the phase table says "no" the operation raises `BAD_PHASE`, before any other check of it
(R220); where it says "yes" the response is never `BAD_PHASE`. -/
def Obligations.PhaseTableDecidesBadPhase : Prop :=
  ∀ (i : Instr) (s : State), i.wellFormed = true →
    (legalIn i s.phase = false → exec i s = .next (raise .badPhase s)) ∧
    (legalIn i s.phase = true → ∀ t, exec i s = .next t → t.rsp ≠ s.rsp ++ [2#32])

/-! ### Invariant -/

/-- The invariant holds after reset. -/
def Obligations.InvHoldsAtReset : Prop := BlockInv State.reset

/-- R44, R45, R51, R56: every step keeps the invariant, from every state that has it. -/
def Obligations.InvIsKeptByEveryStep : Prop :=
  ∀ s t : State, BlockInv s → step s = .next t → BlockInv t

/-! ### Configuration and status -/

/-- R186: `WRCFG` of an integer register stores any 24-bit value in phase `CONFIG` and answers OK without a
result; in another phase it raises `BAD_PHASE`. Nothing else changes. -/
def Obligations.WrcfgStoresAnyInteger : Prop :=
  ∀ (v : Imm) (s : State),
    (s.phase = .config →
      exec (.wrcfgN v) s = .next { s with cfgN := v, rsp := s.rsp ++ [0#32] } ∧
        exec (.wrcfgTs v) s = .next { s with cfgTs := v, rsp := s.rsp ++ [0#32] } ∧
        exec (.wrcfgRbs v) s = .next { s with cfgRbs := v, rsp := s.rsp ++ [0#32] }) ∧
    (s.phase ≠ .config →
      exec (.wrcfgN v) s = .next (raise .badPhase s) ∧ exec (.wrcfgTs v) s = .next (raise .badPhase s) ∧
        exec (.wrcfgRbs v) s = .next (raise .badPhase s)) ∧
    encode (.wrcfgN v) = (0x10#8 ++ v, []) ∧ encode (.wrcfgTs v) = (0x11#8 ++ v, []) ∧
    encode (.wrcfgRbs v) = (0x12#8 ++ v, []) ∧
    ∀ w : Cmd, opcField w = 1#4 → 3 < (aField w).toNat → RaisesIllegalOp w

/-- R187: `WRCFG BETA` stores the clamp of its payload word, faults on a NaN, and its corner cases. -/
def Obligations.WrcfgBetaStoresTheClamp : Prop :=
  ∀ (x : Word) (s : State),
    (s.phase = .config →
      (isNaN x = true → exec (.wrcfgBeta x) s = .next (raise .badConfig s)) ∧
      (isNaN x = false →
        exec (.wrcfgBeta x) s =
          .next
            { s with
              cfgBeta :=
                if ltF x 0#64 = true then 0#64
                else if ltF 0x3FF0000000000000#64 x = true then 0x3FF0000000000000#64
                else x
              rsp := s.rsp ++ [0#32] })) ∧
    (s.phase ≠ .config → exec (.wrcfgBeta x) s = .next (raise .badPhase s)) ∧
    encode (.wrcfgBeta x) = (0x13000000#32, [x]) ∧
    (∀ w : Cmd, opcField w = 1#4 → aField w = 3#4 → immField w ≠ 0#24 → RaisesIllegalOp w) ∧
    clamp01 0x8000000000000000#64 = 0x8000000000000000#64 ∧
    clamp01 0x7FF0000000000000#64 = 0x3FF0000000000000#64 ∧ clamp01 0xFFF0000000000000#64 = 0#64

/-- R188: `RDCFG` returns the register, zero-extended, in `CONFIG` and `RUN`; it writes no state (R77). -/
def Obligations.RdcfgReadsTheRegister : Prop :=
  ∀ s : State,
    (s.phase ≠ .faulted →
      exec (.rdcfg .n) s =
          .next { s with rsp := s.rsp ++ [0x100#32], rdata := s.rdata ++ [s.cfgN.setWidth 64] } ∧
        exec (.rdcfg .ts) s =
          .next { s with rsp := s.rsp ++ [0x100#32], rdata := s.rdata ++ [s.cfgTs.setWidth 64] } ∧
        exec (.rdcfg .rbs) s =
          .next { s with rsp := s.rsp ++ [0x100#32], rdata := s.rdata ++ [s.cfgRbs.setWidth 64] } ∧
        exec (.rdcfg .beta) s =
          .next { s with rsp := s.rsp ++ [0x100#32], rdata := s.rdata ++ [s.cfgBeta] }) ∧
    (s.phase = .faulted → ∀ r, exec (.rdcfg r) s = .next (raise .badPhase s)) ∧
    encode (.rdcfg .n) = (0x20000000#32, []) ∧ encode (.rdcfg .ts) = (0x21000000#32, []) ∧
    encode (.rdcfg .rbs) = (0x22000000#32, []) ∧ encode (.rdcfg .beta) = (0x23000000#32, []) ∧
    ∀ w : Cmd, opcField w = 2#4 → 3 < (aField w).toNat ∨ immField w ≠ 0#24 → RaisesIllegalOp w

/-- R189: `RDSTAT` executes in every phase and returns `OUTCNT`, `FCODE` and `PHASE`; it writes no state, and
does not clear `FCODE`. -/
def Obligations.RdstatReportsTheStatus : Prop :=
  ∀ s : State,
    (∃ w : Word,
      exec .rdstat s = .next { s with rsp := s.rsp ++ [0x100#32], rdata := s.rdata ++ [w] } ∧
        w.toNat =
          s.outq.length % 2 ^ 24 * 256 +
            (match s.fcode with
              | none => 0
              | some .illegalOp => 1
              | some .badPhase => 2
              | some .badConfig => 3
              | some .oddBits => 4
              | some .indexRange => 5
              | some .chunkRange => 6
              | some .divZero => 7) * 16 +
            (match s.phase with
              | .config => 0
              | .run => 1
              | .faulted => 2)) ∧
    encode .rdstat = (0x30000000#32, [])

/-! ### Sessions -/

/-- R190: `INIT`, its checks in order and the session it opens. The free words that NaN taps are stored in, and the
step of their counter, are the model's choice (log entry 2). -/
def Obligations.InitOpensASession : Prop :=
  ∀ s : State,
    (s.phase ≠ .config → exec .init s = .next (raise .badPhase s)) ∧
    (s.phase = .config →
      (s.cfgN.toNat % 2 = 1 ∨ s.cfgN.toNat < 2 ∨ nMax < s.cfgN.toNat →
        exec .init s = .next (raise .badConfig s)) ∧
      (s.cfgTs.toNat < 1 ∨ tsMax < s.cfgTs.toNat → exec .init s = .next (raise .badConfig s)) ∧
      (s.cfgRbs.toNat < 1 ∨ rbsMax < s.cfgRbs.toNat → exec .init s = .next (raise .badConfig s)) ∧
      (LegalConfig s →
        (rrc hwTrig s.cfgBeta s.cfgN.toNat s.cfgTs.toNat = none →
          exec .init s = .next (raise .divZero s)) ∧
        (∀ taps, rrc hwTrig s.cfgBeta s.cfgN.toNat s.cfgTs.toNat = some taps →
          exec .init s =
            .next
              { s with
                coef := some (deliverWords s.freeCtr taps)
                hist := some (List.replicate (s.cfgN.toNat - 1) ⟨0#64, 0#64⟩)
                outq := []
                phase := .run
                rsp := s.rsp ++ [0#32]
                freeCtr := s.freeCtr + taps.length }))) ∧
    encode .init = (0x40000000#32, []) ∧
    ∀ w : Cmd, opcField w = 4#4 → w ≠ 0x40000000#32 → RaisesIllegalOp w

/-- R191: `PUSHB` sends one byte through unpacker, modulator and filter; the queue goes to the sink whole when it
holds `RBS` samples or more, and a queue that began below `RBS` stays below `RBS + 4·Ts`. The free words of NaN samples,
and the step of their counter, are the model's choice (log entry 2). -/
def Obligations.PushbRunsThePipeline : Prop :=
  ∀ (v : Byte) (s : State),
    (s.phase ≠ .run → exec (.pushb v) s = .next (raise .badPhase s)) ∧
    (∀ (c : List Word) (h chips q : List Sample),
      s.phase = .run → s.coef = some c → c.length = s.cfgN.toNat → s.hist = some h →
      h.length + 1 = s.cfgN.toNat →
      chips = modulate constellation (unpackBits v) s.cfgTs.toNat →
      q = s.outq ++ deliverSamples s.freeCtr (fir c h chips).1 →
      (s.outq.length < s.cfgRbs.toNat → q.length < s.cfgRbs.toNat + 4 * s.cfgTs.toNat) ∧
      (s.cfgRbs.toNat ≤ q.length →
        exec (.pushb v) s =
          .next
            { s with
              hist := some (fir c h chips).2
              outq := []
              sink := s.sink ++ markLast (wordsOf q)
              rsp := s.rsp ++ [0#32]
              freeCtr := s.freeCtr + 2 * chips.length }) ∧
      (q.length < s.cfgRbs.toNat →
        exec (.pushb v) s =
          .next
            { s with
              hist := some (fir c h chips).2
              outq := q
              rsp := s.rsp ++ [0#32]
              freeCtr := s.freeCtr + 2 * chips.length })) ∧
    encode (.pushb v) = (0xB00000#24 ++ v, []) ∧
    ∀ w : Cmd, opcField w = 11#4 → aField w ≠ 0#4 ∨ 256 ≤ (immField w).toNat → RaisesIllegalOp w

/-- R192: `FLUSH` sends what is staged as one burst, none if nothing is, ends the session and keeps the
configuration. -/
def Obligations.FlushEndsTheSession : Prop :=
  ∀ s : State,
    (s.phase ≠ .run → exec .flush s = .next (raise .badPhase s)) ∧
    (s.phase = .run →
      exec .flush s =
        .next
          { s with
            sink := s.sink ++ markLast (wordsOf s.outq)
            outq := []
            coef := none
            hist := none
            phase := .config
            rsp := s.rsp ++ [0#32] }) ∧
    markLast (wordsOf []) = [] ∧ encode .flush = (0xC0000000#32, []) ∧
    ∀ w : Cmd, opcField w = 12#4 → w ≠ 0xC0000000#32 → RaisesIllegalOp w

/-- R49, R191: at the end of `PUSHB` the queue is below the threshold, and a burst has from `RBS` to
`RBS − 1 + 4·Ts` samples. -/
def Obligations.PushbBoundsTheQueue : Prop :=
  ∀ (v : Byte) (s t : State), BlockInv s → s.phase = .run → exec (.pushb v) s = .next t →
    (∃ q : List Sample, t.outq = [] ∧ t.sink = s.sink ++ markLast (wordsOf q) ∧
        s.cfgRbs.toNat ≤ q.length ∧ q.length + 1 ≤ s.cfgRbs.toNat + 4 * s.cfgTs.toNat ∧
        q.length = s.outq.length + 4 * s.cfgTs.toNat) ∨
      (t.sink = s.sink ∧ t.outq.length + 1 ≤ s.cfgRbs.toNat ∧
        t.outq.length = s.outq.length + 4 * s.cfgTs.toNat)

/-! ### Mapper, unpacker, modulator -/

/-- R122 with the table of R103: the four bit pairs and their points; no state is written. -/
def Obligations.MapReturnsThePoint : Prop :=
  ∀ s : State,
    (s.phase = .run →
      ∀ p ∈ [(3#2, (0 : Fin 4)), (1#2, 1), (0#2, 2), (2#2, 3)],
        exec (.map p.1) s =
          .next
            { s with
              rsp := s.rsp ++ [0x200#32]
              rdata := s.rdata ++ [(constellation p.2).re, (constellation p.2).im] }) ∧
    (s.phase ≠ .run → ∀ b, exec (.map b) s = .next (raise .badPhase s)) ∧
    (∀ b : BitVec 2, encode (.map b) = (0x50000000#32 ||| b.setWidth 32, [])) ∧
    ∀ w : Cmd, opcField w = 5#4 → aField w ≠ 0#4 ∨ 4 ≤ (immField w).toNat → RaisesIllegalOp w

/-- R151: eight words, one for each bit of the byte, the most significant first; no state is written. -/
def Obligations.UnpackReturnsEightBits : Prop :=
  ∀ (v : Byte) (s : State),
    (s.phase = .run →
      exec (.unpack v) s =
        .next
          { s with
            rsp := s.rsp ++ [0x800#32]
            rdata := s.rdata ++
              [7, 6, 5, 4, 3, 2, 1, 0].map fun j => (v.extractLsb' j 1).setWidth 64 }) ∧
    (s.phase ≠ .run → exec (.unpack v) s = .next (raise .badPhase s)) ∧
    encode (.unpack v) = (0x600000#24 ++ v, []) ∧
    ∀ w : Cmd, opcField w = 6#4 → aField w ≠ 0#4 ∨ 256 ≤ (immField w).toNat → RaisesIllegalOp w

/-- R157, R158: `MOD` returns the points of the first `nb` bits, each repeated `Ts` times, or raises `ODD_BITS`
before any pair is mapped; no state of the spec is written. From `2²⁴` result words on `respond` gives a free `NW` and
steps the counter of free values: the model's choice (log entry 3). -/
def Obligations.ModReturnsTheChips : Prop :=
  ∀ (nb : BitVec 3) (v : Byte) (s : State) (chips : Nat → List Sample),
    (∀ m, chips m =
      (List.range m).flatMap fun q =>
        List.replicate s.cfgTs.toNat
          (constellation (pointIndex (v.getLsbD (7 - 2 * q)) (v.getLsbD (6 - 2 * q))))) →
    (s.phase = .run →
      (nb.toNat % 2 = 1 → exec (.mod nb v) s = .next (raise .oddBits s)) ∧
      (nb.toNat % 2 = 0 → exec (.mod nb v) s = .next (respond (wordsOf (chips (nb.toNat / 2))) s)) ∧
      exec (.modNb8 v) s = .next (respond (wordsOf (chips 4)) s)) ∧
    (s.phase ≠ .run →
      exec (.mod nb v) s = .next (raise .badPhase s) ∧ exec (.modNb8 v) s = .next (raise .badPhase s)) ∧
    encode (.mod nb v) = (7#4 ++ (0#1 ++ nb) ++ 0#16 ++ v, []) ∧
    encode (.modNb8 v) = (0x780000#24 ++ v, []) ∧
    ∀ w : Cmd, opcField w = 7#4 → 8 < (aField w).toNat ∨ 256 ≤ (immField w).toNat → RaisesIllegalOp w

/-- R150: element `j` of the expansion is bit `7 − j` of the byte, and there are always eight. -/
def Obligations.UnpackBitsAreMostSignificantFirst : Prop :=
  ∀ v : Byte, (unpackBits v).length = 8 ∧ ∀ j < 8, (unpackBits v)[j]? = some (v.getLsbD (7 - j))

/-- R155, R156: element `n` of the modulator's output is the point of the pair number `n / Ts`, and there are
`Ts` of each pair. -/
def Obligations.ModulateRepeatsEachPoint : Prop :=
  ∀ (pt : Fin 4 → Sample) (bits : List Bool) (ts : Nat), bits.length % 2 = 0 →
    (modulate pt bits ts).length = bits.length / 2 * ts ∧
      ∀ n < bits.length / 2 * ts,
        ∃ first second, bits[2 * (n / ts)]? = some first ∧ bits[2 * (n / ts) + 1]? = some second ∧
          (modulate pt bits ts)[n]? = some (pt (pointIndex first second))

/-! ### Coefficients -/

/-- R140: `RDCOEF` returns the tap, or raises `INDEX_RANGE`; it writes no state. -/
def Obligations.RdcoefReadsTheTap : Prop :=
  ∀ (p : Imm) (s : State),
    (s.phase ≠ .run → exec (.rdcoef p) s = .next (raise .badPhase s)) ∧
    (s.phase = .run → s.cfgN.toNat ≤ p.toNat → exec (.rdcoef p) s = .next (raise .indexRange s)) ∧
    (∀ (cs : List Word) (w : Word), s.phase = .run → s.coef = some cs → cs.length = s.cfgN.toNat →
      p.toNat < s.cfgN.toNat → cs[p.toNat]? = some w →
      exec (.rdcoef p) s = .next { s with rsp := s.rsp ++ [0x100#32], rdata := s.rdata ++ [w] }) ∧
    encode (.rdcoef p) = (0x80#8 ++ p, []) ∧
    ∀ w : Cmd, opcField w = 8#4 → aField w ≠ 0#4 → RaisesIllegalOp w

/-- R141: `WRCOEF` stores its payload word in the tap and nowhere else, or raises `INDEX_RANGE`. -/
def Obligations.WrcoefWritesTheTap : Prop :=
  ∀ (p : Imm) (w : Word) (s : State),
    (s.phase ≠ .run → exec (.wrcoef p w) s = .next (raise .badPhase s)) ∧
    (s.phase = .run → s.cfgN.toNat ≤ p.toNat → exec (.wrcoef p w) s = .next (raise .indexRange s)) ∧
    (∀ cs : List Word, s.phase = .run → s.coef = some cs → cs.length = s.cfgN.toNat →
      p.toNat < s.cfgN.toNat →
      ∃ cs' : List Word,
        exec (.wrcoef p w) s = .next { s with coef := some cs', rsp := s.rsp ++ [0#32] } ∧
          cs'.length = cs.length ∧ cs'[p.toNat]? = some w ∧ ∀ k, k ≠ p.toNat → cs'[k]? = cs[k]?) ∧
    encode (.wrcoef p w) = (0x90#8 ++ p, [w]) ∧
    ∀ x : Cmd, opcField x = 9#4 → aField x ≠ 0#4 → RaisesIllegalOp x

/-- R140 ("the word last written"), R81: after `WRCOEF p, w`, `RDCOEF q` returns `w` for `q = p` and what it
returned before for any other tap. -/
def Obligations.RdcoefReturnsTheWordLastWritten : Prop :=
  ∀ (p q : Imm) (w old : Word) (s t u : State), q.toNat < s.cfgN.toNat →
    exec (.rdcoef q) s = .next u → u.rdata = s.rdata ++ [old] →
    exec (.wrcoef p w) s = .next t → t.phase = .run →
      exec (.rdcoef q) t =
        .next { t with rsp := t.rsp ++ [0x100#32], rdata := t.rdata ++ [if q = p then w else old] }

/-- R130 to R137: `RRC` gives one tap for each index, or `DIV_ZERO` if one has none. The tap of index `p`, with
`t = p − N/2`: branch Z at `t = 0`; branch S where β is no zero and `t` equals `±Ts / (4·β)`; branch G elsewhere, and it alone
has none, exactly where its denominator is a zero. Each branch is written out with the words of the constants (R18), and
the tap at `t = 0` is 1 for a zero β. -/
def Obligations.RrcComputesTapByTap : Prop :=
  ∀ (tr : Trig) (beta : Word) (n ts : Nat),
    (∀ taps, rrc tr beta n ts = some taps →
      taps.length = n ∧ ∀ p < n, tapAt tr beta n ts p = taps[p]?) ∧
    (rrc tr beta n ts = none ↔ ∃ p < n, tapAt tr beta n ts p = none) ∧
    (∀ (p : Nat) (t : Int) (four_beta t1 x u v pts bt num den : Word), t = (p : Int) - (n / 2 : Nat) →
      four_beta = mulF 0x4010000000000000#64 beta → t1 = divF (ofIntF ts) four_beta →
      x = divF 0x400921FB54442D18#64 four_beta →
      u = mulF (addF 0x3FF0000000000000#64 (divF 0x4000000000000000#64 0x400921FB54442D18#64)) (tr.sin x) →
      v = mulF (subF 0x3FF0000000000000#64 (divF 0x4000000000000000#64 0x400921FB54442D18#64)) (tr.cos x) →
      pts = divF (mulF 0x400921FB54442D18#64 (ofIntF t)) (ofIntF ts) →
      bt = divF (mulF four_beta (ofIntF t)) (ofIntF ts) →
      num = addF (tr.sin (mulF pts (subF 0x3FF0000000000000#64 beta)))
        (mulF bt (tr.cos (mulF pts (addF 0x3FF0000000000000#64 beta)))) →
      den = mulF pts (subF 0x3FF0000000000000#64 (mulF bt bt)) →
        tapAt tr beta n ts p =
          if t = 0 then
            some (addF 0x3FF0000000000000#64
              (mulF beta (subF (divF 0x4010000000000000#64 0x400921FB54442D18#64) 0x3FF0000000000000#64)))
          else if isZero beta = false ∧ (eqF (ofIntF t) t1 = true ∨ eqF (ofIntF t) (negF t1) = true) then
            some (mulF (divF beta 0x3FF6A09E667F3BCD#64) (addF u v))
          else if isZero den = true then none
          else some (divF num den)) ∧
    divF 0x4010000000000000#64 0x400921FB54442D18#64 = 0x3FF45F306DC9C883#64 ∧
    subF 0x3FF45F306DC9C883#64 0x3FF0000000000000#64 = 0x3FD17CC1B727220C#64 ∧
    divF 0x4000000000000000#64 0x400921FB54442D18#64 = 0x3FE45F306DC9C883#64 ∧
    addF 0x3FF0000000000000#64 0x3FE45F306DC9C883#64 = 0x3FFA2F9836E4E442#64 ∧
    subF 0x3FF0000000000000#64 0x3FE45F306DC9C883#64 = 0x3FD7419F246C6EFA#64 ∧
    (isZero beta = true → tapAt tr beta n ts (n / 2) = some 0x3FF0000000000000#64)

/-- R135, R139 (a): for a zero β every tap with `t ≠ 0` is `SIN(pts) / pts`, bit for bit, provided `SIN(pts)` is not
itself a zero and `COS(pts)` is finite (`TRIG_FINITE` at that argument). -/
def Obligations.RrcWithBetaZeroIsSinc : Prop :=
  ∀ (tr : Trig) (beta pts : Word) (n ts p : Nat),
    isZero beta = true → n % 2 = 0 → n < 2 ^ 24 → 1 ≤ ts → ts < 2 ^ 24 → p < n → p ≠ n / 2 →
    pts = divF (mulF piF (ofIntF ((p : Int) - (n / 2 : Nat)))) (ofIntF ts) →
    isZero (tr.sin pts) = false → isFinite (tr.cos pts) = true →
      tapAt tr beta n ts p = some (divF (tr.sin pts) pts)

/-- R139 (b): with odd `SIN` and even `COS`, `tap[p]` and `tap[N − p]` are the same number (`+0` and `−0` are the same
number, R17), or both are no number, or both raise `DIV_ZERO`. Reading the rule's "exact" as equality of numbers is log
entry 12's. -/
def Obligations.RrcIsSymmetric : Prop :=
  ∀ (tr : Trig) (beta : Word) (n ts p : Nat),
    TrigOddEven tr → inUnitInterval beta = true → n % 2 = 0 → n < 2 ^ 24 → 1 ≤ ts → ts < 2 ^ 24 →
    1 ≤ p → p < n →
      (tapAt tr beta n ts p = none ∧ tapAt tr beta n ts (n - p) = none) ∨
        ∃ a b, tapAt tr beta n ts p = some a ∧ tapAt tr beta n ts (n - p) = some b ∧
          (eqF a b = true ∨ (isNaN a = true ∧ isNaN b = true))

/-- R136: `pts` is never zero, so the denominator is a zero exactly when `1 − bt·bt` is one. -/
def Obligations.RrcDenominatorIsZeroOnlyByBt : Prop :=
  ∀ (beta : Word) (t : Int) (ts : Nat),
    inUnitInterval beta = true → t ≠ 0 → t.natAbs < 2 ^ 24 → 1 ≤ ts → ts < 2 ^ 24 →
      isZero (tapPts t ts) = false ∧
        (eqF (tapDen beta t ts) zeroF = true ↔
          eqF (subF oneF (mulF (tapBt beta t ts) (tapBt beta t ts))) zeroF = true)

/-! ### Filter -/

/-- R171: `FILTER` returns the filtered chunk to the host and writes `H` only; `CHUNK_RANGE` beyond `L_MAX`. The
free words of NaN results and the step of their counter are the model's choice (log entry 2), and so is the free `NW`
that `respond` gives from `2²⁴` result words on (log entry 3). -/
def Obligations.FilterFiltersTheChunk : Prop :=
  ∀ (l : Imm) (ps : List Word) (s : State), ps.length = 2 * l.toNat →
    (s.phase ≠ .run → exec (.filter l ps) s = .next (raise .badPhase s)) ∧
    (s.phase = .run → lMax < l.toNat → exec (.filter l ps) s = .next (raise .chunkRange s)) ∧
    (∀ (c : List Word) (h : List Sample), s.phase = .run → l.toNat ≤ lMax → s.coef = some c →
      c.length = s.cfgN.toNat → s.hist = some h → h.length + 1 = s.cfgN.toNat →
      exec (.filter l ps) s =
        .next
          (respond (deliverWords s.freeCtr (wordsOf (fir c h (samplesOf ps)).1))
            { s with
              hist := some (fir c h (samplesOf ps)).2
              freeCtr := s.freeCtr + 2 * l.toNat })) ∧
    encode (.filter l ps) = (0xA0#8 ++ l, ps) ∧
    ∀ w : Cmd, opcField w = 10#4 → aField w ≠ 0#4 → RaisesIllegalOp w

/-- R167, R168, R170: output `s` is the sum, from the complex zero and in increasing `k`, over the `N` samples of
the working buffer that end at `xs[s]`, the newest with `c[0]`; there are as many outputs as samples. R21: scaling is two
independent products and addition two independent sums. -/
def Obligations.FirSumsTheReversedWindow : Prop :=
  (∀ (z : Sample) (w : Word), scale z w = ⟨mulF z.re w, mulF z.im w⟩) ∧
  (∀ a b : Sample, cadd a b = ⟨addF a.re b.re, addF a.im b.im⟩) ∧
  ∀ (c : List Word) (h xs : List Sample), h.length + 1 = c.length →
    (fir c h xs).1.length = xs.length ∧
      ∀ s < xs.length,
        (fir c h xs).1[s]? =
          some ((((h ++ xs).drop s).take c.length).reverse.zip c |>.foldl
            (fun acc zc => cadd acc (scale zc.1 zc.2)) ⟨0#64, 0#64⟩)

/-- R169: the new history is the last `N − 1` samples of history and chunk, in its three cases. -/
def Obligations.FirKeepsTheLastSamples : Prop :=
  ∀ (c : List Word) (h xs : List Sample), h.length + 1 = c.length →
    (fir c h xs).2.length = h.length ∧
      (xs = [] → (fir c h xs).2 = h) ∧
      (xs.length < h.length → (fir c h xs).2 = h.drop xs.length ++ xs) ∧
      (h.length ≤ xs.length → (fir c h xs).2 = xs.drop (xs.length - h.length))

/-- R172: filtering two chunks one after the other gives, word for word, what filtering their concatenation gives,
and leaves the same history. -/
def Obligations.ChunkingInvariance : Prop :=
  ∀ (c : List Word) (h xs xs' : List Sample), h.length + 1 = c.length →
    (fir c h (xs ++ xs')).1 = (fir c h xs).1 ++ (fir c (fir c h xs).2 xs').1 ∧
      (fir c h (xs ++ xs')).2 = (fir c (fir c h xs).2 xs').2

/-- R172 on the block: two `FILTER` operations and the one `FILTER` of both chunks return the same values, equal as
words but for NaNs, and leave the same history. -/
def Obligations.FilterMayBeSplitAnywhere : Prop :=
  ∀ (s t u r : State) (l l' m : Imm) (ps ps' : List Word),
    exec (.filter l ps) s = .next t → exec (.filter l' ps') t = .next u →
    exec (.filter m (ps ++ ps')) s = .next r → m.toNat = l.toNat + l'.toNat →
    s.phase = .run → t.phase = .run → u.phase = .run → r.phase = .run →
      r.hist = u.hist ∧ List.Forall₂ sameValue r.rdata u.rdata

/-- R173: however a stream is cut into chunks, from the zero history output `n` is the sum over the taps of the
stream's last `N` samples up to `n`, zero before its start, and the history is the stream's last `N − 1`. -/
def Obligations.StreamLaw : Prop :=
  ∀ (c : List Word) (chunks : List (List Sample)), 2 ≤ c.length →
    (firChunks c (List.replicate (c.length - 1) czero) chunks).1.length = chunks.flatten.length ∧
      (∀ n < chunks.flatten.length,
        (firChunks c (List.replicate (c.length - 1) czero) chunks).1[n]? =
          some ((List.range c.length).foldl
            (fun acc k => cadd acc (scale (streamAt chunks.flatten n k) (c.getD k zeroF))) czero)) ∧
      (firChunks c (List.replicate (c.length - 1) czero) chunks).2 =
        (List.replicate (c.length - 1) czero ++ chunks.flatten).drop chunks.flatten.length

/-- R174: zero samples after any history, with finite taps: from output `N − 1` on every output is zero, and the
history ends as zeros. -/
def Obligations.ZeroInputDrainsTheFilter : Prop :=
  ∀ (c : List Word) (h : List Sample) (l : Nat), h.length + 1 = c.length →
    ((∀ w ∈ c, isFinite w = true) →
      ∀ s, h.length ≤ s → s < l → (fir c h (List.replicate l czero)).1[s]? = some czero) ∧
    (h.length ≤ l → (fir c h (List.replicate l czero)).2 = List.replicate h.length czero)

/-- R193: from a legal configuration, the session `INIT`, one `PUSHB` for each byte, `FLUSH` runs to its end, and the
words the sink is sent are, whatever `RBS` is, the filtered samples of the whole modulated stream at once, equal as
words but for NaNs. -/
def Obligations.SessionOutputLaw : Prop :=
  ∀ (s : State) (taps : List Word) (vs : List Byte) (x : List Sample),
    s.phase = .config → s.fcode = none → LegalConfig s →
    rrc hwTrig s.cfgBeta s.cfgN.toNat s.cfgTs.toNat = some taps →
    x = vs.flatMap (fun v => modulate constellation (unpackBits v) s.cfgTs.toNat) →
      ∃ (t : State) (out : List Word),
        runAll (.init :: (vs.map .pushb ++ [.flush])) s = .next t ∧ EndedCleanly t ∧ t.outq = [] ∧
          sinkWords t = sinkWords s ++ out ∧ out.length = 8 * s.cfgTs.toNat * vs.length ∧
          List.Forall₂ sameValue out
            (wordsOf (fir taps (List.replicate (s.cfgN.toNat - 1) czero) x).1)

/-! ### Channels and frames -/

/-- R14, R101: an OK response of fewer than `2²⁴` words carries their count and the words; nothing else changes. -/
def Obligations.ResponseCarriesItsWords : Prop :=
  ∀ (ws : List Word) (s : State), ws.length < 2 ^ 24 →
    respond ws s =
      { s with
        rsp := s.rsp ++ [BitVec.ofNat 32 (ws.length * 256)]
        rdata := s.rdata ++ ws }

/-- R93, R101: every operation answers with exactly one response word; its reserved bits are zero, its `NW` is the
number of result words (fewer than `2²⁴`; above that the value is free, log entry 3), and a fault has none. -/
def Obligations.EveryOperationAnswersOnce : Prop :=
  ∀ (i : Instr) (s t : State), exec i s = .next t →
    ∃ (r : BitVec 32) (ws : List Word),
      t.rsp = s.rsp ++ [r] ∧ t.rdata = s.rdata ++ ws ∧ r.extractLsb' 4 4 = 0#4 ∧
        (ws.length < 2 ^ 24 → (r.extractLsb' 8 24).toNat = ws.length) ∧
        (r.extractLsb' 0 4 ≠ 0#4 → ws = [])

/-- R40's table: which operation writes which piece of state; `PHASE` has a statement of its own
(`PhaseMovesOnlyByInitFlushAndFaults`). -/
def Obligations.EachPieceOfStateHasItsWriters : Prop :=
  ∀ (i : Instr) (s t : State), exec i s = .next t →
    (t.cfgN ≠ s.cfgN → ∃ v, i = .wrcfgN v) ∧
    (t.cfgTs ≠ s.cfgTs → ∃ v, i = .wrcfgTs v) ∧
    (t.cfgRbs ≠ s.cfgRbs → ∃ v, i = .wrcfgRbs v) ∧
    (t.cfgBeta ≠ s.cfgBeta → ∃ x, i = .wrcfgBeta x) ∧
    (t.fcode ≠ s.fcode → s.phase ≠ .faulted ∧ ∃ f, t = raise f s ∧ t.fcode = some f) ∧
    (t.coef ≠ s.coef → i = .init ∨ (∃ p c, i = .wrcoef p c) ∨ i = .flush) ∧
    (t.hist ≠ s.hist → i = .init ∨ (∃ l ps, i = .filter l ps) ∨ (∃ v, i = .pushb v) ∨ i = .flush) ∧
    (t.outq ≠ s.outq → i = .init ∨ (∃ v, i = .pushb v) ∨ i = .flush) ∧
    (t.sink ≠ s.sink → (∃ v, i = .pushb v) ∨ i = .flush) ∧
    (s.phase ≠ .config →
      t.cfgN = s.cfgN ∧ t.cfgTs = s.cfgTs ∧ t.cfgRbs = s.cfgRbs ∧ t.cfgBeta = s.cfgBeta) ∧
    t.inbox = s.inbox

/-- R102: a burst is its samples as words, `re` then `im`, oldest first, with the last word marked and no other. -/
def Obligations.BurstMarksItsLastWordOnly : Prop :=
  ∀ q : List Sample,
    (markLast (wordsOf q)).map SinkWord.data = q.flatMap (fun z => [z.re, z.im]) ∧
      ∀ k w, (markLast (wordsOf q))[k]? = some w → (w.last = true ↔ k + 1 = 2 * q.length)

/-- R48, R54: the history is observed only through filtering. Two states that differ only in a history of the
same length answer every operation but `FILTER` and `PUSHB` with the same words on every channel, and agree
afterwards in all but the history. -/
def Obligations.HistoryIsHiddenFromOtherOperations : Prop :=
  ∀ (i : Instr) (s t : State) (h h' : List Sample),
    (∀ l ps, i ≠ .filter l ps) → (∀ v, i ≠ .pushb v) → s.hist = some h → h'.length = h.length →
    exec i s = .next t →
      ∃ t', exec i { s with hist := some h' } = .next t' ∧
        { t' with hist := none } = { t with hist := none }

/-! ### Numbers -/

/-- R16: the sum of two finite numbers is the exact sum rounded to nearest, ties to even, with overflow to an
infinity. Where overflow begins, here and in the next three, is IEEE-754's, presumed in log entry 16. -/
def Obligations.AddIsCorrectlyRounded : Prop :=
  ∀ a b : Word, isFinite a = true → isFinite b = true →
    RoundsTo (realValue a + realValue b) (addF a b)

/-- R16: the product of two finite numbers is the exact product rounded (overflow: log entry 16, PRESUMED). The sign of a
zero product is in `SpecialOperandsGiveTheDefaultResults`. -/
def Obligations.MulIsCorrectlyRounded : Prop :=
  ∀ a b : Word, isFinite a = true → isFinite b = true →
    RoundsTo (realValue a * realValue b) (mulF a b)

/-- R16: the quotient of a finite number by a finite number that is not zero is the exact quotient rounded (overflow: log
entry 16, PRESUMED). The sign of a zero quotient is in `SpecialOperandsGiveTheDefaultResults`. -/
def Obligations.DivIsCorrectlyRounded : Prop :=
  ∀ a b : Word, isFinite a = true → isFinite b = true → isZero b = false →
    RoundsTo (realValue a / realValue b) (divF a b)

/-- R16: the square root of a finite number that is not negative is the exact root rounded (log entry 16,
PRESUMED). The root of a zero has its sign in `SpecialOperandsGiveTheDefaultResults`. -/
def Obligations.SqrtIsCorrectlyRounded : Prop :=
  ∀ a : Word, isFinite a = true → 0 ≤ realValue a → RoundsTo (Real.sqrt (realValue a)) (sqrtF a)

/-- R16, R175: which operations give a NaN, where an infinity or a zero results, and every sign, that of a zero sum,
product, quotient or root included; nothing traps. What IEEE-754 fixes here in detail is presumed in log entry 16. -/
def Obligations.SpecialOperandsGiveTheDefaultResults : Prop :=
  ∀ a b : Word,
    ((isNaN (addF a b) = true ↔
        isNaN a = true ∨ isNaN b = true ∨ (isInf a = true ∧ isInf b = true ∧ signBit a ≠ signBit b)) ∧
      (isNaN (mulF a b) = true ↔
        isNaN a = true ∨ isNaN b = true ∨ (isInf a = true ∧ isZero b = true) ∨
          (isZero a = true ∧ isInf b = true)) ∧
      (isNaN (divF a b) = true ↔
        isNaN a = true ∨ isNaN b = true ∨ (isInf a = true ∧ isInf b = true) ∨
          (isZero a = true ∧ isZero b = true)) ∧
      (isNaN (sqrtF a) = true ↔ isNaN a = true ∨ (signBit a = true ∧ isZero a = false))) ∧
    ((isInf a = true → isFinite b = true → addF a b = a ∧ addF b a = a) ∧
      (isInf a = true → isInf b = true → signBit a = signBit b → addF a b = a) ∧
      (isInf a = true → isNaN b = false → isZero b = false →
        isInf (mulF a b) = true ∧ isInf (mulF b a) = true) ∧
      (isInf a = true → isFinite b = true → isInf (divF a b) = true ∧ isZero (divF b a) = true) ∧
      (isFinite a = true → isZero a = false → isZero b = true → isInf (divF a b) = true) ∧
      (isInf a = true → signBit a = false → sqrtF a = a)) ∧
    ((isZero a = true → isZero b = true → isZero (addF a b) = true) ∧
      (isZero a = true → isFinite b = true → isZero (mulF a b) = true ∧ isZero (mulF b a) = true) ∧
      (isZero a = true → isFinite b = true → isZero b = false → isZero (divF a b) = true) ∧
      (isZero a = true → sqrtF a = a)) ∧
    ((isFinite a = true → isFinite b = true → isZero (addF a b) = true →
        (signBit (addF a b) = true ↔ signBit a = true ∧ signBit b = true)) ∧
      (isNaN (mulF a b) = false → (signBit (mulF a b) = true ↔ signBit a ≠ signBit b)) ∧
      (isNaN (divF a b) = false → (signBit (divF a b) = true ↔ signBit a ≠ signBit b))) ∧
    subF a b = addF a (negF b) ∧ signBit (negF a) = !signBit a ∧ magBits (negF a) = magBits a

/-- R17: the comparisons of finite numbers are those of the numbers they stand for, so `+0 == −0`; a comparison with
a NaN is false. -/
def Obligations.ComparisonsAreThoseOfTheNumbers : Prop :=
  ∀ a b : Word,
    (isFinite a = true → isFinite b = true →
      (eqF a b = true ↔ realValue a = realValue b) ∧ (ltF a b = true ↔ realValue a < realValue b)) ∧
    (isNaN a = true ∨ isNaN b = true → eqF a b = false ∧ ltF a b = false)

/-- R12: `ofInt` is exact for every integer the rules convert. -/
def Obligations.IntegersConvertExactly : Prop :=
  ∀ i : Int, i.natAbs < 2 ^ 24 → isFinite (ofIntF i) = true ∧ realValue (ofIntF i) = i

/-! ### The ideal reading -/

/-- R22, R124, R139 (b) in the ideal reading: every point has magnitude 1 and argument `(2k+1)·π/4`, the next point
is a quarter turn away, and every tap is an even function of `t`. -/
def Obligations.IdealReadingIsExact : Prop :=
  (∀ k : ℕ, ‖idealPoint k‖ = 1 ∧
    idealPoint k = Complex.exp (((2 * k + 1) * Real.pi / 4 : ℝ) * Complex.I) ∧
    idealPoint (k + 1) = Complex.I * idealPoint k) ∧
  ∀ β Ts t : ℝ, idealTap β Ts (-t) = idealTap β Ts t
end

