-- ==== Sys2Proof/Laws/Binary64.lean ====
section
/-! SUPPORT. The small lemmas of the binary64 definitions: magnitude, sign and class of a word built by `ofMag` or
`roundUnits`, a word is in one class, the test against zero, and the words of the constants (spec 00_scope.md R15 to R18). -/

namespace Sys2Proof.Machine

/-! ### Words built from a sign and a magnitude field -/

theorem ofMag_magBits {k : Nat} (s : Bool) (h : k < 2 ^ 63) : magBits (ofMag s k) = k := by
  unfold magBits ofMag
  cases s <;> simp <;> omega

theorem ofMag_signBit {k : Nat} (s : Bool) (h : k < 2 ^ 63) : signBit (ofMag s k) = s := by
  unfold signBit ofMag
  cases s <;> simp [BitVec.getLsbD, Nat.testBit, Nat.shiftRight_eq_div_pow] <;> omega

@[simp] theorem ofMag_infMag_isInf (s : Bool) : isInf (ofMag s infMag) = true := by cases s <;> decide
@[simp] theorem ofMag_infMag_isNaN (s : Bool) : isNaN (ofMag s infMag) = false := by cases s <;> decide
@[simp] theorem ofMag_infMag_signBit (s : Bool) : signBit (ofMag s infMag) = s := by cases s <;> decide
@[simp] theorem ofMag_zero_isZero (s : Bool) : isZero (ofMag s 0) = true := by cases s <;> decide
@[simp] theorem ofMag_zero_isNaN (s : Bool) : isNaN (ofMag s 0) = false := by cases s <;> decide
@[simp] theorem ofMag_zero_signBit (s : Bool) : signBit (ofMag s 0) = s := by cases s <;> decide
@[simp] theorem canonicalNaN_isNaN : isNaN canonicalNaN = true := by decide

/-! ### Rounding -/

/-- The magnitude field of a rounded number: what the rounding gives, capped at the infinity. -/
theorem roundUnits_magBits (s : Bool) (n d : Nat) :
    magBits (roundUnits s n d) = min (quantum n d * 2 ^ 52 + roundDiv n (d * 2 ^ quantum n d)) infMag :=
  ofMag_magBits s (lt_of_le_of_lt (Nat.min_le_right _ _) (by decide))

@[simp] theorem roundUnits_isNaN (s : Bool) (n d : Nat) : isNaN (roundUnits s n d) = false := by
  simp [isNaN, roundUnits_magBits]

@[simp] theorem roundUnits_signBit (s : Bool) (n d : Nat) : signBit (roundUnits s n d) = s :=
  ofMag_signBit s (lt_of_le_of_lt (Nat.min_le_right _ _) (by decide))

@[simp] theorem roundUnits_zero (s : Bool) (d : Nat) : isZero (roundUnits s 0 d) = true := by
  simp [isZero, roundUnits_magBits, quantum, roundDiv]

/-! ### Classes -/

/-- A word is a NaN, an infinity or finite, and only a finite word is a zero. -/
theorem word_class (a : Word) :
    (isNaN a = true ∧ isInf a = false ∧ isFinite a = false ∧ isZero a = false) ∨
      (isNaN a = false ∧ isInf a = true ∧ isFinite a = false ∧ isZero a = false) ∨
      (isNaN a = false ∧ isInf a = false ∧ isFinite a = true) := by
  unfold isNaN isInf isFinite isZero infMag
  simp only [decide_eq_true_eq, decide_eq_false_iff_not, beq_eq_false_iff_ne, beq_iff_eq]
  omega

theorem units_of_isZero {a : Word} (h : isZero a = true) : units a = 0 := by
  have : magBits a = 0 := by simpa [isZero] using h
  simp [units, significand, this]

/-- A comparison with zero is the zero test (R17: both zeros alike, no NaN). -/
theorem eqF_zeroF (w : Word) : eqF w zeroF = isZero w := by
  have h0 : orderKey zeroF = 0 := by decide
  have h1 : isNaN zeroF = false := by decide
  unfold eqF
  rw [h0, h1]
  by_cases hz : isZero w = true
  · have : magBits w = 0 := by simpa [isZero] using hz
    simp [hz, orderKey, this, isNaN, infMag]
  · have : magBits w ≠ 0 := by simpa [isZero] using hz
    have : ¬ orderKey w = 0 := by
      unfold orderKey
      split <;> omega
    simp [hz, this]

/-! ### The words of the constants (R18) -/

theorem oneF_eq : oneF = 0x3FF0000000000000#64 := by decide +kernel
theorem twoF_eq : twoF = 0x4000000000000000#64 := by decide +kernel
theorem fourF_eq : fourF = 0x4010000000000000#64 := by decide +kernel
theorem sqrt2F_eq : sqrt2F = 0x3FF6A09E667F3BCD#64 := by decide +kernel

end Sys2Proof.Machine
end

