-- ==== Sys2Proof/Laws/Decode.lean ====
section
/-! SUPPORT. The fields of a command word put together by `cmdWord` and `byteImm`, read back (spec 30_encoding.md
R92, R94), and what `noPayload` and `onePayload` answer (R93, R97). -/

namespace Sys2Proof

theorem getLsbD_cmdWord (opc a : BitVec 4) (imm : Imm) (k : Nat) :
    (cmdWord opc a imm).getLsbD k =
      if k < 24 then imm.getLsbD k else if k - 24 < 4 then a.getLsbD (k - 24) else opc.getLsbD (k - 28) := by
  show (opc ++ a ++ imm).getLsbD k = _
  rw [BitVec.getLsbD_append, BitVec.getLsbD_append]
  by_cases h : k < 24
  · simp [h]
  · by_cases h2 : k - 24 < 4
    · simp [h, h2]
    · simp only [h, h2, if_false]
      congr 1

theorem getLsbD_byteImm (v : Byte) (k : Nat) :
    (byteImm v).getLsbD k = if k < 8 then v.getLsbD k else false := by
  show (0#16 ++ v).getLsbD k = _
  rw [BitVec.getLsbD_append]
  split <;> simp

@[simp] theorem opcField_cmdWord (opc a : BitVec 4) (imm : Imm) : opcField (cmdWord opc a imm) = opc := by
  apply BitVec.eq_of_getLsbD_eq
  intro k hk
  have h : ¬ 28 + k < 24 := by omega
  have h2 : ¬ 28 + k - 24 < 4 := by omega
  simp [opcField, hk, getLsbD_cmdWord, h, h2]

@[simp] theorem aField_cmdWord (opc a : BitVec 4) (imm : Imm) : aField (cmdWord opc a imm) = a := by
  apply BitVec.eq_of_getLsbD_eq
  intro k hk
  simp [aField, hk, getLsbD_cmdWord]

@[simp] theorem immField_cmdWord (opc a : BitVec 4) (imm : Imm) : immField (cmdWord opc a imm) = imm := by
  apply BitVec.eq_of_getLsbD_eq
  intro k hk
  simp [immField, hk, getLsbD_cmdWord]

@[simp] theorem byteImm_low (v : Byte) : (byteImm v).extractLsb' 0 8 = v := by
  apply BitVec.eq_of_getLsbD_eq
  intro k hk
  simp [hk, getLsbD_byteImm]

@[simp] theorem byteImm_high (v : Byte) : (byteImm v).extractLsb' 8 16 = 0#16 := by
  apply BitVec.eq_of_getLsbD_eq
  intro k hk
  have h : ¬ 8 + k < 8 := by omega
  simp [hk, getLsbD_byteImm, h]

/-- Masking a command word masks its three fields. -/
theorem cmdWord_and (opc a mo ma : BitVec 4) (imm mi : Imm) :
    cmdWord opc a imm &&& cmdWord mo ma mi = cmdWord (opc &&& mo) (a &&& ma) (imm &&& mi) := by
  apply BitVec.eq_of_getLsbD_eq
  intro k _
  rw [BitVec.getLsbD_and, getLsbD_cmdWord, getLsbD_cmdWord, getLsbD_cmdWord]
  split
  · rw [BitVec.getLsbD_and]
  · split <;> rw [BitVec.getLsbD_and]

theorem byteImm_and_high (v : Byte) : byteImm v &&& 0xFFFF00#24 = 0#24 := by
  apply BitVec.eq_of_getLsbD_eq
  intro k _
  rw [BitVec.getLsbD_and, getLsbD_byteImm]
  split
  · rename_i h
    interval_cases k <;> simp
  · simp

theorem noPayload_ok {i j : Instr} {ps : List Word} : noPayload i ps = .ok j ↔ ps = [] ∧ j = i := by
  cases ps <;> simp [noPayload, eq_comm]

theorem onePayload_ok {i : Word → Instr} {j : Instr} {ps : List Word} :
    onePayload i ps = .ok j ↔ ∃ x, ps = [x] ∧ j = i x := by
  match ps with
  | [] => simp [onePayload]
  | [x] => simp [onePayload, eq_comm]
  | _ :: _ :: _ => simp [onePayload]

end Sys2Proof
end

