-- ==== Sys2Proof/Laws/State.lean ====
section
/-! SUPPORT. One lemma for each field and each named update of `State` (`raise`, `respond`, `emit`, `openSession`,
`resetBlock`), so that no later proof unfolds a record update. -/

namespace Sys2Proof.Machine

/-! ### `raise` -/

@[simp] theorem raise_cfgN (f : FaultCode) (s : State) : (raise f s).cfgN = s.cfgN := rfl
@[simp] theorem raise_cfgTs (f : FaultCode) (s : State) : (raise f s).cfgTs = s.cfgTs := rfl
@[simp] theorem raise_cfgRbs (f : FaultCode) (s : State) : (raise f s).cfgRbs = s.cfgRbs := rfl
@[simp] theorem raise_cfgBeta (f : FaultCode) (s : State) : (raise f s).cfgBeta = s.cfgBeta := rfl
@[simp] theorem raise_phase (f : FaultCode) (s : State) : (raise f s).phase = .faulted := rfl
@[simp] theorem raise_fcode (f : FaultCode) (s : State) : (raise f s).fcode = if s.phase = .faulted then s.fcode else some f := rfl
@[simp] theorem raise_coef (f : FaultCode) (s : State) : (raise f s).coef = s.coef := rfl
@[simp] theorem raise_hist (f : FaultCode) (s : State) : (raise f s).hist = s.hist := rfl
@[simp] theorem raise_outq (f : FaultCode) (s : State) : (raise f s).outq = s.outq := rfl
@[simp] theorem raise_rsp (f : FaultCode) (s : State) : (raise f s).rsp = s.rsp ++ [rspWord 0#24 (faultBits f)] := rfl
@[simp] theorem raise_rdata (f : FaultCode) (s : State) : (raise f s).rdata = s.rdata := rfl
@[simp] theorem raise_sink (f : FaultCode) (s : State) : (raise f s).sink = s.sink := rfl
@[simp] theorem raise_inbox (f : FaultCode) (s : State) : (raise f s).inbox = s.inbox := rfl
@[simp] theorem raise_freeCtr (f : FaultCode) (s : State) : (raise f s).freeCtr = s.freeCtr := rfl

/-! ### `respond` -/

@[simp] theorem respond_cfgN (ws : List Word) (s : State) : (respond ws s).cfgN = s.cfgN := rfl
@[simp] theorem respond_cfgTs (ws : List Word) (s : State) : (respond ws s).cfgTs = s.cfgTs := rfl
@[simp] theorem respond_cfgRbs (ws : List Word) (s : State) : (respond ws s).cfgRbs = s.cfgRbs := rfl
@[simp] theorem respond_cfgBeta (ws : List Word) (s : State) : (respond ws s).cfgBeta = s.cfgBeta := rfl
@[simp] theorem respond_phase (ws : List Word) (s : State) : (respond ws s).phase = s.phase := rfl
@[simp] theorem respond_fcode (ws : List Word) (s : State) : (respond ws s).fcode = s.fcode := rfl
@[simp] theorem respond_coef (ws : List Word) (s : State) : (respond ws s).coef = s.coef := rfl
@[simp] theorem respond_hist (ws : List Word) (s : State) : (respond ws s).hist = s.hist := rfl
@[simp] theorem respond_outq (ws : List Word) (s : State) : (respond ws s).outq = s.outq := rfl
@[simp] theorem respond_rsp (ws : List Word) (s : State) : (respond ws s).rsp = s.rsp ++ [rspWord (nwField s.freeCtr ws.length) 0#4] := rfl
@[simp] theorem respond_rdata (ws : List Word) (s : State) : (respond ws s).rdata = s.rdata ++ ws := rfl
@[simp] theorem respond_sink (ws : List Word) (s : State) : (respond ws s).sink = s.sink := rfl
@[simp] theorem respond_inbox (ws : List Word) (s : State) : (respond ws s).inbox = s.inbox := rfl
@[simp] theorem respond_freeCtr (ws : List Word) (s : State) : (respond ws s).freeCtr = if ws.length < 2 ^ 24 then s.freeCtr else s.freeCtr + 1 := rfl

/-! ### `emit` -/

@[simp] theorem emit_cfgN (q : List Sample) (s : State) : (emit q s).cfgN = s.cfgN := rfl
@[simp] theorem emit_cfgTs (q : List Sample) (s : State) : (emit q s).cfgTs = s.cfgTs := rfl
@[simp] theorem emit_cfgRbs (q : List Sample) (s : State) : (emit q s).cfgRbs = s.cfgRbs := rfl
@[simp] theorem emit_cfgBeta (q : List Sample) (s : State) : (emit q s).cfgBeta = s.cfgBeta := rfl
@[simp] theorem emit_phase (q : List Sample) (s : State) : (emit q s).phase = s.phase := rfl
@[simp] theorem emit_fcode (q : List Sample) (s : State) : (emit q s).fcode = s.fcode := rfl
@[simp] theorem emit_coef (q : List Sample) (s : State) : (emit q s).coef = s.coef := rfl
@[simp] theorem emit_hist (q : List Sample) (s : State) : (emit q s).hist = s.hist := rfl
@[simp] theorem emit_outq (q : List Sample) (s : State) : (emit q s).outq = s.outq := rfl
@[simp] theorem emit_rsp (q : List Sample) (s : State) : (emit q s).rsp = s.rsp := rfl
@[simp] theorem emit_rdata (q : List Sample) (s : State) : (emit q s).rdata = s.rdata := rfl
@[simp] theorem emit_sink (q : List Sample) (s : State) : (emit q s).sink = s.sink ++ markLast (wordsOf q) := rfl
@[simp] theorem emit_inbox (q : List Sample) (s : State) : (emit q s).inbox = s.inbox := rfl
@[simp] theorem emit_freeCtr (q : List Sample) (s : State) : (emit q s).freeCtr = s.freeCtr := rfl

/-! ### `openSession` -/

@[simp] theorem openSession_cfgN (taps : List Word) (s : State) : (openSession taps s).cfgN = s.cfgN := rfl
@[simp] theorem openSession_cfgTs (taps : List Word) (s : State) : (openSession taps s).cfgTs = s.cfgTs := rfl
@[simp] theorem openSession_cfgRbs (taps : List Word) (s : State) : (openSession taps s).cfgRbs = s.cfgRbs := rfl
@[simp] theorem openSession_cfgBeta (taps : List Word) (s : State) : (openSession taps s).cfgBeta = s.cfgBeta := rfl
@[simp] theorem openSession_phase (taps : List Word) (s : State) : (openSession taps s).phase = .run := rfl
@[simp] theorem openSession_fcode (taps : List Word) (s : State) : (openSession taps s).fcode = s.fcode := rfl
@[simp] theorem openSession_coef (taps : List Word) (s : State) : (openSession taps s).coef = some (deliverWords s.freeCtr taps) := rfl
@[simp] theorem openSession_hist (taps : List Word) (s : State) : (openSession taps s).hist = some (List.replicate (s.cfgN.toNat - 1) czero) := rfl
@[simp] theorem openSession_outq (taps : List Word) (s : State) : (openSession taps s).outq = [] := rfl
@[simp] theorem openSession_rsp (taps : List Word) (s : State) : (openSession taps s).rsp = s.rsp := rfl
@[simp] theorem openSession_rdata (taps : List Word) (s : State) : (openSession taps s).rdata = s.rdata := rfl
@[simp] theorem openSession_sink (taps : List Word) (s : State) : (openSession taps s).sink = s.sink := rfl
@[simp] theorem openSession_inbox (taps : List Word) (s : State) : (openSession taps s).inbox = s.inbox := rfl
@[simp] theorem openSession_freeCtr (taps : List Word) (s : State) : (openSession taps s).freeCtr = s.freeCtr + taps.length := rfl

/-! ### `resetBlock` -/

@[simp] theorem resetBlock_cfgN (s : State) : (resetBlock s).cfgN = State.reset.cfgN := rfl
@[simp] theorem resetBlock_cfgTs (s : State) : (resetBlock s).cfgTs = State.reset.cfgTs := rfl
@[simp] theorem resetBlock_cfgRbs (s : State) : (resetBlock s).cfgRbs = State.reset.cfgRbs := rfl
@[simp] theorem resetBlock_cfgBeta (s : State) : (resetBlock s).cfgBeta = State.reset.cfgBeta := rfl
@[simp] theorem resetBlock_phase (s : State) : (resetBlock s).phase = State.reset.phase := rfl
@[simp] theorem resetBlock_fcode (s : State) : (resetBlock s).fcode = State.reset.fcode := rfl
@[simp] theorem resetBlock_coef (s : State) : (resetBlock s).coef = State.reset.coef := rfl
@[simp] theorem resetBlock_hist (s : State) : (resetBlock s).hist = State.reset.hist := rfl
@[simp] theorem resetBlock_outq (s : State) : (resetBlock s).outq = State.reset.outq := rfl
@[simp] theorem resetBlock_rsp (s : State) : (resetBlock s).rsp = State.reset.rsp := rfl
@[simp] theorem resetBlock_rdata (s : State) : (resetBlock s).rdata = State.reset.rdata := rfl
@[simp] theorem resetBlock_sink (s : State) : (resetBlock s).sink = State.reset.sink := rfl
@[simp] theorem resetBlock_inbox (s : State) : (resetBlock s).inbox = s.inbox := rfl
@[simp] theorem resetBlock_freeCtr (s : State) : (resetBlock s).freeCtr = s.freeCtr := rfl

end Sys2Proof.Machine
end

