-- ==== Sys2Proof/Laws/Ops.lean ====
section
/-! SUPPORT. What each shared operation can do, said once: its next state if it has one, and the length of what it
returns. -/

namespace Sys2Proof.Machine

/-! ### Checks and reads -/

/-- A phase check has a next state in the phase it asks for, through `k`, or raises `BAD_PHASE`. -/
theorem requirePhase_next {p : Phase} {s t : State} {k : Host.Outcome State Fault Refusal}
    (h : requirePhase p s k = .next t) :
    (s.phase = p ∧ k = .next t) ∨ (s.phase ≠ p ∧ t = raise .badPhase s) := by
  unfold requirePhase at h
  split at h
  · exact .inl ⟨‹_›, h⟩
  · exact .inr ⟨‹_›, by cases h; rfl⟩

@[simp] theorem requirePhase_same {p : Phase} {s : State} (k : Host.Outcome State Fault Refusal)
    (h : s.phase = p) : requirePhase p s k = k := if_pos h

@[simp] theorem requirePhase_other {p : Phase} {s : State} (k : Host.Outcome State Fault Refusal)
    (h : s.phase ≠ p) : requirePhase p s k = .next (raise .badPhase s) := if_neg h

/-- `COEF` is read only where it holds `CFG_N` words. -/
theorem withCoef_next {s t : State} {k : List Word → Host.Outcome State Fault Refusal}
    (h : withCoef s k = .next t) : ∃ c, s.coef = some c ∧ c.length = s.cfgN.toNat ∧ k c = .next t := by
  unfold withCoef at h
  cases hc : s.coef with
  | none => simp [hc] at h
  | some c =>
    simp only [hc] at h
    split at h
    · exact ⟨c, rfl, ‹_›, h⟩
    · cases h

@[simp] theorem withCoef_some {s : State} {c : List Word} (k : List Word → Host.Outcome State Fault Refusal)
    (hc : s.coef = some c) (hl : c.length = s.cfgN.toNat) : withCoef s k = k c := by
  simp [withCoef, hc, hl]

/-- A session's memories are read only where they have their configured lengths. -/
theorem withSession_next {s t : State} {k : List Word → List Sample → Host.Outcome State Fault Refusal}
    (h : withSession s k = .next t) :
    ∃ c hs, s.coef = some c ∧ c.length = s.cfgN.toNat ∧ s.hist = some hs ∧ hs.length + 1 = c.length ∧
      k c hs = .next t := by
  obtain ⟨c, hc, hl, hk⟩ := withCoef_next h
  cases hh : s.hist with
  | none => simp [hh] at hk
  | some hs =>
    simp only [hh] at hk
    split at hk
    · exact ⟨c, hs, hc, hl, rfl, ‹_›, hk⟩
    · cases hk

@[simp] theorem withSession_some {s : State} {c : List Word} {hs : List Sample}
    (k : List Word → List Sample → Host.Outcome State Fault Refusal) (hc : s.coef = some c)
    (hl : c.length = s.cfgN.toNat) (hh : s.hist = some hs) (hn : hs.length + 1 = c.length) :
    withSession s k = k c hs := by
  have hn' : hs.length + 1 = s.cfgN.toNat := hn.trans hl
  simp [withSession, withCoef_some _ hc hl, hh, hl, hn']

/-- One tap is read inside the range check, or `INDEX_RANGE` is raised. -/
theorem withTap_next {p : Imm} {s t : State} {k : List Word → Host.Outcome State Fault Refusal}
    (h : withTap p s k = .next t) :
    (p.toNat < s.cfgN.toNat ∧ ∃ c, s.coef = some c ∧ c.length = s.cfgN.toNat ∧ k c = .next t) ∨
      (s.cfgN.toNat ≤ p.toNat ∧ t = raise .indexRange s) := by
  unfold withTap at h
  split at h
  · exact .inl ⟨‹_›, withCoef_next h⟩
  · exact .inr ⟨Nat.not_lt.mp ‹_›, by cases h; rfl⟩

/-! ### Ends of an operation -/

/-- A fault in `CONFIG` or `RUN` writes the two `STATUS` fields and the response, nothing else (R221). -/
theorem raise_of_not_faulted {s : State} (f : FaultCode) (h : s.phase ≠ .faulted) :
    raise f s =
      { s with
        phase := .faulted
        fcode := some f
        rsp := s.rsp ++ [rspWord 0#24 (faultBits f)] } := by
  simp [raise, h]

/-- A fault in `FAULTED` writes the response only (R222). -/
theorem raise_of_faulted {s : State} (f : FaultCode) (h : s.phase = .faulted) :
    raise f s = { s with rsp := s.rsp ++ [rspWord 0#24 (faultBits f)] } := by
  cases s
  simp_all [raise]

/-- A response of fewer than `2²⁴` words writes its count, its words and nothing else (R101). -/
theorem respond_of_lt {ws : List Word} {s : State} (h : ws.length < 2 ^ 24) :
    respond ws s =
      { s with
        rsp := s.rsp ++ [rspWord (BitVec.ofNat 24 ws.length) 0#4]
        rdata := s.rdata ++ ws } := by
  simp only [respond, nwField, if_pos h]

/-- Staging either sends the whole queue and empties it, or keeps it below the threshold (R191). -/
theorem stage_cases (q : List Sample) (s : State) :
    (s.cfgRbs.toNat ≤ q.length ∧
        stage q s = { s with sink := s.sink ++ markLast (wordsOf q), outq := [] }) ∨
      (q.length < s.cfgRbs.toNat ∧ stage q s = { s with outq := q }) := by
  unfold stage emit
  split
  · exact .inl ⟨‹_›, rfl⟩
  · exact .inr ⟨Nat.not_le.mp ‹_›, rfl⟩

theorem stage_of_le {q : List Sample} {s : State} (h : s.cfgRbs.toNat ≤ q.length) :
    stage q s = { s with sink := s.sink ++ markLast (wordsOf q), outq := [] } := by
  rcases stage_cases q s with ⟨_, e⟩ | ⟨h', _⟩
  · exact e
  · omega

theorem stage_of_lt {q : List Sample} {s : State} (h : q.length < s.cfgRbs.toNat) :
    stage q s = { s with outq := q } := by
  rcases stage_cases q s with ⟨h', _⟩ | ⟨_, e⟩
  · omega
  · exact e

/-- A byte gives `4·Ts` samples (R156). -/
@[simp] theorem byteChips_length (v : Byte) (s : State) : (byteChips v s).length = 4 * s.cfgTs.toNat := by
  simp [byteChips, unpackBits, modulate]
  omega

/-! ### Free values -/

theorem freeNaN_isNaN (k : Nat) : isNaN (freeNaN k) = true := by
  unfold freeNaN
  split
  · assumption
  · decide

/-- Delivery changes no word but a NaN, and that to a NaN. -/
theorem deliver_sameValue (k : Nat) (w : Word) : sameValue (deliver k w) w := by
  unfold deliver
  split
  · exact .inr ⟨freeNaN_isNaN k, ‹_›⟩
  · exact .inl rfl

@[simp] theorem deliverWords_length (k : Nat) (ws : List Word) : (deliverWords k ws).length = ws.length := by
  induction ws generalizing k with
  | nil => rfl
  | cons w ws ih => simp [deliverWords, ih]

@[simp] theorem deliverSamples_length (k : Nat) (zs : List Sample) :
    (deliverSamples k zs).length = zs.length := by
  induction zs generalizing k with
  | nil => rfl
  | cons z zs ih => simp [deliverSamples, ih]

/-- Delivering samples is delivering their words. -/
theorem wordsOf_deliverSamples (k : Nat) (zs : List Sample) :
    wordsOf (deliverSamples k zs) = deliverWords k (wordsOf zs) := by
  induction zs generalizing k with
  | nil => rfl
  | cons z zs ih => simp [deliverSamples, deliverWords, wordsOf, ih]

/-! ### Samples as words -/

@[simp] theorem wordsOf_length (zs : List Sample) : (wordsOf zs).length = 2 * zs.length := by
  induction zs with
  | nil => rfl
  | cons z zs ih => simp [wordsOf, ih]; omega

@[simp] theorem wordsOf_append (xs ys : List Sample) : wordsOf (xs ++ ys) = wordsOf xs ++ wordsOf ys := by
  induction xs with
  | nil => rfl
  | cons z zs ih => simp [wordsOf, ih]

@[simp] theorem samplesOf_wordsOf (zs : List Sample) : samplesOf (wordsOf zs) = zs := by
  induction zs with
  | nil => rfl
  | cons z zs ih => simp [wordsOf, samplesOf, ih]

theorem samplesOf_length {ws : List Word} {l : Nat} (h : ws.length = 2 * l) : (samplesOf ws).length = l := by
  induction l generalizing ws with
  | zero => simp_all [samplesOf]
  | succ l ih =>
    match ws, h with
    | re :: im :: ws, h =>
      simp only [samplesOf, List.length_cons]
      rw [ih (by simp at h; omega)]

@[simp] theorem markLast_length (ws : List Word) : (markLast ws).length = ws.length := by
  induction ws using markLast.induct with
  | case1 => rfl
  | case2 w => rfl
  | case3 w v ws ih => simpa [markLast] using ih

/-! ### The filter and the memories -/

/-- As many outputs as samples (R170). -/
@[simp] theorem fir_output_length (c : List Word) (h xs : List Sample) : (fir c h xs).1.length = xs.length := by
  simp [fir]

/-- The history keeps its length (R165). -/
@[simp] theorem fir_history_length (c : List Word) (h xs : List Sample) : (fir c h xs).2.length = h.length := by
  simp [fir]

/-- A word written into `COEF` keeps the form of the memories. -/
theorem wf_set_coef {s : State} {c : List Word} (hw : Memory.wf s = true) (hc : s.coef = some c) (k : Nat)
    (w : Word) : Memory.wf { s with coef := some (c.set k w) } = true := by
  unfold Memory.wf at *
  simp only [hc] at hw
  cases hh : s.hist <;> simp_all

/-- A history replaced by the filter's keeps the form of the memories. -/
theorem wf_set_hist {s : State} {c : List Word} {h : List Sample} (hw : Memory.wf s = true)
    (hh : s.hist = some h) (xs : List Sample) :
    Memory.wf { s with hist := some (fir c h xs).2 } = true := by
  unfold Memory.wf at *
  simp only [hh] at hw
  cases hc : s.coef <;> simp_all

/-- A session opened with `CFG_N ≥ 1` taps has the form of the memories. -/
theorem wf_openSession {s : State} {taps : List Word} (hl : taps.length = s.cfgN.toNat) (hn : 1 ≤ s.cfgN.toNat) :
    Memory.wf (openSession taps s) = true := by
  simp [Memory.wf, hl]
  omega

/-- Discarding both memories keeps the form of the memories. -/
theorem wf_discard (s : State) : Memory.wf { s with coef := none, hist := none } = true := rfl

/-- The memories have their form after reset. -/
theorem reset_wf : Memory.wf State.reset = true := rfl

end Sys2Proof.Machine
end

