-- ==== Sys2Proof/Laws/Params.lean ====
section
/-! SUPPORT. The capacities obey the constraints a model may assume (spec 00_scope.md R7): for use with `omega`. -/

namespace Sys2Proof.Machine

theorem nMax_even : nMax % 2 = 0 := by unfold nMax; omega
theorem nMax_ge : 20 ≤ nMax := by unfold nMax; omega
theorem nMax_lt : nMax < 2 ^ 24 := by unfold nMax; omega
theorem tsMax_ge : 4 ≤ tsMax := by unfold tsMax; omega
theorem tsMax_le : tsMax ≤ 4194048 := by unfold tsMax; omega
theorem rbsMax_ge : 1024 ≤ rbsMax := by unfold rbsMax; omega

theorem rbsMax_add_le : rbsMax + 4 * tsMax ≤ 2 ^ 24 := by
  have h := tsMax_le
  have h2 := Nat.mod_lt Config.rbsMaxFree (show 0 < 2 ^ 24 - 4 * tsMax - 1023 by omega)
  unfold rbsMax
  generalize Config.rbsMaxFree % (2 ^ 24 - 4 * tsMax - 1023) = r at *
  omega

theorem rbsMax_lt : rbsMax < 2 ^ 24 := by
  have h := tsMax_ge
  have h2 := rbsMax_add_le
  omega

theorem lMax_ge : 4 * tsMax ≤ lMax := by unfold lMax; omega

theorem lMax_lt : lMax < 2 ^ 24 := by
  have h := tsMax_le
  have h2 := Nat.mod_lt Config.lMaxFree (show 0 < 2 ^ 24 - 4 * tsMax by omega)
  unfold lMax
  omega

end Sys2Proof.Machine
end

