-- ==== Sys2Proof/Laws/Exec.lean ====
section
/-! SUPPORT. For each operation, all it can do when it answers a next state: the fault it raises and why, or the state it
leaves and what that took (spec 40 to 45, 60_exceptions.md R220). -/

namespace Sys2Proof.Machine

theorem execWrcfgN_next {v : Imm} {s t : State} (h : execWrcfgN v s = .next t) :
    (s.phase = .config ∧ t = respond [] { s with cfgN := v }) ∨ (s.phase ≠ .config ∧ t = raise .badPhase s) := by
  rcases requirePhase_next h with ⟨hp, hk⟩ | h
  · exact .inl ⟨hp, by cases hk; rfl⟩
  · exact .inr h

theorem execWrcfgTs_next {v : Imm} {s t : State} (h : execWrcfgTs v s = .next t) :
    (s.phase = .config ∧ t = respond [] { s with cfgTs := v }) ∨ (s.phase ≠ .config ∧ t = raise .badPhase s) := by
  rcases requirePhase_next h with ⟨hp, hk⟩ | h
  · exact .inl ⟨hp, by cases hk; rfl⟩
  · exact .inr h

theorem execWrcfgRbs_next {v : Imm} {s t : State} (h : execWrcfgRbs v s = .next t) :
    (s.phase = .config ∧ t = respond [] { s with cfgRbs := v }) ∨
      (s.phase ≠ .config ∧ t = raise .badPhase s) := by
  rcases requirePhase_next h with ⟨hp, hk⟩ | h
  · exact .inl ⟨hp, by cases hk; rfl⟩
  · exact .inr h

theorem execWrcfgBeta_next {x : Word} {s t : State} (h : execWrcfgBeta x s = .next t) :
    (s.phase = .config ∧ isNaN x = false ∧ t = respond [] { s with cfgBeta := clamp01 x }) ∨
      (s.phase = .config ∧ isNaN x = true ∧ t = raise .badConfig s) ∨
      (s.phase ≠ .config ∧ t = raise .badPhase s) := by
  rcases requirePhase_next h with ⟨hp, hk⟩ | h
  · split at hk
    · exact .inr (.inl ⟨hp, ‹_›, by cases hk; rfl⟩)
    · exact .inl ⟨hp, by simp_all, by cases hk; rfl⟩
  · exact .inr (.inr h)

theorem execRdcfg_next {r : CfgReg} {s t : State} (h : execRdcfg r s = .next t) :
    (s.phase ≠ .faulted ∧ t = respond [readCfg s r] s) ∨ (s.phase = .faulted ∧ t = raise .badPhase s) := by
  unfold execRdcfg at h
  split at h
  · exact .inr ⟨‹_›, by cases h; rfl⟩
  · exact .inl ⟨‹_›, by cases h; rfl⟩

theorem execRdstat_next {s t : State} (h : execRdstat s = .next t) :
    t = respond [(statusWord s).setWidth 64] s := by cases h; rfl

theorem execInit_next {s t : State} (h : execInit s = .next t) :
    (s.phase = .config ∧ LegalConfig s ∧
        ∃ taps, rrc hwTrig s.cfgBeta s.cfgN.toNat s.cfgTs.toNat = some taps ∧
          t = respond [] (openSession taps s)) ∨
      (s.phase = .config ∧ (t = raise .badConfig s ∨ t = raise .divZero s)) ∨
      (s.phase ≠ .config ∧ t = raise .badPhase s) := by
  rcases requirePhase_next h with ⟨hp, hk⟩ | h
  · split at hk
    · exact .inr (.inl ⟨hp, .inl (by cases hk; rfl)⟩)
    · split at hk
      · exact .inr (.inl ⟨hp, .inl (by cases hk; rfl)⟩)
      · split at hk
        · exact .inr (.inl ⟨hp, .inl (by cases hk; rfl)⟩)
        · split at hk
          · exact .inr (.inl ⟨hp, .inr (by cases hk; rfl)⟩)
          · rename_i hn ht hr _ taps htaps
            simp [legalN, legalTs, legalRbs] at hn ht hr
            exact .inl ⟨hp, ⟨hn.1, hn.2.1, hn.2.2, ht.1, ht.2, hr.1, hr.2⟩, taps, htaps, by cases hk; rfl⟩
  · exact .inr (.inr h)

theorem execMap_next {b : BitVec 2} {s t : State} (h : execMap b s = .next t) :
    (s.phase = .run ∧ t = respond (wordsOf [mapPoint constellation (b.getLsbD 1) (b.getLsbD 0)]) s) ∨
      (s.phase ≠ .run ∧ t = raise .badPhase s) := by
  rcases requirePhase_next h with ⟨hp, hk⟩ | h
  · exact .inl ⟨hp, by cases hk; rfl⟩
  · exact .inr h

theorem execUnpack_next {v : Byte} {s t : State} (h : execUnpack v s = .next t) :
    (s.phase = .run ∧ t = respond ((unpackBits v).map bitWord) s) ∨ (s.phase ≠ .run ∧ t = raise .badPhase s) := by
  rcases requirePhase_next h with ⟨hp, hk⟩ | h
  · exact .inl ⟨hp, by cases hk; rfl⟩
  · exact .inr h

theorem modBits_next {nb : Nat} {v : Byte} {s t : State} (h : modBits nb v s = .next t) :
    (s.phase = .run ∧ nb % 2 = 0 ∧
        t = respond (wordsOf (modulate constellation ((unpackBits v).take nb) s.cfgTs.toNat)) s) ∨
      (s.phase = .run ∧ nb % 2 = 1 ∧ t = raise .oddBits s) ∨ (s.phase ≠ .run ∧ t = raise .badPhase s) := by
  rcases requirePhase_next h with ⟨hp, hk⟩ | h
  · split at hk
    · exact .inr (.inl ⟨hp, ‹_›, by cases hk; rfl⟩)
    · exact .inl ⟨hp, by omega, by cases hk; rfl⟩
  · exact .inr (.inr h)

theorem execRdcoef_next {p : Imm} {s t : State} (h : execRdcoef p s = .next t) :
    (s.phase = .run ∧ p.toNat < s.cfgN.toNat ∧
        ∃ cs, s.coef = some cs ∧ cs.length = s.cfgN.toNat ∧ t = respond [cs.getD p.toNat zeroF] s) ∨
      (s.phase = .run ∧ s.cfgN.toNat ≤ p.toNat ∧ t = raise .indexRange s) ∨
      (s.phase ≠ .run ∧ t = raise .badPhase s) := by
  rcases requirePhase_next h with ⟨hp, hk⟩ | h
  · rcases withTap_next hk with ⟨hlt, cs, hc, hl, hk⟩ | hk
    · exact .inl ⟨hp, hlt, cs, hc, hl, by cases hk; rfl⟩
    · exact .inr (.inl ⟨hp, hk⟩)
  · exact .inr (.inr h)

theorem execWrcoef_next {p : Imm} {w : Word} {s t : State} (h : execWrcoef p w s = .next t) :
    (s.phase = .run ∧ p.toNat < s.cfgN.toNat ∧
        ∃ cs, s.coef = some cs ∧ cs.length = s.cfgN.toNat ∧
          t = respond [] { s with coef := some (cs.set p.toNat w) }) ∨
      (s.phase = .run ∧ s.cfgN.toNat ≤ p.toNat ∧ t = raise .indexRange s) ∨
      (s.phase ≠ .run ∧ t = raise .badPhase s) := by
  rcases requirePhase_next h with ⟨hp, hk⟩ | h
  · rcases withTap_next hk with ⟨hlt, cs, hc, hl, hk⟩ | hk
    · exact .inl ⟨hp, hlt, cs, hc, hl, by cases hk; rfl⟩
    · exact .inr (.inl ⟨hp, hk⟩)
  · exact .inr (.inr h)

theorem execFilter_next {l : Imm} {ps : List Word} {s t : State} (h : execFilter l ps s = .next t) :
    ps.length = 2 * l.toNat ∧
      ((s.phase = .run ∧ l.toNat ≤ lMax ∧
          ∃ c hs, s.coef = some c ∧ c.length = s.cfgN.toNat ∧ s.hist = some hs ∧ hs.length + 1 = c.length ∧
            t = respond (deliverWords s.freeCtr (wordsOf (fir c hs (samplesOf ps)).1))
              { s with
                hist := some (fir c hs (samplesOf ps)).2
                freeCtr := s.freeCtr + 2 * l.toNat }) ∨
        (s.phase = .run ∧ lMax < l.toNat ∧ t = raise .chunkRange s) ∨
        (s.phase ≠ .run ∧ t = raise .badPhase s)) := by
  unfold execFilter at h
  split at h
  · refine ⟨‹_›, ?_⟩
    rcases requirePhase_next h with ⟨hp, hk⟩ | h
    · split at hk
      · exact .inr (.inl ⟨hp, ‹_›, by cases hk; rfl⟩)
      · obtain ⟨c, hs, hc, hl, hh, hn, hk⟩ := withSession_next hk
        exact .inl ⟨hp, Nat.not_lt.mp ‹_›, c, hs, hc, hl, hh, hn, by cases hk; rfl⟩
    · exact .inr (.inr h)
  · cases h

theorem execPushb_next {v : Byte} {s t : State} (h : execPushb v s = .next t) :
    (s.phase = .run ∧
        ∃ c hs, s.coef = some c ∧ c.length = s.cfgN.toNat ∧ s.hist = some hs ∧ hs.length + 1 = c.length ∧
          t = respond []
            (stage (s.outq ++ deliverSamples s.freeCtr (fir c hs (byteChips v s)).1)
              { s with
                hist := some (fir c hs (byteChips v s)).2
                freeCtr := s.freeCtr + 2 * (byteChips v s).length })) ∨
      (s.phase ≠ .run ∧ t = raise .badPhase s) := by
  rcases requirePhase_next h with ⟨hp, hk⟩ | h
  · obtain ⟨c, hs, hc, hl, hh, hn, hk⟩ := withSession_next hk
    exact .inl ⟨hp, c, hs, hc, hl, hh, hn, by cases hk; rfl⟩
  · exact .inr h

theorem execFlush_next {s t : State} (h : execFlush s = .next t) :
    (s.phase = .run ∧
        t = respond [] { emit s.outq s with outq := [], coef := none, hist := none, phase := .config }) ∨
      (s.phase ≠ .run ∧ t = raise .badPhase s) := by
  rcases requirePhase_next h with ⟨hp, hk⟩ | h
  · exact .inl ⟨hp, by cases hk; rfl⟩
  · exact .inr h

end Sys2Proof.Machine
end

