-- ==== Sys2Proof/Laws/Flags.lean ====
section
/-! SUPPORT. The words of the `CMD` and `RSP` channels and of `STATUS` as numbers, field by field (spec 30_encoding.md
R92, R101; 10_state.md R45), and the response words most operations send. -/

namespace Sys2Proof

/-- A concatenation as a number. -/
theorem append_toNat {m n : Nat} (x : BitVec m) (y : BitVec n) :
    (x ++ y).toNat = x.toNat * 2 ^ n + y.toNat := by
  rw [BitVec.toNat_append, ← Nat.shiftLeft_add_eq_or_of_lt y.isLt, Nat.shiftLeft_eq]

theorem cmdWord_toNat (opc a : BitVec 4) (imm : Imm) :
    (cmdWord opc a imm).toNat = opc.toNat * 2 ^ 28 + a.toNat * 2 ^ 24 + imm.toNat := by
  show (opc ++ a ++ imm).toNat = _
  rw [append_toNat, append_toNat]
  omega

namespace Machine

theorem rspWord_toNat (nw : Imm) (code : BitVec 4) :
    (rspWord nw code).toNat = nw.toNat * 256 + code.toNat := by
  show (nw ++ 0#4 ++ code).toNat = _
  rw [append_toNat, append_toNat]
  simp
  omega

theorem statusWord_toNat (s : State) :
    (statusWord s).toNat =
      s.outq.length % 2 ^ 24 * 256 + (fcodeBits s.fcode).toNat * 16 + (phaseBits s.phase).toNat := by
  show (BitVec.ofNat 24 s.outq.length ++ fcodeBits s.fcode ++ 0#2 ++ phaseBits s.phase).toNat = _
  simp only [append_toNat]
  simp
  omega

/-- The response to `n < 2²⁴` result words is `256·n`. -/
theorem rspWord_ok {n : Nat} (_h : n < 2 ^ 24) :
    rspWord (BitVec.ofNat 24 n) 0#4 = BitVec.ofNat 32 (n * 256) := by
  apply BitVec.eq_of_toNat_eq
  rw [rspWord_toNat]
  simp
  omega

@[simp] theorem rspWord_ok_zero : rspWord (BitVec.ofNat 24 0) 0#4 = 0#32 := by decide
@[simp] theorem rspWord_ok_one : rspWord (BitVec.ofNat 24 1) 0#4 = 0x100#32 := by decide
@[simp] theorem rspWord_ok_two : rspWord (BitVec.ofNat 24 2) 0#4 = 0x200#32 := by decide
@[simp] theorem rspWord_ok_eight : rspWord (BitVec.ofNat 24 8) 0#4 = 0x800#32 := by decide

end Machine

end Sys2Proof
end

