-- ==== Sys2Proof/Laws/PerInstr.lean ====
section
/-! SUPPORT. The per-instruction family `MatchesRow`: the encoder's command word lies in the instruction's own
row of the opcode table (spec 30_encoding.md R95). -/

namespace Sys2Proof.Laws.MatchesRow

/-- The command word under the row's mask is the row's pattern. -/
def Statement (i : Instr) : Prop := encodeCmd i &&& (rowOf i).mask = (rowOf i).pattern

/-- A row is matched field by field. -/
theorem of_fields {opc a mo ma po pa : BitVec 4} {imm mi pi : Imm} {mask pattern : Cmd}
    (hm : mask = cmdWord mo ma mi) (hp : pattern = cmdWord po pa pi)
    (ho : opc &&& mo = po) (ha : a &&& ma = pa) (hi : imm &&& mi = pi) :
    cmdWord opc a imm &&& mask = pattern := by
  rw [hm, hp, cmdWord_and, ho, ha, hi]

theorem wrcfgN (v : Imm) : Statement (.wrcfgN v) :=
  of_fields (mo := 15#4) (ma := 15#4) (mi := 0#24) (po := 1#4) (pa := 0#4) (pi := 0#24)
    rfl rfl (by decide) (by decide) (by simp)

theorem wrcfgTs (v : Imm) : Statement (.wrcfgTs v) :=
  of_fields (mo := 15#4) (ma := 15#4) (mi := 0#24) (po := 1#4) (pa := 1#4) (pi := 0#24)
    rfl rfl (by decide) (by decide) (by simp)

theorem wrcfgRbs (v : Imm) : Statement (.wrcfgRbs v) :=
  of_fields (mo := 15#4) (ma := 15#4) (mi := 0#24) (po := 1#4) (pa := 2#4) (pi := 0#24)
    rfl rfl (by decide) (by decide) (by simp)

theorem wrcfgBeta (x : Word) : Statement (.wrcfgBeta x) :=
  of_fields (mo := 15#4) (ma := 15#4) (mi := 0xFFFFFF#24) (po := 1#4) (pa := 3#4) (pi := 0#24)
    rfl rfl (by decide) (by decide) (by decide)

theorem rdcfg (r : CfgReg) : Statement (.rdcfg r) :=
  of_fields (mo := 15#4) (ma := 12#4) (mi := 0xFFFFFF#24) (po := 2#4) (pa := 0#4) (pi := 0#24)
    rfl rfl (by decide) (by cases r <;> decide) (by decide)

theorem rdstat : Statement (.rdstat) :=
  of_fields (mo := 15#4) (ma := 15#4) (mi := 0xFFFFFF#24) (po := 3#4) (pa := 0#4) (pi := 0#24)
    rfl rfl (by decide) (by decide) (by decide)

theorem init : Statement (.init) :=
  of_fields (mo := 15#4) (ma := 15#4) (mi := 0xFFFFFF#24) (po := 4#4) (pa := 0#4) (pi := 0#24)
    rfl rfl (by decide) (by decide) (by decide)

theorem map (b : BitVec 2) : Statement (.map b) :=
  of_fields (mo := 15#4) (ma := 15#4) (mi := 0xFFFFFC#24) (po := 5#4) (pa := 0#4) (pi := 0#24)
    rfl rfl (by decide) (by decide) (by revert b; decide)

theorem unpack (v : Byte) : Statement (.unpack v) :=
  of_fields (mo := 15#4) (ma := 15#4) (mi := 0xFFFF00#24) (po := 6#4) (pa := 0#4) (pi := 0#24)
    rfl rfl (by decide) (by decide) (byteImm_and_high v)

theorem mod (nb : BitVec 3) (v : Byte) : Statement (.mod nb v) :=
  of_fields (mo := 15#4) (ma := 8#4) (mi := 0xFFFF00#24) (po := 7#4) (pa := 0#4) (pi := 0#24)
    rfl rfl (by decide) (by revert nb; decide) (byteImm_and_high v)

theorem modNb8 (v : Byte) : Statement (.modNb8 v) :=
  of_fields (mo := 15#4) (ma := 15#4) (mi := 0xFFFF00#24) (po := 7#4) (pa := 8#4) (pi := 0#24)
    rfl rfl (by decide) (by decide) (byteImm_and_high v)

theorem rdcoef (p : Imm) : Statement (.rdcoef p) :=
  of_fields (mo := 15#4) (ma := 15#4) (mi := 0#24) (po := 8#4) (pa := 0#4) (pi := 0#24)
    rfl rfl (by decide) (by decide) (by simp)

theorem wrcoef (p : Imm) (c : Word) : Statement (.wrcoef p c) :=
  of_fields (mo := 15#4) (ma := 15#4) (mi := 0#24) (po := 9#4) (pa := 0#4) (pi := 0#24)
    rfl rfl (by decide) (by decide) (by simp)

theorem filter (l : Imm) (ps : List Word) : Statement (.filter l ps) :=
  of_fields (mo := 15#4) (ma := 15#4) (mi := 0#24) (po := 10#4) (pa := 0#4) (pi := 0#24)
    rfl rfl (by decide) (by decide) (by simp)

theorem pushb (v : Byte) : Statement (.pushb v) :=
  of_fields (mo := 15#4) (ma := 15#4) (mi := 0xFFFF00#24) (po := 11#4) (pa := 0#4) (pi := 0#24)
    rfl rfl (by decide) (by decide) (byteImm_and_high v)

theorem flush : Statement (.flush) :=
  of_fields (mo := 15#4) (ma := 15#4) (mi := 0xFFFFFF#24) (po := 12#4) (pa := 0#4) (pi := 0#24)
    rfl rfl (by decide) (by decide) (by decide)

end Sys2Proof.Laws.MatchesRow
end

