-- ==== Sys2Proof/Laws/Step.lean ====
section
/-! SUPPORT. What the fetch and the step can do, said once. -/

namespace Sys2Proof.Machine

/-- A step is settled by the fetch or runs one decoded operation. -/
theorem step_next {s t : State} (h : step s = .next t) :
    fetch s = .settled t ∨ ∃ i u, fetch s = .run i u ∧ exec i u = .next t := by
  unfold step at h
  split at h
  · exact .inl (by simp_all)
  · exact .inr ⟨_, _, ‹_›, h⟩
  · cases h

/-- A fetched operation is the decoding of the host's next move, which is consumed. -/
theorem fetch_run {s u : State} {i : Instr} (h : fetch s = .run i u) :
    ∃ w ps rest, s.inbox = .op w ps :: rest ∧ decode w ps = .ok i ∧ u = { s with inbox := rest } := by
  unfold fetch at h
  split at h
  · cases h
  · cases h
  · rename_i w ps rest hin
    split at h <;> cases h
    exact ⟨w, ps, rest, hin, ‹_›, rfl⟩

/-- A move settled without an operation: none, a reset, or an illegal command word. -/
theorem fetch_settled {s t : State} (h : fetch s = .settled t) :
    (s.inbox = [] ∧ t = s) ∨
      (∃ rest, s.inbox = .reset :: rest ∧ t = resetBlock { s with inbox := rest }) ∨
      ∃ w ps rest, s.inbox = .op w ps :: rest ∧ t = raise .illegalOp { s with inbox := rest } := by
  unfold fetch at h
  split at h
  · exact .inl ⟨‹_›, by cases h; rfl⟩
  · exact .inr (.inl ⟨_, ‹_›, by cases h; rfl⟩)
  · rename_i w ps rest hin
    split at h <;> cases h <;> exact .inr (.inr ⟨w, ps, rest, hin, rfl⟩)

/-- A command word the decoder rejects raises `ILLEGAL_OP` (R211). The decoder of a command word never answers
`payloadLength`. -/
theorem raisesIllegalOp_of_error {w : Cmd} {e : DecodeError} (h : decodeCmd w = .error e)
    (he : e ≠ .payloadLength) : RaisesIllegalOp w := by
  intro s rest hin
  unfold step fetch
  simp only [hin, decode, h]
  cases e <;> simp_all

end Sys2Proof.Machine
end

