-- ==== Sys2Proof/Tests/Slice0.lean ====
section
/-! SUPPORT. Tests. Expected values come from spec/95_test_vectors.md or from 30_encoding.md section 8, named at each
test; trigonometric values stand in a small table taken from 95_test_vectors.md. Then, for each obligation with
hypotheses, a witness: concrete data that meet them. -/

namespace Sys2Proof.Tests

open Sys2Proof.Machine

/-! ### Helpers -/

/-- The outcome is a next state with the property. -/
def nx (o : Host.Outcome State Fault Refusal) (p : State → Bool) : Bool :=
  match o with
  | .next t => p t
  | .fault _ => false
  | .refused _ => false

/-- A session with `N = 4`, `Ts = 1`, `RBS = 4` and the taps 1, 2, 3, 4 (V-FIR1). -/
def runS : State :=
  { State.reset with
    cfgN := 4#24
    cfgTs := 1#24
    cfgRbs := 4#24
    phase := .run
    coef := some [0x3FF0000000000000#64, 0x4000000000000000#64, 0x4008000000000000#64, 0x4010000000000000#64]
    hist := some [czero, czero, czero] }

/-- Phase `FAULTED` after `ODD_BITS` in that session. -/
def faultS : State := { runS with phase := .faulted, fcode := some .oddBits }

/-- `reset` with the host's next move placed. -/
def host (w : Cmd) (ps : List Word) : State := { State.reset with inbox := [.op w ps] }

/-! ### Well-formedness -/

/-- `FILTER 1` with no payload is refused by the check, and by the machine (R97). -/
theorem test_filter_without_payload_is_ill_formed :
    (Instr.filter 1#24 []).wellFormed = false ∧ exec (.filter 1#24 []) runS = .refused .malformedOperation :=
  ⟨rfl, rfl⟩

theorem test_filter_with_payload_is_well_formed : (Instr.filter 1#24 [0#64, 0#64]).wellFormed = true := by decide

/-! ### Decoding: words written from the encoding of R92 and R94, `OPC ‖ A ‖ IMM` -/

theorem test_decode_wrcfg_n : decode (0b0001_0000_000000000000000000010100#32) [] = .ok (.wrcfgN 20#24) := by decide
theorem test_decode_wrcfg_ts : decode (0b0001_0001_000000000000000000000100#32) [] = .ok (.wrcfgTs 4#24) := by decide
theorem test_decode_wrcfg_rbs :
    decode (0b0001_0010_000000000000010000000000#32) [] = .ok (.wrcfgRbs 1024#24) := by decide
theorem test_decode_wrcfg_beta :
    decode (0b0001_0011_000000000000000000000000#32) [0x3FD0000000000000#64] =
      .ok (.wrcfgBeta 0x3FD0000000000000#64) := by decide
theorem test_decode_rdcfg : decode (0b0010_0011_000000000000000000000000#32) [] = .ok (.rdcfg .beta) := by decide
theorem test_decode_rdstat : decode (0b0011_0000_000000000000000000000000#32) [] = .ok .rdstat := by decide
theorem test_decode_init : decode (0b0100_0000_000000000000000000000000#32) [] = .ok .init := by decide
theorem test_decode_map : decode (0b0101_0000_000000000000000000000010#32) [] = .ok (.map 0b10#2) := by decide
theorem test_decode_unpack : decode (0b0110_0000_000000000000000011100100#32) [] = .ok (.unpack 0xE4#8) := by decide
theorem test_decode_mod : decode (0b0111_0011_000000000000000011100100#32) [] = .ok (.mod 3#3 0xE4#8) := by decide
theorem test_decode_mod_nb8 : decode (0b0111_1000_000000000000000011100100#32) [] = .ok (.modNb8 0xE4#8) := by decide
theorem test_decode_rdcoef : decode (0b1000_0000_000000000000000000001010#32) [] = .ok (.rdcoef 10#24) := by decide
theorem test_decode_wrcoef :
    decode (0b1001_0000_000000000000000000000011#32) [0x3FF0000000000000#64] =
      .ok (.wrcoef 3#24 0x3FF0000000000000#64) := by decide
theorem test_decode_filter :
    decode (0b1010_0000_000000000000000000000001#32) [7#64, 9#64] = .ok (.filter 1#24 [7#64, 9#64]) := by decide
theorem test_decode_pushb : decode (0b1011_0000_000000000000000011100100#32) [] = .ok (.pushb 0xE4#8) := by decide
theorem test_decode_flush : decode (0b1100_0000_000000000000000000000000#32) [] = .ok .flush := by decide

/-- V-ENC: the words marked illegal. -/
theorem test_decode_illegal :
    [0x13000001#32, 0x14000000#32, 0x20000001#32, 0x31000000#32, 0x50000004#32, 0x60000100#32, 0x790000E4#32,
      0x81000000#32, 0xB10000E4#32, 0xC0000001#32, 0x00000000#32, 0xD0000000#32, 0xE0000000#32, 0xF0000000#32,
      0xFFFFFFFF#32].all (fun w => (decode w []).toOption == none) = true := by decide

/-- The sixteen rows of the table are disjoint (R95). -/
theorem test_rows_disjoint :
    opcodeRows.Pairwise (fun r q => (r.pattern ^^^ q.pattern) &&& r.mask &&& q.mask ≠ 0#32) := by decide

theorem test_decode_table_word :
    decodeTableWord 32 0xA0000001 = some (.filter 1#24 [0#64, 0#64]) ∧ decodeTableWord 32 0x40000001 = none := by
  decide

/-! ### Configuration and status: V-CFG, S9 -/

theorem test_wrcfg_ints :
    (nx (exec (.wrcfgN 7#24) State.reset) (fun t => t.cfgN == 7#24 && t.rsp == [0#32]) &&
      nx (exec (.wrcfgTs 0#24) State.reset) (fun t => t.cfgTs == 0#24 && t.cfgN == 20#24) &&
      nx (exec (.wrcfgRbs 12#24) State.reset) (fun t => t.cfgRbs == 12#24 && t.cfgTs == 4#24)) = true := by decide

/-- V-CFG: 1.5, −0.3 and −0. -/
theorem test_wrcfg_beta_clamps :
    (nx (exec (.wrcfgBeta 0x3FF8000000000000#64) State.reset) (fun t => t.cfgBeta == 0x3FF0000000000000#64) &&
      nx (exec (.wrcfgBeta 0xBFD3333333333333#64) State.reset) (fun t => t.cfgBeta == 0#64) &&
      nx (exec (.wrcfgBeta 0x8000000000000000#64) State.reset)
        (fun t => t.cfgBeta == 0x8000000000000000#64)) = true := by decide +kernel

/-- V-CFG: a NaN faults; `RDSTAT` then gives 0x32. -/
theorem test_wrcfg_beta_nan :
    nx (exec (.wrcfgBeta 0x7FF8000000000000#64) State.reset)
      (fun t => t.rsp == [3#32] && statusWord t == 0x32#32 && t.cfgBeta == 0x3FD0000000000000#64) = true := by
  decide +kernel

/-- S9. -/
theorem test_rdcfg :
    (nx (exec (.rdcfg .n) State.reset) (fun t => t.rdata == [0x14#64] && t.rsp == [0x100#32]) &&
      nx (exec (.rdcfg .rbs) State.reset) (fun t => t.rdata == [0x400#64]) &&
      nx (exec (.rdcfg .beta) State.reset) (fun t => t.rdata == [0x3FD0000000000000#64])) = true := by decide

/-- P4: 16 staged samples and `ODD_BITS`. -/
theorem test_rdstat :
    nx (exec .rdstat { faultS with outq := List.replicate 16 czero })
      (fun t => t.rdata == [0x1042#64] && t.rsp == [0x100#32] && t.fcode == some .oddBits) = true := by decide

/-! ### Sessions -/

/-- V-CFG: `INIT` from reset, run as the first operation after reset. -/
theorem test_init :
    nx (step (State.reset.withFetchWord 32 0x40000000))
      (fun t => t.phase == .run && t.rsp == [0#32] && t.hist == some (List.replicate 19 czero) &&
        t.coef.map List.length == some 20 && t.inbox == []) = true := by decide +kernel

/-- V-CFG: `N = 7`; V-RRC7 (a): a zero denominator. -/
theorem test_init_faults :
    (nx (exec .init { State.reset with cfgN := 7#24 }) (fun t => t.rsp == [3#32] && t.phase == .faulted) &&
      nx (exec .init { State.reset with cfgN := 8#24, cfgTs := 1#24, cfgBeta := 0x3FB5555555555556#64 })
        (fun t => t.rsp == [7#32] && t.coef == none && t.fcode == some .divZero)) = true := by decide +kernel

/-- `N = 4`, `Ts = 1`: four samples of one byte reach `RBS = 4` and go out as one burst of eight words (P1). -/
theorem test_pushb_burst :
    nx (exec (.pushb 0#8) runS)
      (fun t => t.sink.map SinkWord.last == [false, false, false, false, false, false, false, true] &&
        t.outq == [] && t.rsp == [0#32]) = true := by decide +kernel

/-- With `RBS = 5` the same four samples wait; nothing is sent. -/
theorem test_pushb_stages :
    nx (exec (.pushb 0x80#8) { runS with cfgRbs := 5#24 })
      (fun t => t.sink == [] && t.outq.length == 4 && t.rsp == [0#32] && t.hist.map List.length == some 3) = true := by
  decide +kernel

/-- `FLUSH` sends what is staged, last word marked, and ends the session. -/
theorem test_flush :
    nx (exec .flush { runS with outq := [⟨1#64, 2#64⟩, ⟨3#64, 4#64⟩] })
      (fun t => t.sink == [⟨1#64, false⟩, ⟨2#64, false⟩, ⟨3#64, false⟩, ⟨4#64, true⟩] && t.phase == .config &&
        t.coef == none && t.cfgN == 4#24) = true := by decide

/-! ### Mapper, unpacker, modulator -/

/-- Section 8 of 30_encoding.md: `MAP 0b10` is the pair (1, 0), point 3. -/
theorem test_map : exec (.map 0b10#2) runS =
    .next { runS with rsp := [0x200#32], rdata := [(constellation 3).re, (constellation 3).im] } := rfl

/-- S10. -/
theorem test_unpack :
    nx (exec (.unpack 0xE4#8) runS)
      (fun t => t.rdata == [1#64, 1#64, 1#64, 0#64, 0#64, 1#64, 0#64, 0#64] && t.rsp == [0x800#32]) = true := by
  decide

/-- V-MOD: `Ts = 3`, `MOD 4, 0x60` is point 1 three times, then point 3 three times. -/
theorem test_mod : exec (.mod 4#3 0x60#8) { runS with cfgTs := 3#24 } =
    .next { runS with
      cfgTs := 3#24
      rsp := [0xC00#32]
      rdata := wordsOf (List.replicate 3 (constellation 1) ++ List.replicate 3 (constellation 3)) } := rfl

/-- V-MOD: an odd count; the empty count. -/
theorem test_mod_counts :
    (nx (exec (.mod 3#3 0xE4#8) runS) (fun t => t.rsp == [4#32] && t.rdata == []) &&
      nx (exec (.mod 0#3 0xAA#8) runS) (fun t => t.rsp == [0#32] && t.rdata == [])) = true := by decide

/-- V-MOD: `Ts = 1`, `MOD 8, 0x1B` is the points 2, 1, 3, 0. -/
theorem test_mod_nb8 : exec (.modNb8 0x1B#8) runS =
    .next { runS with
      rsp := [0x800#32]
      rdata := wordsOf [constellation 2, constellation 1, constellation 3, constellation 0] } := rfl

/-! ### Coefficients and filter -/

theorem test_rdcoef :
    (nx (exec (.rdcoef 3#24) runS) (fun t => t.rdata == [0x4010000000000000#64]) &&
      nx (exec (.rdcoef 4#24) runS) (fun t => t.rsp == [5#32] && t.rdata == [])) = true := by decide

theorem test_wrcoef :
    (nx (exec (.wrcoef 1#24 0xFFF8000000000001#64) runS)
        (fun t => t.coef == some [0x3FF0000000000000#64, 0xFFF8000000000001#64, 0x4008000000000000#64,
          0x4010000000000000#64]) &&
      nx (exec (.wrcoef 4#24 0#64) runS) (fun t => t.rsp == [5#32] && t.coef == runS.coef)) = true := by decide

/-- P3: `FILTER 2, (1, 0), (2, −1)`. -/
theorem test_filter :
    nx (exec (.filter 2#24 [0x3FF0000000000000#64, 0#64, 0x4000000000000000#64, 0xBFF0000000000000#64]) runS)
      (fun t => t.rdata == [0x3FF0000000000000#64, 0#64, 0x4010000000000000#64, 0xBFF0000000000000#64] &&
        t.rsp == [0x400#32] &&
        t.hist == some [czero, ⟨0x3FF0000000000000#64, 0#64⟩,
          ⟨0x4000000000000000#64, 0xBFF0000000000000#64⟩]) = true := by decide +kernel

/-- V-FIR5. -/
theorem test_fir5 :
    fir [0x3FE0000000000000#64, 0xBFD0000000000000#64] [⟨0x4020000000000000#64, 0x4010000000000000#64⟩]
        [⟨0x4000000000000000#64, 0x4000000000000000#64⟩, ⟨0x4010000000000000#64, 0xC010000000000000#64⟩] =
      ([⟨0xBFF0000000000000#64, 0#64⟩, ⟨0x3FF8000000000000#64, 0xC004000000000000#64⟩],
        [⟨0x4010000000000000#64, 0xC010000000000000#64⟩]) := by decide +kernel

/-! ### Faults, reset and idle: V-FLT -/

theorem test_faulted_answers :
    (nx (exec (.pushb 0#8) faultS) (fun t => t.rsp == [2#32] && t.fcode == some .oddBits) &&
      nx (step { faultS with inbox := [.op 0xFFFFFFFF#32 []] })
        (fun t => t.rsp == [1#32] && t.fcode == some .oddBits)) = true := by decide

theorem test_decoding_before_phase :
    (nx (step (host 0x730001E4#32 [])) (fun t => t.rsp == [1#32] && statusWord t == 0x12#32) &&
      nx (step (host 0x730000E4#32 [])) (fun t => t.rsp == [2#32] && statusWord t == 0x22#32)) = true := by decide

theorem test_reset_move : step { faultS with inbox := [.reset] } = .next State.reset := rfl

theorem test_idle : step State.reset = .next State.reset := rfl

/-! ### Numbers and taps -/

/-- 2/PI, 4/PI − 1, √2 and a tie (V-RRC1; 00_scope.md R18; 1 + 2⁻⁵³ rounds to even). -/
theorem test_numbers :
    divF twoF piF = 0x3FE45F306DC9C883#64 ∧ subF (divF fourF piF) oneF = 0x3FD17CC1B727220C#64 ∧
      sqrt2F = 0x3FF6A09E667F3BCD#64 ∧ addF oneF 0x3CA0000000000000#64 = oneF ∧
      mulF 0x0010000000000000#64 0x3FE0000000000000#64 = 0x0008000000000000#64 ∧
      addF 0x7FEFFFFFFFFFFFFF#64 0x7FEFFFFFFFFFFFFF#64 = 0x7FF0000000000000#64 := by decide +kernel

/-- Signs of zeros and infinities by IEEE-754: a product and a quotient with a negative infinity, an underflow to `−0`, an
exact zero sum, and the roots of `−0` and of a negative number. -/
theorem test_special_operands :
    mulF 0xFFF0000000000000#64 0x4000000000000000#64 = 0xFFF0000000000000#64 ∧
      divF 0x3FF0000000000000#64 0xFFF0000000000000#64 = 0x8000000000000000#64 ∧
      mulF 1#64 0x8000000000000001#64 = 0x8000000000000000#64 ∧
      addF 0x3FF0000000000000#64 0xBFF0000000000000#64 = 0#64 ∧
      sqrtF 0x8000000000000000#64 = 0x8000000000000000#64 ∧ isNaN (sqrtF 0xBFF0000000000000#64) = true := by
  decide +kernel

/-- S2: the angles of the four points. -/
theorem test_angles :
    [0, 1, 2, 3].map angle =
      [0x3FE921FB54442D18#64, 0x4002D97C7F3321D2#64, 0x400F6A7A2955385E#64, 0x4015FDBBE9BBA775#64] := by
  decide +kernel

/-- The sine and cosine of ±PI/2 as V-RRC5 has them, and the cosine of the binary64 number next to −3·PI/2,
correctly rounded; the oracle of V-RRC5 and no other argument. -/
def quarterTrig : Trig where
  sin := fun x =>
    if x = 0x3FF921FB54442D18#64 then 0x3FF0000000000000#64
    else if x = 0xBFF921FB54442D18#64 then 0xBFF0000000000000#64 else 0x7FF8000000000000#64
  cos := fun x =>
    if x = 0x3FF921FB54442D18#64 then 0x3C91A62633145C07#64
    else if x = 0xC012D97C7F3321D2#64 then 0xBCAA79394C9E8A0A#64 else 0x7FF8000000000000#64

/-- V-RRC5, `N = 4`, `Ts = 2`, β = 0.5: branches G, S, Z, S. -/
theorem test_rrc5 :
    rrc quarterTrig 0x3FE0000000000000#64 4 2 =
      some [0xBFBB2995E7B7B601#64, 0x3FE284283DAF376F#64, 0x3FF22F9836E4E442#64, 0x3FE284283DAF376F#64] := by
  decide +kernel

/-- V-RRC7 (a) and (b): a zero denominator, whatever `SIN` and `COS` are. -/
theorem test_rrc7 :
    rrc hwTrig 0x3FB5555555555556#64 8 1 = none ∧ rrc hwTrig 0x3FD4924924924925#64 16 9 = none := by
  decide +kernel

/-! ### Witnesses: for each obligation with hypotheses, data that meet them -/

/-- The clauses that end in `RaisesIllegalOp`, a word for each at the boundary of its condition. -/
theorem witness_illegal_word_clauses :
    (opcField 0x14000000#32 = 1#4 ∧ 3 < (aField 0x14000000#32).toNat) ∧
      (opcField 0x13000001#32 = 1#4 ∧ aField 0x13000001#32 = 3#4 ∧ immField 0x13000001#32 ≠ 0#24) ∧
      (opcField 0x24000000#32 = 2#4 ∧ 3 < (aField 0x24000000#32).toNat ∧ immField 0x20000001#32 ≠ 0#24) ∧
      (opcField 0x40000001#32 = 4#4 ∧ opcField 0xC1000000#32 = 12#4) ∧
      (opcField 0x50000004#32 = 5#4 ∧ 4 ≤ (immField 0x50000004#32).toNat ∧ aField 0x51000000#32 ≠ 0#4) ∧
      (opcField 0x60000100#32 = 6#4 ∧ 256 ≤ (immField 0x60000100#32).toNat ∧ aField 0x61000000#32 ≠ 0#4) ∧
      (opcField 0x79000000#32 = 7#4 ∧ 8 < (aField 0x79000000#32).toNat ∧ 256 ≤ (immField 0x70000100#32).toNat) ∧
      (opcField 0x81000000#32 = 8#4 ∧ aField 0x81000000#32 ≠ 0#4) ∧
      (opcField 0x91000000#32 = 9#4 ∧ aField 0x91000000#32 ≠ 0#4) ∧
      (opcField 0xA1000000#32 = 10#4 ∧ aField 0xA1000000#32 ≠ 0#4) ∧
      (opcField 0xB0000100#32 = 11#4 ∧ 256 ≤ (immField 0xB0000100#32).toNat ∧ aField 0xB1000000#32 ≠ 0#4) := by
  decide

theorem witness_ResetMoveRestoresTheResetState :
    { faultS with inbox := [.reset] }.inbox = .reset :: [] ∧ State.reset.inbox = [] := ⟨rfl, rfl⟩

theorem witness_DecodeOfEncode :
    [Instr.wrcfgBeta 1#64, .filter 0#24 [], .filter 1#24 [1#64, 2#64], .flush].all Instr.wellFormed = true := by decide

theorem witness_EncodeOfDecode :
    decode 0xA0000001#32 [1#64, 2#64] = .ok (.filter 1#24 [1#64, 2#64]) := by decide

theorem witness_DecoderAcceptsExactlyTheTableRows :
    decodeCmd 0x770000FF#32 = .ok (.mod 7#3 0xFF#8) ∧ rowOf (.mod 7#3 0xFF#8) ∈ opcodeRows ∧
      0x770000FF#32 &&& (rowOf (.mod 7#3 0xFF#8)).mask = (rowOf (.mod 7#3 0xFF#8)).pattern := by decide

theorem witness_StepRunsTheDecodedOperation :
    (host 0xB00000E4#32 []).inbox = .op 0xB00000E4#32 [] :: [] ∧ decode 0xB00000E4#32 [] = .ok (.pushb 0xE4#8) := by
  decide

theorem witness_IllegalWordFaultsInEveryPhase :
    (host 0#32 []).inbox = .op 0#32 [] :: [] ∧ decodeCmd 0#32 = .error .reservedOpcode := by decide

/-- A legal word without its payload word, and an illegal word with one. -/
theorem witness_MalformedPairIsRefused :
    ((host 0x13000000#32 []).inbox = .op 0x13000000#32 [] :: [] ∧
        (∀ i, decodeCmd 0x13000000#32 = .ok i → ([] : List Word).length ≠ i.payloadWords) ∧
        ∀ e, decodeCmd 0x13000000#32 = .error e → ([] : List Word) ≠ []) ∧
      ((host 0#32 [1#64]).inbox = .op 0#32 [1#64] :: [] ∧
        (∀ i, decodeCmd 0#32 = .ok i → [1#64].length ≠ i.payloadWords) ∧
        ∀ e, decodeCmd 0#32 = .error e → [1#64] ≠ []) := by
  have h : decodeCmd 0x13000000#32 = .ok (.wrcfgBeta 0#64) := by decide
  have h' : decodeCmd 0#32 = .error .reservedOpcode := by decide
  refine ⟨⟨rfl, ?_, ?_⟩, ⟨rfl, ?_, ?_⟩⟩ <;> simp [h, h', Instr.payloadWords]

/-- The clauses of the stops, one state each: no `COEF`, `COEF` one short, no `H`, `H` one short; and a payload one
word short. -/
theorem witness_MeaningsStopOnlyOutsideTheSpec :
    [0#64].length ≠ 2 * (1#24).toNat ∧
      (runS.phase = .run ∧ [0#64, 0#64].length = 2 * (1#24).toNat ∧ (1#24).toNat ≤ lMax ∧
        (3#24).toNat < runS.cfgN.toNat) ∧
      ({ runS with coef := none }.coef = none) ∧
      (∃ c, { runS with coef := some [1#64, 2#64, 3#64] }.coef = some c ∧ c.length ≠ runS.cfgN.toNat) ∧
      (∃ c, runS.coef = some c ∧ c.length = runS.cfgN.toNat ∧
        { runS with hist := none }.hist = none ∧
        ∃ h, { runS with hist := some [czero, czero] }.hist = some h ∧ h.length + 1 ≠ runS.cfgN.toNat) := by
  have := lMax_ge
  have := tsMax_ge
  refine ⟨by decide, ⟨rfl, rfl, ?_, by decide⟩, rfl, ⟨_, rfl, by decide⟩, ⟨_, rfl, by decide, rfl, _, rfl, by decide⟩⟩
  show 1 ≤ lMax
  omega

/-- The other direction of the same statement: a state of the invariant in each phase, a well-formed operation. -/
theorem witness_MeaningsStopOnlyOutsideTheSpec_completes :
    BlockInv State.reset ∧ BlockInv runS ∧ BlockInv faultS ∧ (Instr.filter 1#24 [1#64, 2#64]).wellFormed = true :=
  ⟨by decide +kernel, by decide +kernel, by decide +kernel, by decide⟩

theorem witness_FaultEntryWritesOnlyStatus : State.reset.phase ≠ .faulted ∧ runS.phase ≠ .faulted := by decide

theorem witness_FaultsArePrecise :
    exec .init runS = .next (raise .badPhase runS) ∧ runS.phase ≠ .faulted ∧
      (raise .badPhase runS).phase = .faulted := ⟨rfl, by decide, rfl⟩

theorem witness_FaultedPhaseAnswersOnlyStatus :
    faultS.phase = .faulted ∧ { faultS with inbox := [.op 0x40000000#32 []] }.inbox = .op 0x40000000#32 [] :: [] ∧
      decode 0x40000000#32 [] = .ok .init ∧ Instr.init ≠ .rdstat ∧ decode 0x30000000#32 [] = .ok .rdstat ∧
      decodeCmd 0#32 = .error .reservedOpcode := by decide

/-- Each of the three ways a step in `FAULTED` can go. -/
theorem witness_FaultedIsLeftOnlyByReset :
    (faultS.phase = .faulted ∧ step faultS = .next faultS) ∧
      step { faultS with inbox := [.reset] } = .next State.reset ∧
      step { faultS with inbox := [.op 0xC0000000#32 []] } = .next (raise .badPhase faultS) :=
  ⟨⟨rfl, rfl⟩, rfl, rfl⟩

theorem witness_PhaseMovesOnlyByInitFlushAndFaults :
    (nx (exec .init State.reset) (fun t => t.phase == .run) && nx (exec .flush runS) (fun t => t.phase == .config) &&
      nx (exec .flush State.reset) (fun t => t.phase == .faulted)) = true := by decide +kernel

theorem witness_PhaseTableDecidesBadPhase :
    Instr.flush.wellFormed = true ∧ legalIn .flush State.reset.phase = false ∧ legalIn .flush runS.phase = true ∧
      nx (exec .flush runS) (fun t => t.rsp != runS.rsp ++ [2#32]) = true := by decide

/-- States of the invariant in each phase, and a step from each. -/
theorem witness_InvIsKeptByEveryStep :
    BlockInv (host 0x40000000#32 []) ∧ nx (step (host 0x40000000#32 [])) (fun t => t.phase == .run) = true ∧
      BlockInv { runS with inbox := [.op 0xC0000000#32 []] } ∧
      nx (step { runS with inbox := [.op 0xC0000000#32 []] }) (fun t => t.phase == .config) = true ∧
      BlockInv faultS ∧ step faultS = .next faultS :=
  ⟨by decide +kernel, by decide +kernel, by decide +kernel, by decide +kernel, by decide +kernel, rfl⟩

theorem witness_WrcfgStoresAnyInteger : State.reset.phase = .config ∧ runS.phase ≠ .config := by decide

/-- The clauses at −0, the number next below 0, 1, the number next above 1, and a NaN. -/
theorem witness_WrcfgBetaStoresTheClamp :
    isNaN 0x7FF0000000000001#64 = true ∧ isNaN 0x7FF0000000000000#64 = false ∧ ltF 0x8000000000000000#64 0#64 = false ∧
      ltF 0x8000000000000001#64 0#64 = true ∧ ltF 0x3FF0000000000000#64 0x3FF0000000000000#64 = false ∧
      ltF 0x3FF0000000000000#64 0x3FF0000000000001#64 = true := by decide +kernel

theorem witness_RdcfgReadsTheRegister : runS.phase ≠ .faulted ∧ faultS.phase = .faulted := by decide

/-- The clauses of `INIT` at the ends of the legal ranges: just outside each, and the largest legal configuration.
The largest legal `N` is even and below `2²⁴`, so `N_MAX + 1` is always a value of the register. -/
theorem witness_InitOpensASession :
    State.reset.phase = .config ∧ runS.phase ≠ .config ∧
      (7#24).toNat % 2 = 1 ∧ (0#24).toNat < 2 ∧ nMax < (BitVec.ofNat 24 (nMax + 1)).toNat ∧
      (0#24).toNat < 1 ∧ tsMax < (BitVec.ofNat 24 (tsMax + 1)).toNat ∧ rbsMax < (BitVec.ofNat 24 (rbsMax + 1)).toNat ∧
      LegalConfig State.reset ∧ LegalConfig { State.reset with cfgN := 2#24, cfgTs := 1#24, cfgRbs := 1#24 } ∧
      LegalConfig { State.reset with
        cfgN := BitVec.ofNat 24 nMax
        cfgTs := BitVec.ofNat 24 tsMax
        cfgRbs := BitVec.ofNat 24 rbsMax } ∧
      (rrc hwTrig State.reset.cfgBeta State.reset.cfgN.toNat State.reset.cfgTs.toNat).isSome = true ∧
      rrc hwTrig 0x3FB5555555555556#64 8 1 = none ∧
      LegalConfig { State.reset with cfgN := 8#24, cfgTs := 1#24, cfgBeta := 0x3FB5555555555556#64 } := by
  have := nMax_even
  have := nMax_ge
  have := nMax_lt
  have := tsMax_ge
  have := tsMax_le
  have := rbsMax_ge
  have := rbsMax_add_le
  refine ⟨rfl, by decide, by decide, by decide, ?_, by decide, ?_, ?_, by decide +kernel, by decide +kernel, ?_,
    by decide +kernel, by decide +kernel, by decide +kernel⟩
  all_goals
    simp only [LegalConfig, BitVec.toNat_ofNat]
    omega

/-- `RBS = 4` is reached by the four samples of a byte, `RBS = 5` is not. -/
theorem witness_PushbRunsThePipeline :
    runS.phase = .run ∧ (∃ c, runS.coef = some c ∧ c.length = runS.cfgN.toNat) ∧
      (∃ h, runS.hist = some h ∧ h.length + 1 = runS.cfgN.toNat) ∧
      (modulate constellation (unpackBits 0#8) runS.cfgTs.toNat).length = 4 ∧
      runS.cfgRbs.toNat = 4 ∧ 4 < { runS with cfgRbs := 5#24 }.cfgRbs.toNat ∧ State.reset.phase ≠ .run ∧
      runS.outq.length < runS.cfgRbs.toNat :=
  ⟨rfl, ⟨_, rfl, rfl⟩, ⟨_, rfl, rfl⟩, rfl, rfl, by decide, by decide, by decide⟩

theorem witness_FlushEndsTheSession : runS.phase = .run ∧ State.reset.phase ≠ .run := by decide

/-- Both outcomes: the threshold is met exactly, and missed by one sample. -/
theorem witness_PushbBoundsTheQueue :
    BlockInv runS ∧ runS.phase = .run ∧ nx (exec (.pushb 0#8) runS) (fun t => t.outq.length == 0) = true ∧
      BlockInv { runS with cfgRbs := 5#24 } ∧
      nx (exec (.pushb 0#8) { runS with cfgRbs := 5#24 }) (fun t => t.outq.length == 4) = true :=
  ⟨by decide +kernel, rfl, by decide +kernel, by decide +kernel, by decide +kernel⟩

theorem witness_MapUnpackModPhases : runS.phase = .run ∧ State.reset.phase ≠ .run := by decide

/-- The chips of a concrete state; an even and an odd bit count, 6 and 7 the largest. -/
theorem witness_ModReturnsTheChips :
    (∃ chips : Nat → List Sample, ∀ m, chips m =
      (List.range m).flatMap fun q =>
        List.replicate runS.cfgTs.toNat
          (constellation (pointIndex ((0xE4#8).getLsbD (7 - 2 * q)) ((0xE4#8).getLsbD (6 - 2 * q))))) ∧
      runS.phase = .run ∧ (6#3).toNat % 2 = 0 ∧ (7#3).toNat % 2 = 1 ∧ State.reset.phase ≠ .run :=
  ⟨⟨_, fun _ => rfl⟩, rfl, rfl, rfl, by decide⟩

theorem witness_ModulateRepeatsEachPoint :
    (unpackBits 0xE4#8).length % 2 = 0 ∧ 11 < (unpackBits 0xE4#8).length / 2 * 3 := by decide

/-- The last tap is inside the range, the next index outside. -/
theorem witness_RdcoefReadsTheTap :
    runS.phase = .run ∧ State.reset.phase ≠ .run ∧ runS.cfgN.toNat ≤ (4#24).toNat ∧ (3#24).toNat < runS.cfgN.toNat ∧
      ∃ cs, runS.coef = some cs ∧ cs.length = runS.cfgN.toNat ∧
        cs[(3#24).toNat]? = some 0x4010000000000000#64 :=
  ⟨rfl, by decide, by decide, by decide, _, rfl, rfl, rfl⟩

theorem witness_WrcoefWritesTheTap :
    runS.phase = .run ∧ State.reset.phase ≠ .run ∧ runS.cfgN.toNat ≤ (4#24).toNat ∧ (3#24).toNat < runS.cfgN.toNat ∧
      ∃ cs, runS.coef = some cs ∧ cs.length = runS.cfgN.toNat :=
  ⟨rfl, by decide, by decide, by decide, _, rfl, rfl⟩

theorem witness_RdcoefReturnsTheWordLastWritten :
    (0#24).toNat < runS.cfgN.toNat ∧
      nx (exec (.rdcoef 0#24) runS) (fun u => u.rdata == runS.rdata ++ [0x3FF0000000000000#64]) = true ∧
      nx (exec (.wrcoef 3#24 5#64) runS) (fun t => t.phase == .run) = true := by decide

/-- A β whose taps all exist, one with a zero denominator (V-RRC7 (a)), a zero β. Then the four cases of a tap: `t = 0`;
`t = −1 = −Ts/(4·β)` for β = 1 and `Ts = 4` (V-RRC4); neither, with a denominator that is no zero; and `t = −3` of V-RRC7 (a),
with one that is. -/
theorem witness_RrcComputesTapByTap :
    ((rrc hwTrig 0x3FD0000000000000#64 4 4).isSome = true ∧ rrc hwTrig 0x3FB5555555555556#64 8 1 = none ∧
        isZero 0x8000000000000000#64 = true) ∧
      ((2 : Nat) : Int) - (4 / 2 : Nat) = 0 ∧
      (((1 : Nat) : Int) - (4 / 2 : Nat) = -1 ∧ isZero 0x3FF0000000000000#64 = false ∧
        eqF (ofIntF (-1)) (negF (divF (ofIntF 4) (mulF 0x4010000000000000#64 0x3FF0000000000000#64))) = true) ∧
      (takesS 0x3FF0000000000000#64 (-2) 4 = false ∧ isZero (tapDen 0x3FF0000000000000#64 (-2) 4) = false) ∧
      (takesS 0x3FB5555555555556#64 (-3) 1 = false ∧ isZero (tapDen 0x3FB5555555555556#64 (-3) 1) = true) := by
  decide +kernel

/-- `SIN` and `COS` constantly 1; the first tap and the one after the centre. -/
theorem witness_RrcWithBetaZeroIsSinc :
    isZero 0x8000000000000000#64 = true ∧ 4 % 2 = 0 ∧ 0 < 4 ∧ 3 < 4 ∧ 0 ≠ 4 / 2 ∧ 3 ≠ 4 / 2 ∧
      (∃ pts, pts = divF (mulF piF (ofIntF (((0 : Nat) : Int) - (4 / 2 : Nat)))) (ofIntF (1 : Nat))) ∧
      isZero 0x3FF0000000000000#64 = false ∧ isFinite 0x3FF0000000000000#64 = true :=
  ⟨by decide +kernel, rfl, by decide, by decide, by decide, by decide, ⟨_, rfl⟩, by decide +kernel, by decide +kernel⟩

/-- An odd and an even function of words: the identity and a constant; the first and the last tap with a partner. -/
theorem witness_RrcIsSymmetric :
    TrigOddEven ⟨id, fun _ => 0x3FF0000000000000#64⟩ ∧ inUnitInterval 0x3FF0000000000000#64 = true ∧
      inUnitInterval 0x8000000000000000#64 = true ∧ 20 % 2 = 0 ∧ 20 < 2 ^ 24 ∧ 1 ≤ 1 ∧ 1 < 2 ^ 24 ∧ 1 ≤ 1 ∧ 19 < 20 :=
  ⟨fun _ => ⟨.inl rfl, .inl rfl⟩, by decide +kernel, by decide +kernel, rfl, by decide, by decide, by decide,
    by decide, by decide⟩

/-- β = 1 and the largest `|t|` and `Ts`; and V-RRC7 (a), where the denominator is a zero. -/
theorem witness_RrcDenominatorIsZeroOnlyByBt :
    inUnitInterval 0x3FF0000000000000#64 = true ∧ (-16777215 : Int) ≠ 0 ∧ (-16777215 : Int).natAbs < 2 ^ 24 ∧
      1 ≤ 16777215 ∧ 16777215 < 2 ^ 24 ∧ inUnitInterval 0x3FB5555555555556#64 = true ∧
      eqF (tapDen 0x3FB5555555555556#64 (-3) 1) zeroF = true := by decide +kernel

/-- The largest chunk is accepted; the next length, where the immediate can hold it, is beyond `L_MAX`. -/
theorem witness_FilterFiltersTheChunk :
    (List.replicate (2 * lMax) 0#64).length = 2 * (BitVec.ofNat 24 lMax).toNat ∧
      (BitVec.ofNat 24 lMax).toNat ≤ lMax ∧
      (lMax + 1 < 2 ^ 24 →
        (List.replicate (2 * (lMax + 1)) 0#64).length = 2 * (BitVec.ofNat 24 (lMax + 1)).toNat ∧
          lMax < (BitVec.ofNat 24 (lMax + 1)).toNat) ∧
      runS.phase = .run ∧ State.reset.phase ≠ .run ∧ (∃ c, runS.coef = some c ∧ c.length = runS.cfgN.toNat) ∧
      ∃ h, runS.hist = some h ∧ h.length + 1 = runS.cfgN.toNat := by
  have := lMax_lt
  simp only [List.length_replicate, BitVec.toNat_ofNat]
  refine ⟨by omega, by omega, fun h => ⟨by omega, by omega⟩, rfl, by decide, ⟨_, rfl, rfl⟩, _, rfl, rfl⟩

/-- A history one shorter than the taps, with a chunk shorter than it, as long as it, and empty. -/
theorem witness_FirStatements :
    [czero].length + 1 = [1#64, 2#64].length ∧ [czero, czero].length + 1 = [1#64, 2#64, 3#64].length ∧
      0 < [czero].length ∧ ([] : List Sample).length < [czero, czero].length ∧ [czero].length < [czero, czero].length ∧
      [czero, czero].length ≤ [czero, czero].length := by decide

theorem witness_FilterMayBeSplitAnywhere :
    nx (exec (.filter 1#24 [1#64, 2#64]) runS)
        (fun t => t.phase == .run && nx (exec (.filter 0#24 []) t) (fun u => u.phase == .run)) = true ∧
      nx (exec (.filter 1#24 ([1#64, 2#64] ++ [])) runS) (fun r => r.phase == .run) = true ∧
      (1#24).toNat = (1#24).toNat + (0#24).toNat ∧ runS.phase = .run := by decide +kernel

theorem witness_StreamLaw :
    2 ≤ [1#64, 2#64].length ∧ 2 < [[czero, czero], [], [czero]].flatten.length := by decide

theorem witness_ZeroInputDrainsTheFilter :
    [czero].length + 1 = [0x3FF0000000000000#64, 0x8000000000000000#64].length ∧
      (∀ w ∈ [0x3FF0000000000000#64, 0x8000000000000000#64], isFinite w = true) ∧
      [czero].length ≤ 1 ∧ 1 < 2 := by
  refine ⟨rfl, fun w hw => ?_, by decide, by decide⟩
  simp only [List.mem_cons, List.not_mem_nil, or_false] at hw
  rcases hw with rfl | rfl <;> decide

theorem witness_SessionOutputLaw :
    State.reset.phase = .config ∧ State.reset.fcode = none ∧ LegalConfig State.reset ∧
      (∃ taps, rrc hwTrig State.reset.cfgBeta State.reset.cfgN.toNat State.reset.cfgTs.toNat = some taps) ∧
      ∃ x, x = [0xE4#8, 0#8].flatMap (fun v => modulate constellation (unpackBits v) State.reset.cfgTs.toNat) := by
  have h : (rrc hwTrig State.reset.cfgBeta State.reset.cfgN.toNat State.reset.cfgTs.toNat).isSome = true := by
    decide +kernel
  exact ⟨rfl, rfl, by decide +kernel, Option.isSome_iff_exists.mp h, _, rfl⟩

theorem witness_ResponseCarriesItsWords :
    ([] : List Word).length < 2 ^ 24 ∧ (List.replicate (2 ^ 24 - 1) 0#64).length < 2 ^ 24 := by
  simp only [List.length_replicate]
  decide

theorem witness_EveryOperationAnswersOnce :
    nx (exec (.map 0#2) runS) (fun t => t.rsp == [0x200#32] && t.rdata.length == 2) = true ∧
      nx (exec .init runS) (fun t => t.rsp == [2#32] && t.rdata.length == 0) = true := by decide

/-- Every piece of state changes somewhere. -/
theorem witness_EachPieceOfStateHasItsWriters :
    (nx (exec (.wrcfgN 2#24) State.reset) (fun t => t.cfgN != 20#24) &&
      nx (exec (.wrcfgTs 2#24) State.reset) (fun t => t.cfgTs != 4#24) &&
      nx (exec (.wrcfgRbs 2#24) State.reset) (fun t => t.cfgRbs != 1024#24) &&
      nx (exec (.wrcfgBeta 0#64) State.reset) (fun t => t.cfgBeta != State.reset.cfgBeta) &&
      nx (exec (.wrcoef 0#24 0#64) runS) (fun t => t.coef != runS.coef && t.phase != .config) &&
      nx (exec .init runS) (fun t => t.fcode != runS.fcode && t.phase == .faulted) &&
      nx (exec .flush { runS with outq := [czero] })
        (fun t => t.hist != runS.hist && t.outq != [czero] && t.sink != [])) = true := by decide +kernel

theorem witness_BurstMarksItsLastWordOnly :
    (markLast (wordsOf [⟨1#64, 2#64⟩]))[0]? = some ⟨1#64, false⟩ ∧
      (markLast (wordsOf [⟨1#64, 2#64⟩]))[1]? = some ⟨2#64, true⟩ := by decide

theorem witness_HistoryIsHiddenFromOtherOperations :
    (∀ l ps, Instr.rdcoef 0#24 ≠ .filter l ps) ∧ (∀ v, Instr.rdcoef 0#24 ≠ .pushb v) ∧
      runS.hist = some [czero, czero, czero] ∧
      [⟨1#64, 0#64⟩, czero, czero].length = [czero, czero, czero].length ∧
      nx (exec (.rdcoef 0#24) runS) (fun _ => true) = true :=
  ⟨by simp, by simp, rfl, rfl, by decide⟩

/-- The largest finite number, the smallest subnormal, and a root's operand at zero. -/
theorem witness_CorrectRounding :
    isFinite 0x7FEFFFFFFFFFFFFF#64 = true ∧ isFinite 1#64 = true ∧ isZero 1#64 = false ∧
      isFinite 0x8000000000000000#64 = true ∧ 0 ≤ Sys2Proof.Ideal.realValue 0x8000000000000000#64 := by
  refine ⟨by decide, by decide, by decide, by decide, ?_⟩
  have h : signedUnits 0x8000000000000000#64 = 0 := by decide +kernel
  simp [Sys2Proof.Ideal.realValue, h]

theorem witness_SpecialOperandsGiveTheDefaultResults :
    isNaN 0x7FF0000000000001#64 = true ∧ isInf 0xFFF0000000000000#64 = true ∧ isInf 0x7FF0000000000000#64 = true ∧
      isFinite 0x7FEFFFFFFFFFFFFF#64 = true ∧ signBit 0xFFF0000000000000#64 ≠ signBit 0x7FF0000000000000#64 ∧
      isZero 0x8000000000000000#64 = true ∧ isFinite 0x8000000000000000#64 = true ∧ isZero 1#64 = false ∧
      isFinite 1#64 = true ∧ signBit 0x7FF0000000000000#64 = false := by decide

/-- The clauses whose premise is a result: an exact zero sum, a product that underflows to a zero, a quotient. -/
theorem witness_SpecialOperands_of_results :
    isZero (addF 1#64 0x8000000000000001#64) = true ∧ isNaN (mulF 1#64 0x8000000000000001#64) = false ∧
      isZero (mulF 1#64 0x8000000000000001#64) = true ∧ isNaN (divF 1#64 0xFFEFFFFFFFFFFFFF#64) = false := by
  decide +kernel

theorem witness_IntegersConvertExactly :
    (0 : Int).natAbs < 2 ^ 24 ∧ (-16777215 : Int).natAbs < 2 ^ 24 := by decide

end Sys2Proof.Tests
end

section
/-! The magnitude of a word, read off its magnitude field (spec 00_scope.md R15): the value in units of `2⁻¹⁰⁷⁴` of a
subnormal and of a normal field, its order, the spacing of the numbers above a power of two, and the integer division
and the integer root behind rounding (R16). -/

namespace Sys2Proof.Machine

theorem units_of_subnormal {w : Word} (h : magBits w / 2 ^ 52 = 0) : units w = magBits w := by
  have hlt : magBits w < 2 ^ 52 := by omega
  rw [units, significand, exponent, if_pos h, h, Nat.mod_eq_of_lt hlt, Nat.zero_sub, pow_zero, mul_one]

theorem units_of_normal {w : Word} {e : ℕ} (h : magBits w / 2 ^ 52 = e + 1) :
    units w = (2 ^ 52 + magBits w % 2 ^ 52) * 2 ^ e := by
  rw [units, significand, exponent, if_neg (by omega), h, Nat.add_sub_cancel]

/-- Every magnitude is below the first one of the next binade. -/
theorem units_lt (w : Word) : units w < 2 ^ 52 * 2 ^ (magBits w / 2 ^ 52) := by
  cases h : magBits w / 2 ^ 52 with
  | zero => rw [units_of_subnormal h]; omega
  | succ e =>
    rw [units_of_normal h, pow_succ' 2 e, ← mul_assoc]
    exact Nat.mul_lt_mul_of_pos_right (by omega) (by positivity)

/-- A normal magnitude is at least the first one of its binade. -/
theorem le_units {w : Word} {e : ℕ} (h : magBits w / 2 ^ 52 = e + 1) : 2 ^ 52 * 2 ^ e ≤ units w := by
  rw [units_of_normal h]
  exact Nat.mul_le_mul_right _ (Nat.le_add_right _ _)

/-- The magnitude field orders the magnitudes (R15). -/
theorem units_lt_units {a b : Word} (h : magBits a < magBits b) : units a < units b := by
  have hdiv : magBits a / 2 ^ 52 ≤ magBits b / 2 ^ 52 := Nat.div_le_div_right h.le
  cases hb : magBits b / 2 ^ 52 with
  | zero => rw [units_of_subnormal (by omega), units_of_subnormal hb]; exact h
  | succ e =>
    by_cases hab : magBits a / 2 ^ 52 = e + 1
    · rw [units_of_normal hab, units_of_normal hb]
      exact Nat.mul_lt_mul_of_pos_right (by omega) (by positivity)
    · calc units a < 2 ^ 52 * 2 ^ (magBits a / 2 ^ 52) := units_lt a
        _ ≤ 2 ^ 52 * 2 ^ e := Nat.mul_le_mul_left _ (Nat.pow_le_pow_right (by decide) (by omega))
        _ ≤ units b := le_units hb

theorem units_lt_units_iff {a b : Word} : units a < units b ↔ magBits a < magBits b := by
  refine ⟨fun h => ?_, units_lt_units⟩
  rcases lt_trichotomy (magBits a) (magBits b) with hab | hab | hab
  · exact hab
  · simp [units, significand, exponent, hab] at h
  · exact absurd (units_lt_units hab) h.le.not_gt

theorem units_eq_zero_iff {a : Word} : units a = 0 ↔ isZero a = true := by
  refine ⟨fun h => ?_, units_of_isZero⟩
  have hle : magBits a ≤ magBits zeroF := not_lt.mp fun hlt => by
    have := units_lt_units hlt
    omega
  exact beq_iff_eq.mpr (Nat.le_zero.mp hle)

theorem units_pos {a : Word} (h : isZero a = false) : 0 < units a :=
  Nat.pos_of_ne_zero fun h0 => by simp [units_eq_zero_iff.mp h0] at h

/-- From `2 ^ (q + 52)` units on, every number is a multiple of `2 ^ q` units. -/
theorem dvd_units_or_units_lt (w : Word) (q : ℕ) : 2 ^ q ∣ units w ∨ units w < 2 ^ (q + 52) := by
  by_cases h : q < magBits w / 2 ^ 52
  · obtain ⟨e, he⟩ : ∃ e, magBits w / 2 ^ 52 = e + 1 := ⟨magBits w / 2 ^ 52 - 1, by omega⟩
    rw [units_of_normal he]
    exact .inl (Dvd.dvd.mul_left (pow_dvd_pow 2 (by omega)) _)
  · refine .inr (lt_of_lt_of_le (units_lt w) ?_)
    rw [← pow_add]
    exact Nat.pow_le_pow_right (by decide) (by omega)

/-- The number of a field put together from a quantum and a significand; a significand of `2⁵³` carries into the
exponent. -/
theorem units_ofMag {q m : ℕ} (s : Bool) (hm : m ≤ 2 ^ 53) (hq : q = 0 ∨ 2 ^ 52 ≤ m)
    (hk : q * 2 ^ 52 + m < 2 ^ 63) : units (ofMag s (q * 2 ^ 52 + m)) = m * 2 ^ q := by
  have hmag := ofMag_magBits s hk
  rcases lt_or_ge m (2 ^ 52) with hlt | hge
  · obtain rfl : q = 0 := by omega
    rw [units_of_subnormal (by omega), hmag]
    omega
  · rcases hm.lt_or_eq with hlt | rfl
    · rw [units_of_normal (e := q) (by omega), hmag]
      congr 1
      omega
    · have hmod : (q * 2 ^ 52 + 2 ^ 53) % 2 ^ 52 = 0 := by omega
      rw [units_of_normal (e := q + 1) (by omega), hmag, hmod, pow_succ]
      omega

theorem ofMag_getLsbD_zero {s : Bool} {k : ℕ} (h : Even k) : (ofMag s k).getLsbD 0 = false := by
  have hk : k % 2 = 0 := Nat.even_iff.mp h
  cases s <;> simp [ofMag, BitVec.getLsbD] <;> omega

/-! ### The rounding of a quotient (R16) -/

theorem roundDiv_of_dvd {n d : ℕ} (h : d ∣ n) : roundDiv n d = n / d := by
  have hmod : n % d = 0 := Nat.mod_eq_zero_of_dvd h
  rcases Nat.eq_zero_or_pos d with rfl | hd
  · simp_all [roundDiv]
  · simp [roundDiv, hmod, hd.ne]

theorem lt_two_pow_quantum {n d : ℕ} (hd : 0 < d) : n < 2 ^ (quantum n d + 53) * d := by
  rw [← Nat.div_lt_iff_lt_mul hd]
  exact lt_of_lt_of_le Nat.lt_log2_self (Nat.pow_le_pow_right (by decide) (by unfold quantum; omega))

theorem two_pow_quantum_le {n d : ℕ} (hd : 0 < d) (hq : quantum n d ≠ 0) : 2 ^ (quantum n d + 52) * d ≤ n := by
  have hlog : quantum n d + 52 = (n / d).log2 := by unfold quantum at hq ⊢; omega
  have hne : n / d ≠ 0 := fun h => by simp [quantum, h] at hq
  rw [← Nat.le_div_iff_mul_le hd, hlog]
  exact Nat.log2_self_le hne

theorem quantum_le {n d k : ℕ} (hd : 0 < d) (h : n < 2 ^ (k + 53) * d) : quantum n d ≤ k := by
  by_contra hlt
  have hge := two_pow_quantum_le (n := n) hd (by omega)
  have hpow : 2 ^ (k + 53) ≤ 2 ^ (quantum n d + 52) := Nat.pow_le_pow_right (by decide) (by omega)
  exact absurd ((Nat.mul_le_mul_right d hpow).trans hge) (not_le.mpr h)

theorem lt_quantum {n d e : ℕ} (hd : 0 < d) (h : 2 ^ (e + 53) * d ≤ n) : e < quantum n d := by
  have hle : 2 ^ (e + 53) ≤ n / d := (Nat.le_div_iff_mul_le hd).mpr h
  have hne : n / d ≠ 0 := by
    have : 0 < 2 ^ (e + 53) := by positivity
    omega
  have := (Nat.le_log2 hne).mpr hle
  unfold quantum
  omega

/-! ### The integer root (R16) -/

/-- The digit-by-digit root is the integer root. -/
theorem isqrt_eq_sqrt {fuel n : ℕ} (h : n < 4 ^ fuel) : isqrt fuel n = n.sqrt := by
  induction fuel generalizing n with
  | zero => simp [isqrt, show n = 0 by omega]
  | succ fuel ih =>
    have ih' := ih (n := n / 4) (by rw [pow_succ] at h; omega)
    obtain ⟨hle, hlt⟩ := Nat.eq_sqrt.mp ih'
    refine Nat.eq_sqrt.mpr ?_
    unfold isqrt
    generalize isqrt fuel (n / 4) = r at hle hlt
    simp only
    split
    · exact ⟨‹_›, by ring_nf at hlt ⊢; omega⟩
    · exact ⟨by ring_nf at hle ⊢; omega, by omega⟩

/-- The root of `n` in halves, with a sticky one where it is not exact. -/
def stickyRoot (n : ℕ) : ℕ := 2 * n.sqrt + (if n.sqrt * n.sqrt = n then 0 else 1)

theorem stickyRoot_lt_iff (n c : ℕ) : stickyRoot n < 2 * c ↔ n < c * c := by
  rw [← Nat.sqrt_lt, stickyRoot]
  split <;> omega

theorem lt_stickyRoot_iff (n c : ℕ) : 2 * c < stickyRoot n ↔ c * c < n := by
  rw [stickyRoot]
  split
  case isTrue hexact =>
    have hlt : c * c < n ↔ c < n.sqrt := by conv_lhs => rw [← hexact, Nat.mul_self_lt_mul_self_iff]
    omega
  case isFalse hsticky =>
    have hne : c * c ≠ n := fun h => hsticky (by rw [← h, Nat.sqrt_eq])
    have hle : c * c < n ↔ c ≤ n.sqrt := by rw [Nat.le_sqrt, hne.le_iff_lt]
    omega

theorem stickyRoot_quantum_lt {n e : ℕ} (hn : 2 ^ 53 * 2 ^ 53 ≤ n) : e < quantum (stickyRoot n * 2 ^ e) 2 := by
  refine lt_quantum two_pos ?_
  have hroot : 2 ^ 53 ≤ n.sqrt := Nat.le_sqrt.mpr hn
  calc 2 ^ (e + 53) * 2 = (2 * 2 ^ 53) * 2 ^ e := by ring
    _ ≤ stickyRoot n * 2 ^ e := Nat.mul_le_mul_right _ (by unfold stickyRoot; omega)

/-! ### The radicand -/

theorem significand_lt (w : Word) : significand w < 2 ^ 53 := by
  unfold significand
  split <;> omega

theorem significand_pos {w : Word} (h : isZero w = false) : 0 < significand w :=
  Nat.pos_of_mul_pos_right (units_pos h)

theorem radicand_lt (w : Word) : radicand w < 4 ^ 81 := by
  have hpow : 2 ^ ((exponent w + 1074) % 2 + 108) ≤ 2 ^ 109 := Nat.pow_le_pow_right (by decide) (by omega)
  calc radicand w < 2 ^ 53 * 2 ^ ((exponent w + 1074) % 2 + 108) :=
        Nat.mul_lt_mul_of_pos_right (significand_lt w) (by positivity)
    _ ≤ 2 ^ 53 * 2 ^ 109 := Nat.mul_le_mul_left _ hpow
    _ = 4 ^ 81 := by norm_num

theorem le_radicand {w : Word} (h : isZero w = false) : 2 ^ 53 * 2 ^ 53 ≤ radicand w := by
  have hpow : 2 ^ 108 ≤ 2 ^ ((exponent w + 1074) % 2 + 108) := Nat.pow_le_pow_right (by decide) (by omega)
  calc 2 ^ 53 * 2 ^ 53 ≤ 1 * 2 ^ 108 := by norm_num
    _ ≤ radicand w := Nat.mul_le_mul (significand_pos h) hpow

/-- The exponent of `sqrtScale`. -/
def rootExponent (w : Word) : ℕ := (exponent w + 1074) / 2 - 54

theorem sqrtScale_eq (w : Word) : sqrtScale w = 2 ^ rootExponent w := rfl

/-- The radicand and the scale put the root of a word together, in units. -/
theorem radicand_mul_scale (w : Word) :
    radicand w * (2 ^ rootExponent w) ^ 2 = units w * 2 ^ 1074 := by
  rw [radicand, units, rootExponent, mul_assoc, mul_assoc, ← pow_mul, ← pow_add, ← pow_add]
  congr 2
  omega

end Sys2Proof.Machine
end

section
/-! What an operation gives for each class of its operands (spec 00_scope.md R16, R175), said once: an equation per
class, when the result is a NaN, and its sign. -/

namespace Sys2Proof.Machine

/-! ### Classes -/

theorem isNaN_of_isFinite {a : Word} (h : isFinite a = true) : isNaN a = false :=
  decide_eq_false (of_decide_eq_true h).not_gt

theorem isInf_of_isFinite {a : Word} (h : isFinite a = true) : isInf a = false :=
  beq_eq_false_iff_ne.mpr (of_decide_eq_true h).ne

theorem isNaN_or_isInf_or_isFinite (a : Word) : isNaN a = true ∨ isInf a = true ∨ isFinite a = true := by
  rcases word_class a with ⟨h, -⟩ | ⟨-, h, -⟩ | ⟨-, -, h⟩
  · exact .inl h
  · exact .inr (.inl h)
  · exact .inr (.inr h)

theorem class_of_isInf {a : Word} (h : isInf a = true) : isNaN a = false ∧ isFinite a = false ∧ isZero a = false := by
  have hmag : magBits a = infMag := by simpa [isInf] using h
  simp [isNaN, isFinite, isZero, hmag, infMag]

theorem isFinite_of_isZero {a : Word} (h : isZero a = true) : isFinite a = true := by
  have hmag : magBits a = 0 := by simpa [isZero] using h
  simp [isFinite, hmag, infMag]

/-! ### The sign flipped -/

theorem negF_signBit (a : Word) : signBit (negF a) = !signBit a := by simp [signBit, negF]

theorem negF_magBits (a : Word) : magBits (negF a) = magBits a := by
  rw [magBits, negF, BitVec.toNat_xor, Nat.xor_mod_two_pow]
  simp [magBits]

/-! ### One equation for each class of operands -/

section Classes

variable {a b : Word}

theorem addF_of_isFinite (ha : isFinite a = true) (hb : isFinite b = true) :
    addF a b =
      if signedUnits a + signedUnits b = 0 then ofMag (signBit a && signBit b) 0
      else roundUnits (decide (signedUnits a + signedUnits b < 0)) (signedUnits a + signedUnits b).natAbs 1 := by
  simp [addF, isNaN_of_isFinite, isInf_of_isFinite, ha, hb]

theorem mulF_of_isFinite (ha : isFinite a = true) (hb : isFinite b = true) :
    mulF a b = roundUnits (signBit a != signBit b) (units a * units b) (2 ^ 1074) := by
  rw [mulF, isNaN_of_isFinite ha, isNaN_of_isFinite hb, isInf_of_isFinite ha, isInf_of_isFinite hb]
  rfl

theorem divF_of_isFinite (ha : isFinite a = true) (hb : isFinite b = true) (hz : isZero b = false) :
    divF a b = roundUnits (signBit a != signBit b) (units a * 2 ^ 1074) (units b) := by
  rw [divF, isNaN_of_isFinite ha, isNaN_of_isFinite hb, isInf_of_isFinite ha, isInf_of_isFinite hb, hz]
  rfl

theorem addF_of_isNaN (h : isNaN a = true ∨ isNaN b = true) : addF a b = canonicalNaN := by
  rw [addF, if_pos (by simpa using h)]

theorem mulF_of_isNaN (h : isNaN a = true ∨ isNaN b = true) : mulF a b = canonicalNaN := by
  rw [mulF, if_pos (by simpa using h)]

theorem divF_of_isNaN (h : isNaN a = true ∨ isNaN b = true) : divF a b = canonicalNaN := by
  rw [divF, if_pos (by simpa using h)]

theorem addF_of_isInf_left (ha : isInf a = true) (hb : isNaN b = false) :
    addF a b = if isInf b && signBit a != signBit b then canonicalNaN else a := by
  simp [addF, ha, hb, (class_of_isInf ha).1]

theorem addF_of_isInf_right (ha : isFinite a = true) (hb : isInf b = true) : addF a b = b := by
  simp [addF, hb, isNaN_of_isFinite ha, isInf_of_isFinite ha, (class_of_isInf hb).1]

theorem mulF_of_isInf (ha : isNaN a = false) (hb : isNaN b = false) (h : isInf a = true ∨ isInf b = true) :
    mulF a b = if isZero a || isZero b then canonicalNaN else ofMag (signBit a != signBit b) infMag := by
  rw [mulF, if_neg (by simp [ha, hb]), if_pos (by simpa using h)]

theorem divF_of_isInf_left (ha : isInf a = true) (hb : isNaN b = false) :
    divF a b = if isInf b then canonicalNaN else ofMag (signBit a != signBit b) infMag := by
  simp [divF, ha, hb, (class_of_isInf ha).1]

theorem divF_of_isInf_right (ha : isFinite a = true) (hb : isInf b = true) :
    divF a b = ofMag (signBit a != signBit b) 0 := by
  simp [divF, hb, isNaN_of_isFinite ha, isInf_of_isFinite ha, (class_of_isInf hb).1]

theorem divF_of_isZero_right (ha : isFinite a = true) (hb : isZero b = true) :
    divF a b = if isZero a then canonicalNaN else ofMag (signBit a != signBit b) infMag := by
  have hfb := isFinite_of_isZero hb
  simp [divF, hb, isNaN_of_isFinite, isInf_of_isFinite, ha, hfb]

theorem sqrtF_of_isZero (hz : isZero a = true) : sqrtF a = a := by
  simp [sqrtF, isNaN_of_isFinite (isFinite_of_isZero hz), hz]

theorem sqrtF_of_isNaN (h : isNaN a = true) : sqrtF a = canonicalNaN := by rw [sqrtF, if_pos h]

theorem sqrtF_of_neg (hs : signBit a = true) (hz : isZero a = false) : sqrtF a = canonicalNaN := by
  simp [sqrtF, hs, hz]

theorem sqrtF_of_isInf (h : isInf a = true) (hs : signBit a = false) : sqrtF a = a := by
  obtain ⟨hnan, -, hz⟩ := class_of_isInf h
  simp [sqrtF, hnan, hz, hs, h]

theorem sqrtF_of_pos (hf : isFinite a = true) (hz : isZero a = false) (hs : signBit a = false) :
    sqrtF a = roundUnits false (stickyRoot (radicand a) * 2 ^ rootExponent a) 2 := by
  simp [sqrtF, isNaN_of_isFinite hf, isInf_of_isFinite hf, hz, hs, isqrt_eq_sqrt (radicand_lt a), stickyRoot,
    sqrtScale_eq]

/-! ### When a result is a NaN -/

theorem addF_isNaN_iff :
    isNaN (addF a b) = true ↔
      isNaN a = true ∨ isNaN b = true ∨ (isInf a = true ∧ isInf b = true ∧ signBit a ≠ signBit b) := by
  rcases isNaN_or_isInf_or_isFinite a with ha | ha | ha
  · simp [addF_of_isNaN, ha]
  · cases hb : isNaN b
    · rw [addF_of_isInf_left ha hb]
      split <;> simp_all [class_of_isInf ha]
    · simp [addF_of_isNaN, hb]
  · rcases isNaN_or_isInf_or_isFinite b with hb | hb | hb
    · simp [addF_of_isNaN, hb]
    · simp [addF_of_isInf_right ha hb, isNaN_of_isFinite ha, isInf_of_isFinite ha]
    · rw [addF_of_isFinite ha hb]
      split <;> simp [isNaN_of_isFinite ha, isNaN_of_isFinite hb, isInf_of_isFinite ha]

theorem mulF_isNaN_iff :
    isNaN (mulF a b) = true ↔
      isNaN a = true ∨ isNaN b = true ∨ (isInf a = true ∧ isZero b = true) ∨
        (isZero a = true ∧ isInf b = true) := by
  rcases isNaN_or_isInf_or_isFinite a with ha | ha | ha
  · simp [mulF_of_isNaN, ha]
  · cases hb : isNaN b
    · rw [mulF_of_isInf (class_of_isInf ha).1 hb (.inl ha)]
      split <;> simp_all [class_of_isInf ha]
    · simp [mulF_of_isNaN, hb]
  · rcases isNaN_or_isInf_or_isFinite b with hb | hb | hb
    · simp [mulF_of_isNaN, hb]
    · rw [mulF_of_isInf (isNaN_of_isFinite ha) (class_of_isInf hb).1 (.inr hb)]
      split <;> simp_all [class_of_isInf hb, isNaN_of_isFinite ha]
    · rw [mulF_of_isFinite ha hb, roundUnits_isNaN]
      simp [isNaN_of_isFinite, isInf_of_isFinite, ha, hb]

theorem divF_isNaN_iff :
    isNaN (divF a b) = true ↔
      isNaN a = true ∨ isNaN b = true ∨ (isInf a = true ∧ isInf b = true) ∨
        (isZero a = true ∧ isZero b = true) := by
  rcases isNaN_or_isInf_or_isFinite a with ha | ha | ha
  · simp [divF_of_isNaN, ha]
  · cases hb : isNaN b
    · rw [divF_of_isInf_left ha hb]
      split <;> simp_all [class_of_isInf ha]
    · simp [divF_of_isNaN, hb]
  · rcases isNaN_or_isInf_or_isFinite b with hb | hb | hb
    · simp [divF_of_isNaN, hb]
    · simp [divF_of_isInf_right ha hb, class_of_isInf hb, isNaN_of_isFinite ha, isInf_of_isFinite ha]
    · cases hz : isZero b
      · rw [divF_of_isFinite ha hb hz, roundUnits_isNaN]
        simp [isNaN_of_isFinite, isInf_of_isFinite, ha, hb]
      · rw [divF_of_isZero_right ha hz]
        split <;> simp_all [isNaN_of_isFinite, isInf_of_isFinite]

theorem sqrtF_isNaN_iff :
    isNaN (sqrtF a) = true ↔ isNaN a = true ∨ (signBit a = true ∧ isZero a = false) := by
  cases hz : isZero a
  · cases hs : signBit a
    · rcases isNaN_or_isInf_or_isFinite a with ha | ha | ha
      · simp [sqrtF_of_isNaN, ha]
      · simp [sqrtF_of_isInf ha hs]
      · simp [sqrtF_of_pos ha hz hs, isNaN_of_isFinite ha]
    · simp [sqrtF_of_neg hs hz]
  · simp [sqrtF_of_isZero hz]

/-! ### Signs and zeros -/

/-- `w` is the NaN, or a number or an infinity of the sign `s`. -/
def NaNOrSigned (s : Bool) (w : Word) : Prop := w = canonicalNaN ∨ signBit w = s

theorem NaNOrSigned.signBit_eq {s : Bool} {w : Word} (h : NaNOrSigned s w) (hw : isNaN w = false) :
    signBit w = s := by
  rcases h with rfl | h
  · simp at hw
  · exact h

theorem mulF_signed (a b : Word) : NaNOrSigned (signBit a != signBit b) (mulF a b) := by
  unfold mulF
  split_ifs
  · exact .inl rfl
  · exact .inl rfl
  · exact .inr (ofMag_infMag_signBit _)
  · exact .inr (roundUnits_signBit _ _ _)

theorem divF_signed (a b : Word) : NaNOrSigned (signBit a != signBit b) (divF a b) := by
  unfold divF
  split_ifs
  · exact .inl rfl
  · exact .inl rfl
  · exact .inr (ofMag_infMag_signBit _)
  · exact .inr (ofMag_zero_signBit _)
  · exact .inl rfl
  · exact .inr (ofMag_infMag_signBit _)
  · exact .inr (roundUnits_signBit _ _ _)

theorem signedUnits_of_isZero (h : isZero a = true) : signedUnits a = 0 := by
  simp [signedUnits, units_of_isZero h]

/-- A whole number of units, not zero, does not round to a zero. -/
theorem roundUnits_one_isZero {n : ℕ} (s : Bool) (hn : n ≠ 0) : isZero (roundUnits s n 1) = false := by
  by_contra h
  have hfield : quantum n 1 * 2 ^ 52 + roundDiv n (1 * 2 ^ quantum n 1) = 0 := by
    have hmag := roundUnits_magBits s n 1
    simp only [isZero, Bool.not_eq_false, beq_iff_eq] at h
    unfold infMag at hmag
    omega
  have hq : quantum n 1 = 0 := by omega
  rw [hq, pow_zero, mul_one, roundDiv_of_dvd (one_dvd n)] at hfield
  omega

theorem addF_isZero (ha : isZero a = true) (hb : isZero b = true) : isZero (addF a b) = true := by
  rw [addF_of_isFinite (isFinite_of_isZero ha) (isFinite_of_isZero hb), signedUnits_of_isZero ha,
    signedUnits_of_isZero hb, add_zero, if_pos rfl]
  exact ofMag_zero_isZero _

/-- A zero sum of finite numbers is exact, and `−0` only if both are negative. -/
theorem addF_signBit_of_isZero (ha : isFinite a = true) (hb : isFinite b = true) (h : isZero (addF a b) = true) :
    signBit (addF a b) = true ↔ signBit a = true ∧ signBit b = true := by
  rw [addF_of_isFinite ha hb] at h ⊢
  split at h
  case isTrue hsum => rw [if_pos hsum, ofMag_zero_signBit, Bool.and_eq_true]
  case isFalse hsum => rw [roundUnits_one_isZero _ (Int.natAbs_ne_zero.mpr hsum)] at h; cases h

/-! ### Infinite and zero results -/

theorem addF_of_isInf_isFinite (ha : isInf a = true) (hb : isFinite b = true) : addF a b = a ∧ addF b a = a := by
  rw [addF_of_isInf_left ha (isNaN_of_isFinite hb), addF_of_isInf_right hb ha, isInf_of_isFinite hb]
  exact ⟨rfl, rfl⟩

theorem addF_of_isInf_same_sign (ha : isInf a = true) (hb : isInf b = true) (hs : signBit a = signBit b) :
    addF a b = a := by
  simp [addF_of_isInf_left ha (class_of_isInf hb).1, hs]

theorem mulF_isInf (ha : isInf a = true) (hb : isNaN b = false) (hz : isZero b = false) :
    isInf (mulF a b) = true ∧ isInf (mulF b a) = true := by
  obtain ⟨hnan, -, hza⟩ := class_of_isInf ha
  rw [mulF_of_isInf hnan hb (.inl ha), mulF_of_isInf hb hnan (.inr ha), hza, hz]
  exact ⟨ofMag_infMag_isInf _, ofMag_infMag_isInf _⟩

theorem mulF_isZero (ha : isZero a = true) (hb : isFinite b = true) :
    isZero (mulF a b) = true ∧ isZero (mulF b a) = true := by
  have hfa := isFinite_of_isZero ha
  rw [mulF_of_isFinite hfa hb, mulF_of_isFinite hb hfa, units_of_isZero ha, Nat.zero_mul, Nat.mul_zero]
  exact ⟨roundUnits_zero _ _, roundUnits_zero _ _⟩

theorem divF_of_isInf (ha : isInf a = true) (hb : isFinite b = true) :
    isInf (divF a b) = true ∧ isZero (divF b a) = true := by
  rw [divF_of_isInf_left ha (isNaN_of_isFinite hb), divF_of_isInf_right hb ha, isInf_of_isFinite hb]
  exact ⟨ofMag_infMag_isInf _, ofMag_zero_isZero _⟩

theorem divF_zero_isInf (ha : isFinite a = true) (hza : isZero a = false) (hzb : isZero b = true) :
    isInf (divF a b) = true := by
  rw [divF_of_isZero_right ha hzb, hza]
  exact ofMag_infMag_isInf _

theorem divF_isZero (ha : isZero a = true) (hb : isFinite b = true) (hz : isZero b = false) :
    isZero (divF a b) = true := by
  rw [divF_of_isFinite (isFinite_of_isZero ha) hb hz, units_of_isZero ha, Nat.zero_mul]
  exact roundUnits_zero _ _

end Classes

end Sys2Proof.Machine
end

section
/-! Correct rounding (spec 00_scope.md R16): an integer nearest to a real number, a magnitude rounded at a quantum, and
why the word that `roundUnits` builds is the nearest binary64 number. -/

namespace Sys2Proof.Ideal

open Sys2Proof.Machine

/-! ### The nearest integer, ties to even -/

/-- `m` is the integer nearest to `y`, the even one of two. -/
structure NearestEven (m : ℕ) (y : ℝ) : Prop where
  le : 2 * (m : ℝ) ≤ 2 * y + 1
  ge : 2 * y ≤ 2 * (m : ℝ) + 1
  even : 2 * (m : ℝ) = 2 * y + 1 ∨ 2 * y = 2 * (m : ℝ) + 1 → Even m

theorem NearestEven.abs_sub_le {m : ℕ} {y : ℝ} (h : NearestEven m y) : |(m : ℝ) - y| ≤ 1 / 2 := by
  obtain ⟨hle, hge, -⟩ := h
  exact abs_le.mpr ⟨by linarith, by linarith⟩

theorem NearestEven.half_le_abs_sub {m k : ℕ} {y : ℝ} (h : NearestEven m y) (hk : k ≠ m) : 1 / 2 ≤ |(k : ℝ) - y| := by
  obtain ⟨hle, hge, -⟩ := h
  rcases hk.lt_or_gt with hlt | hgt
  · have : (k : ℝ) + 1 ≤ m := by exact_mod_cast hlt
    exact le_abs.mpr (.inr (by linarith))
  · have : (m : ℝ) + 1 ≤ k := by exact_mod_cast hgt
    exact le_abs.mpr (.inl (by linarith))

theorem NearestEven.abs_sub_le_abs_sub {m : ℕ} {y : ℝ} (h : NearestEven m y) (k : ℕ) :
    |(m : ℝ) - y| ≤ |(k : ℝ) - y| := by
  by_cases hk : k = m
  · rw [hk]
  · exact h.abs_sub_le.trans (h.half_le_abs_sub hk)

theorem NearestEven.even_of_tie {m k : ℕ} {y : ℝ} (h : NearestEven m y) (hk : k ≠ m)
    (heq : |(k : ℝ) - y| = |(m : ℝ) - y|) : Even m := by
  have hhalf : |(m : ℝ) - y| = 1 / 2 := le_antisymm h.abs_sub_le (heq ▸ h.half_le_abs_sub hk)
  apply h.even
  rcases (abs_eq (by norm_num)).mp hhalf with h' | h'
  · exact .inl (by linarith)
  · exact .inr (by linarith)

/-- `roundDiv` rounds the quotient to the nearest integer, ties to even. -/
theorem roundDiv_nearestEven {n d : ℕ} (hd : 0 < d) : NearestEven (roundDiv n d) ((n : ℝ) / d) := by
  have hd' : (0 : ℝ) < d := by exact_mod_cast hd
  have hquot : (n : ℝ) / d = (n / d : ℕ) + (n % d : ℕ) / d := by
    rw [div_eq_iff hd'.ne', add_mul, div_mul_cancel₀ _ hd'.ne', mul_comm]
    exact_mod_cast (Nat.div_add_mod n d).symm
  have hfrac0 : (0 : ℝ) ≤ (n % d : ℕ) / d := by positivity
  have hfrac1 : ((n % d : ℕ) : ℝ) / d < 1 := by
    rw [div_lt_one hd']
    exact_mod_cast Nat.mod_lt n hd
  have hhalf : (1 : ℝ) < 2 * ((n % d : ℕ) / d) ↔ d < 2 * (n % d) := by
    rw [← mul_div_assoc, one_lt_div hd']
    exact_mod_cast Iff.rfl
  have htie : 2 * (((n % d : ℕ) : ℝ) / d) = 1 ↔ 2 * (n % d) = d := by
    rw [← mul_div_assoc, div_eq_one_iff_eq hd'.ne']
    exact_mod_cast Iff.rfl
  rw [hquot, roundDiv]
  generalize ((n % d : ℕ) : ℝ) / d = f at *
  split
  case isTrue hup =>
    have hf : 1 ≤ 2 * f := by
      rcases hup with h | ⟨h, -⟩
      · exact (hhalf.mpr h).le
      · exact (htie.mpr h).ge
    refine ⟨by push_cast; linarith, by push_cast; linarith, fun heq => ?_⟩
    push_cast at heq
    have h2 : 2 * (n % d) = d := htie.mp (by rcases heq with h | h <;> linarith)
    have hodd : n / d % 2 = 1 := (hup.resolve_left (by omega)).2
    exact Nat.even_iff.mpr (by omega)
  case isFalse hdown =>
    have hf : 2 * f ≤ 1 := not_lt.mp fun h => hdown (.inl (hhalf.mp h))
    refine ⟨by push_cast; linarith, by push_cast; linarith, fun heq => ?_⟩
    push_cast at heq
    have h2 : 2 * (n % d) = d := htie.mp (by rcases heq with h | h <;> linarith)
    exact Nat.even_iff.mpr (by have : ¬ n / d % 2 = 1 := fun h => hdown (.inr ⟨h2, h⟩); omega)

/-! ### A magnitude rounded at a quantum -/

/-- The magnitude `x`, in units, rounds to `m · 2 ^ q`: `q` is the number of bits it loses to a 53-bit significand, and
`m` the nearest significand at that quantum. -/
structure RoundsAt (q m : ℕ) (x : ℝ) : Prop where
  lt : x < 2 ^ (q + 53)
  ge : q = 0 ∨ 2 ^ (q + 52) ≤ x
  nearest : NearestEven m (x / 2 ^ q)

theorem roundDiv_roundsAt {n d : ℕ} (hd : 0 < d) :
    RoundsAt (quantum n d) (roundDiv n (d * 2 ^ quantum n d)) ((n : ℝ) / d) where
  lt := by
    rw [div_lt_iff₀ (by exact_mod_cast hd)]
    exact_mod_cast lt_two_pow_quantum hd
  ge := by
    by_cases hq : quantum n d = 0
    · exact .inl hq
    · rw [le_div_iff₀ (by exact_mod_cast hd)]
      exact .inr (by exact_mod_cast two_pow_quantum_le hd hq)
  nearest := by
    rw [div_div]
    exact_mod_cast roundDiv_nearestEven (n := n) (d := d * 2 ^ quantum n d) (by positivity)

namespace RoundsAt

variable {q m : ℕ} {x : ℝ}

theorem significand_le (h : RoundsAt q m x) : m ≤ 2 ^ 53 := by
  have hx : x / 2 ^ q < 2 ^ 53 := by
    rw [div_lt_iff₀ (by positivity), ← pow_add, add_comm 53 q]
    exact h.lt
  have hm : 2 * (m : ℝ) < 2 * 2 ^ 53 + 1 := by linarith [h.nearest.le]
  have : 2 * m < 2 * 2 ^ 53 + 1 := by exact_mod_cast hm
  omega

theorem le_significand (h : RoundsAt q m x) : q = 0 ∨ 2 ^ 52 ≤ m := by
  refine h.ge.imp_right fun hge => ?_
  have hx : 2 ^ 52 ≤ x / 2 ^ q := by
    rw [le_div_iff₀ (by positivity), ← pow_add, add_comm 52 q]
    exact hge
  have hm : 2 * 2 ^ 52 ≤ 2 * (m : ℝ) + 1 := by linarith [h.nearest.ge]
  have : 2 * 2 ^ 52 ≤ 2 * m + 1 := by exact_mod_cast hm
  omega

/-- The distances on the grid of the quantum, scaled down to distances from integers. -/
theorem abs_grid_sub (k q : ℕ) (x : ℝ) : |(k : ℝ) * 2 ^ q - x| = 2 ^ q * |(k : ℝ) - x / 2 ^ q| := by
  have hq : (0 : ℝ) < 2 ^ q := by positivity
  rw [← abs_of_pos hq, ← abs_mul, abs_of_pos hq]
  congr 1
  field_simp

theorem abs_sub_le_grid (h : RoundsAt q m x) (k : ℕ) : |(m : ℝ) * 2 ^ q - x| ≤ |(k : ℝ) * 2 ^ q - x| := by
  rw [abs_grid_sub, abs_grid_sub]
  exact mul_le_mul_of_nonneg_left (h.nearest.abs_sub_le_abs_sub k) (by positivity)

/-- A number off the grid of the quantum lies below it, and farther from `x` than the rounding. -/
theorem grid_or_farther (h : RoundsAt q m x) (c : Word) :
    (∃ k : ℕ, units c = k * 2 ^ q) ∨ |(m : ℝ) * 2 ^ q - x| < |(units c : ℝ) - x| := by
  rcases dvd_units_or_units_lt c q with ⟨k, hk⟩ | hlt
  · exact .inl ⟨k, by rw [hk, mul_comm]⟩
  rcases h.ge with rfl | hge
  · exact .inl ⟨units c, by simp⟩
  · refine .inr ((h.abs_sub_le_grid (2 ^ 52)).trans_lt ?_)
    have hc : (units c : ℝ) < 2 ^ (q + 52) := by exact_mod_cast hlt
    have hgrid : ((2 ^ 52 : ℕ) : ℝ) * 2 ^ q = 2 ^ (q + 52) := by rw [Nat.cast_pow, pow_add, mul_comm]; rfl
    rw [hgrid, abs_of_nonpos (by linarith), abs_of_nonpos (by linarith)]
    linarith

/-- No number is nearer. -/
theorem abs_sub_le_units (h : RoundsAt q m x) (c : Word) : |(m : ℝ) * 2 ^ q - x| ≤ |(units c : ℝ) - x| := by
  rcases h.grid_or_farther c with ⟨k, hk⟩ | hlt
  · rw [hk]
    exact_mod_cast h.abs_sub_le_grid k
  · exact hlt.le

/-- Of two numbers equally near, the rounding has the even significand. -/
theorem even_of_tie (h : RoundsAt q m x) {c : Word} (hne : (units c : ℝ) ≠ m * 2 ^ q)
    (htie : |(units c : ℝ) - x| = |(m : ℝ) * 2 ^ q - x|) : Even m := by
  rcases h.grid_or_farther c with ⟨k, hk⟩ | hlt
  · have hk' : (units c : ℝ) = k * 2 ^ q := by exact_mod_cast hk
    rw [hk', abs_grid_sub, abs_grid_sub] at htie
    refine h.nearest.even_of_tie (k := k) (fun hkm => hne (by rw [hk', hkm])) ?_
    exact mul_left_cancel₀ (by positivity) htie
  · exact absurd htie hlt.ne'

theorem even_of_eq_zero (h : RoundsAt q m x) (hx : x = 0) : Even m := by
  subst hx
  have hm : 2 * (m : ℝ) ≤ 1 := by simpa using h.nearest.le
  have hm' : 2 * m ≤ 1 := by exact_mod_cast hm
  obtain rfl : m = 0 := by omega
  exact Even.zero

/-! ### Overflow -/

/-- Below the middle of the last two grid points at quantum `k`, the field stays below that of the next binade. -/
theorem field_lt {k : ℕ} (h : RoundsAt q m x) (hx : x < (2 ^ 53 - 1 / 2) * 2 ^ k) :
    q * 2 ^ 52 + m < (k + 2) * 2 ^ 52 := by
  have hm := h.significand_le
  have hpos : (0 : ℝ) < 2 ^ k := by positivity
  rcases lt_trichotomy q k with hq | rfl | hq
  · omega
  · have hx' : x / 2 ^ q < 2 ^ 53 - 1 / 2 := by rwa [div_lt_iff₀ hpos]
    have hm' : 2 * (m : ℝ) < 2 * 2 ^ 53 := by linarith [h.nearest.le]
    have : 2 * m < 2 * 2 ^ 53 := by exact_mod_cast hm'
    omega
  · have hge := h.ge.resolve_left (by omega)
    have hpow : (2 : ℝ) ^ 53 * 2 ^ k ≤ 2 ^ (q + 52) := by
      rw [← pow_add]
      exact pow_le_pow_right₀ (by norm_num) (by omega)
    linarith

/-- From that middle on, the field is at least that of the next binade. -/
theorem le_field {k : ℕ} (h : RoundsAt q m x) (hx : (2 ^ 53 - 1 / 2) * 2 ^ k ≤ x) :
    (k + 2) * 2 ^ 52 ≤ q * 2 ^ 52 + m := by
  have hsig := h.le_significand
  have hpos : (0 : ℝ) < 2 ^ k := by positivity
  rcases lt_trichotomy q k with hq | rfl | hq
  · have hpow : (2 : ℝ) ^ (q + 53) ≤ 2 ^ 52 * 2 ^ k := by
      rw [← pow_add]
      exact pow_le_pow_right₀ (by norm_num) (by omega)
    linarith [h.lt]
  · have hx' : 2 ^ 53 - 1 / 2 ≤ x / 2 ^ q := by rwa [le_div_iff₀ hpos]
    have hge := h.nearest.ge
    have hm : (2 : ℝ) ^ 53 ≤ m + 1 := by linarith
    have hm' : 2 ^ 53 ≤ m + 1 := by exact_mod_cast hm
    by_contra hlt
    obtain rfl : m = 2 ^ 53 - 1 := by omega
    have heven := h.nearest.even (.inr (le_antisymm hge (by push_cast; linarith)))
    exact absurd heven (by decide)
  · omega

/-- The overflow bound in units: the middle at the last quantum. -/
theorem overflowBound_mul : overflowBound * 2 ^ 1074 = (2 ^ 53 - 1 / 2) * 2 ^ 2045 := by
  unfold overflowBound
  have h1 : (2 : ℝ) ^ 1024 * 2 ^ 1074 = 2 ^ 54 * 2 ^ 2044 := by rw [← pow_add, ← pow_add]
  have h2 : (2 : ℝ) ^ 970 * 2 ^ 1074 = 2 ^ 2044 := by rw [← pow_add]
  rw [sub_mul, h1, h2, pow_succ' 2 2044]
  generalize (2 : ℝ) ^ 2044 = p
  ring

theorem infMag_eq : infMag = (2045 + 2) * 2 ^ 52 := rfl

end RoundsAt

/-! ### Words and their reals -/

/-- A real number of magnitude `x` with the sign `s`. -/
noncomputable def withSign (s : Bool) (x : ℝ) : ℝ := if s then -x else x

@[simp] theorem abs_withSign (s : Bool) (x : ℝ) : |withSign s x| = |x| := by cases s <;> simp [withSign]

/-- Two numbers of one sign are as far apart as their magnitudes. -/
theorem abs_withSign_sub (s : Bool) (u x : ℝ) : |withSign s u - withSign s x| = |u - x| := by
  cases s
  · rfl
  · rw [abs_sub_comm u x]
    congr 1
    simp [withSign]
    ring

theorem withSign_natAbs (z : ℤ) : withSign (decide (z < 0)) (z.natAbs : ℝ) = z := by
  rw [Nat.cast_natAbs, withSign]
  by_cases hz : z < 0
  · simp [hz, abs_of_neg hz]
  · simp [hz, abs_of_nonneg (not_lt.mp hz)]

theorem withSign_mul (s t : Bool) (x y : ℝ) : withSign s x * withSign t y = withSign (s != t) (x * y) := by
  cases s <;> cases t <;> simp [withSign]

theorem withSign_div (s t : Bool) (x y : ℝ) : withSign s x / withSign t y = withSign (s != t) (x / y) := by
  cases s <;> cases t <;> simp [withSign, neg_div, div_neg]

theorem withSign_mul_right (s : Bool) (x y : ℝ) : withSign s x * y = withSign s (x * y) := by
  cases s <;> simp [withSign]

theorem withSign_div_right (s : Bool) (x y : ℝ) : withSign s x / y = withSign s (x / y) := by
  rw [div_eq_mul_inv, withSign_mul_right, ← div_eq_mul_inv]

/-- A word stands for its units with its sign, in units of `2⁻¹⁰⁷⁴` (R15). -/
theorem realValue_eq (w : Word) : realValue w = withSign (signBit w) (units w) / 2 ^ 1074 := by
  unfold realValue signedUnits withSign
  split <;> simp

theorem realValue_eq_zero_iff {w : Word} : realValue w = 0 ↔ units w = 0 := by
  rw [← abs_eq_zero, realValue_eq, abs_div, abs_withSign]
  simp

section Nearest

variable {q m : ℕ} {x : ℝ}

theorem abs_div_scale_sub (u v : ℝ) : |u / 2 ^ 1074 - v / 2 ^ 1074| = |u - v| / 2 ^ 1074 := by
  rw [← sub_div, abs_div, abs_of_pos (by positivity : (0 : ℝ) < 2 ^ 1074)]

/-- A word is at least as far from a number as their magnitudes are. -/
theorem abs_units_sub_le (hx : 0 ≤ x) (s : Bool) (c : Word) :
    |(units c : ℝ) - x| / 2 ^ 1074 ≤ |realValue c - withSign s x / 2 ^ 1074| := by
  rw [realValue_eq, abs_div_scale_sub]
  have h := abs_abs_sub_abs_le (withSign (signBit c) (units c)) (withSign s x)
  rw [abs_withSign, abs_withSign, Nat.abs_cast, abs_of_nonneg hx] at h
  exact div_le_div_of_nonneg_right h (by positivity)

/-- A word of the number's sign is exactly as far from it as their magnitudes are. -/
theorem abs_realValue_sub (c : Word) :
    |realValue c - withSign (signBit c) x / 2 ^ 1074| = |(units c : ℝ) - x| / 2 ^ 1074 := by
  rw [realValue_eq, abs_div_scale_sub, abs_withSign_sub]

/-- Two words of equal magnitude, of which only one has the number's sign, are equally far from it only if it is
a zero. -/
theorem eq_zero_of_tie (hx : 0 ≤ x) {s s' : Bool} {u : ℝ} (hu : 0 < u) (hs : s' ≠ s)
    (htie : |withSign s' u - withSign s x| = |u - x|) : x = 0 := by
  obtain rfl : s' = !s := Bool.eq_not.mpr hs
  rcases abs_eq_abs.mp htie with h | h <;> cases s <;>
    simp only [withSign, Bool.not_true, Bool.not_false, Bool.false_eq_true, if_true, if_false] at h <;> linarith

/-- The word of the rounded magnitude with the number's sign is nearest. -/
theorem RoundsAt.abs_realValue_sub_le (h : RoundsAt q m x) (hx : 0 ≤ x) {r : Word} (hr : units r = m * 2 ^ q)
    (c : Word) :
    |realValue r - withSign (signBit r) x / 2 ^ 1074| ≤ |realValue c - withSign (signBit r) x / 2 ^ 1074| := by
  refine le_trans ?_ (abs_units_sub_le hx _ c)
  rw [abs_realValue_sub, hr]
  exact div_le_div_of_nonneg_right (by exact_mod_cast h.abs_sub_le_units c) (by positivity)

/-- If another number is as near, the significand is even. -/
theorem RoundsAt.even_of_word_tie (h : RoundsAt q m x) (hx : 0 ≤ x) {r c : Word} (hr : units r = m * 2 ^ q)
    (hne : realValue c ≠ realValue r)
    (htie : |realValue c - withSign (signBit r) x / 2 ^ 1074| =
      |realValue r - withSign (signBit r) x / 2 ^ 1074|) : Even m := by
  have hr' : (units r : ℝ) = m * 2 ^ q := by exact_mod_cast hr
  by_cases hunits : units c = units r
  · have hsign : signBit c ≠ signBit r := fun hs => hne (by rw [realValue_eq, realValue_eq, hs, hunits])
    have hpos : (0 : ℝ) < units r := by
      rw [Nat.cast_pos, Nat.pos_iff_ne_zero]
      intro h0
      exact hne (by rw [realValue_eq_zero_iff.mpr h0, realValue_eq_zero_iff.mpr (hunits.trans h0)])
    rw [abs_realValue_sub, realValue_eq, abs_div_scale_sub, hunits] at htie
    exact h.even_of_eq_zero (eq_zero_of_tie hx hpos hsign ((div_left_inj' (by positivity)).mp htie))
  · have hle := abs_units_sub_le hx (signBit r) c
    rw [htie, abs_realValue_sub, div_le_div_iff_of_pos_right (by positivity), hr'] at hle
    exact h.even_of_tie (by rw [← hr']; exact_mod_cast hunits) (le_antisymm hle (h.abs_sub_le_units c))

/-- Below the overflow bound the rounding is finite, and its last bit is that of its significand. -/
theorem RoundsAt.finite_word (h : RoundsAt q m x) (hx : x < (2 ^ 53 - 1 / 2) * 2 ^ 2045) (s : Bool) :
    isFinite (ofMag s (min (q * 2 ^ 52 + m) infMag)) = true ∧
      units (ofMag s (min (q * 2 ^ 52 + m) infMag)) = m * 2 ^ q ∧
      (Even m → (ofMag s (min (q * 2 ^ 52 + m) infMag)).getLsbD 0 = false) := by
  have hfield : q * 2 ^ 52 + m < infMag := (h.field_lt (k := 2045) hx).trans_eq infMag_eq.symm
  have hlt63 : q * 2 ^ 52 + m < 2 ^ 63 := hfield.trans (by decide)
  rw [min_eq_left hfield.le]
  exact ⟨decide_eq_true ((ofMag_magBits s hlt63).trans_lt hfield),
    units_ofMag s h.significand_le h.le_significand hlt63,
    fun heven => ofMag_getLsbD_zero (((by decide : Even (2 ^ 52)).mul_left q).add heven)⟩

/-- A rounded magnitude, put into a word with the sign of the exact number, is the nearest binary64 number (R16). -/
theorem RoundsAt.roundsTo (h : RoundsAt q m x) (hx : 0 ≤ x) (s : Bool) :
    RoundsTo (withSign s x / 2 ^ 1074) (ofMag s (min (q * 2 ^ 52 + m) infMag)) := by
  have hscale : (0 : ℝ) < 2 ^ 1074 := by positivity
  have habs : |withSign s x / 2 ^ 1074| = x / 2 ^ 1074 := by
    rw [abs_div, abs_withSign, abs_of_pos hscale, abs_of_nonneg hx]
  have hsign : signBit (ofMag s (min (q * 2 ^ 52 + m) infMag)) = s :=
    ofMag_signBit s ((Nat.min_le_right _ _).trans_lt (by decide))
  unfold RoundsTo
  rw [habs, div_lt_iff₀ hscale, le_div_iff₀ hscale, RoundsAt.overflowBound_mul]
  refine ⟨fun hlt => ?_, fun hge => ?_⟩
  · obtain ⟨hfin, hunits, hlast⟩ := h.finite_word hlt s
    refine ⟨hfin, fun c _ => ?_, fun c _ hne htie => hlast ?_⟩
    · simpa only [hsign] using h.abs_realValue_sub_le hx hunits c
    · exact h.even_of_word_tie hx hunits hne (by simpa only [hsign] using htie)
  · have hpos : 0 < x := lt_of_lt_of_le (mul_pos (by norm_num) (by positivity)) hge
    rw [hsign, div_lt_iff₀ hscale, zero_mul, min_eq_right (infMag_eq.trans_le (h.le_field (k := 2045) hge))]
    refine ⟨ofMag_infMag_isInf s, ?_⟩
    cases s
    · simpa [withSign] using hpos.le
    · simpa [withSign] using hpos

/-- `roundUnits` is correct rounding of the quotient it is given (R16). -/
theorem roundUnits_roundsTo {n d : ℕ} (hd : 0 < d) (s : Bool) :
    RoundsTo (withSign s ((n : ℝ) / d) / 2 ^ 1074) (roundUnits s n d) :=
  (roundDiv_roundsAt hd).roundsTo (by positivity) s

/-- Where the quantum divides an integer number of units, rounding is exact. -/
theorem roundUnits_exact {n : ℕ} (s : Bool) (hx : (n : ℝ) < (2 ^ 53 - 1 / 2) * 2 ^ 2045)
    (hdvd : 2 ^ quantum n 1 ∣ n) : isFinite (roundUnits s n 1) = true ∧ units (roundUnits s n 1) = n := by
  have h := roundDiv_roundsAt (n := n) one_pos
  rw [Nat.cast_one, div_one] at h
  obtain ⟨hfin, hunits, -⟩ := h.finite_word hx s
  refine ⟨hfin, hunits.trans ?_⟩
  rw [one_mul, roundDiv_of_dvd hdvd, Nat.div_mul_cancel hdvd]

/-- A zero word is the rounding of 0. -/
theorem roundsTo_zero {w : Word} (h : isZero w = true) : RoundsTo 0 w := by
  have hmag : magBits w = 0 := by simpa [isZero] using h
  have hval : realValue w = 0 := realValue_eq_zero_iff.mpr (units_of_isZero h)
  have hbound : 0 < overflowBound := by
    unfold overflowBound
    exact sub_pos.mpr (pow_lt_pow_right₀ (by norm_num) (by norm_num))
  refine ⟨fun _ => ⟨by simp [isFinite, hmag, infMag], fun c _ => by simp [hval], fun c _ hne htie => ?_⟩,
    fun hge => ?_⟩
  · exact absurd (by simpa [hval] using htie) (hval ▸ hne)
  · exact absurd hge (by simpa using hbound)

end Nearest

end Sys2Proof.Ideal
end

section
/-! The square root (spec 00_scope.md R16): the root of a radicand and the integer root with its sticky bit lie on the
same side of every point that rounding compares with, so they round alike. -/

namespace Sys2Proof.Ideal

open Sys2Proof.Machine

/-- `x` and `y` lie on the same side of every multiple of `2 ^ e`. -/
structure SameSide (e : ℕ) (x y : ℝ) : Prop where
  lt_iff : ∀ c : ℕ, x < c * 2 ^ e ↔ y < c * 2 ^ e
  gt_iff : ∀ c : ℕ, c * 2 ^ e < x ↔ c * 2 ^ e < y

namespace SameSide

variable {e : ℕ} {x y : ℝ}

theorem ge_iff (h : SameSide e x y) (c : ℕ) : c * 2 ^ e ≤ x ↔ c * 2 ^ e ≤ y := by
  rw [← not_lt, ← not_lt, h.lt_iff]

theorem le_iff (h : SameSide e x y) (c : ℕ) : x ≤ c * 2 ^ e ↔ y ≤ c * 2 ^ e := by
  rw [← not_lt, ← not_lt, h.gt_iff]

theorem eq_iff (h : SameSide e x y) (c : ℕ) : x = c * 2 ^ e ↔ y = c * 2 ^ e := by
  rw [le_antisymm_iff, le_antisymm_iff, h.le_iff, h.ge_iff]

end SameSide

/-- The nearest integer at a unit `2 · p`: `x` lies between two odd multiples of `p`. -/
theorem nearestEven_succ_iff {m : ℕ} {p x : ℝ} (hp : 0 < p) :
    NearestEven (m + 1) (x / (2 * p)) ↔
      (2 * m + 1) * p ≤ x ∧ x ≤ (2 * m + 3) * p ∧
        (x = (2 * m + 1) * p ∨ x = (2 * m + 3) * p → Even (m + 1)) := by
  obtain ⟨y, rfl⟩ : ∃ y, x = y * p := ⟨x / p, (div_mul_cancel₀ x hp.ne').symm⟩
  have hy : 2 * (y * p / (2 * p)) = y := by field_simp
  rw [mul_le_mul_iff_left₀ hp, mul_le_mul_iff_left₀ hp, mul_left_inj' hp.ne', mul_left_inj' hp.ne']
  constructor
  · rintro ⟨hle, hge, heven⟩
    rw [hy] at hle hge heven
    push_cast at hle hge heven
    exact ⟨by linarith, by linarith, fun h => heven (h.imp (fun h => by linarith) fun h => by linarith)⟩
  · rintro ⟨hle, hge, heven⟩
    refine ⟨?_, ?_, ?_⟩ <;> rw [hy] <;> push_cast
    · linarith
    · linarith
    · exact fun h => heven (h.imp (fun h => by linarith) fun h => by linarith)

/-- Numbers on the same side of every multiple of `2 ^ e` have the same rounding at any coarser quantum. -/
theorem SameSide.roundsAt {e q m : ℕ} {x y : ℝ} (h : SameSide e x y) (he : e < q) (hx : RoundsAt q m x) :
    RoundsAt q m y := by
  obtain ⟨g, rfl⟩ := Nat.exists_eq_add_of_lt he
  have hgrid (k : ℕ) : (2 : ℝ) ^ (e + g + 1 + k) = ((2 ^ (g + 1 + k) : ℕ) : ℝ) * 2 ^ e := by
    push_cast
    ring
  have hunit : (2 : ℝ) ^ (e + g + 1) = 2 * (2 ^ g * 2 ^ e) := by ring
  have hodd (k : ℕ) : (k : ℝ) * (2 ^ g * 2 ^ e) = ((k * 2 ^ g : ℕ) : ℝ) * 2 ^ e := by
    push_cast
    ring
  have hm := hx.le_significand.resolve_left (by omega)
  obtain ⟨n, rfl⟩ : ∃ n, m = n + 1 := ⟨m - 1, by omega⟩
  refine ⟨?_, ?_, ?_⟩
  · rw [hgrid, ← h.lt_iff, ← hgrid]
    exact hx.lt
  · rw [hgrid, ← h.ge_iff, ← hgrid]
    exact hx.ge
  · have hnear := hx.nearest
    have h1 : 2 * (n : ℝ) + 1 = (2 * n + 1 : ℕ) := by push_cast; rfl
    have h3 : 2 * (n : ℝ) + 3 = (2 * n + 3 : ℕ) := by push_cast; rfl
    rw [hunit, nearestEven_succ_iff (by positivity), h1, h3, hodd, hodd] at hnear ⊢
    rwa [← h.ge_iff, ← h.le_iff, ← h.eq_iff, ← h.eq_iff]

/-! ### The root with its sticky bit -/

/-- The root and its sticky approximation lie on the same side of every scaled integer. -/
theorem stickyRoot_sameSide (n e : ℕ) :
    SameSide e ((stickyRoot n * 2 ^ e : ℕ) / (2 : ℕ)) (√(n : ℝ) * 2 ^ e) := by
  have he : (0 : ℝ) < 2 ^ e := by positivity
  have hhalf : ((stickyRoot n * 2 ^ e : ℕ) : ℝ) / (2 : ℕ) = (stickyRoot n : ℝ) / 2 * 2 ^ e := by
    push_cast
    ring
  rw [hhalf]
  refine ⟨fun c => ?_, fun c => ?_⟩
  · rw [mul_lt_mul_iff_left₀ he, mul_lt_mul_iff_left₀ he, div_lt_iff₀ two_pos, mul_comm (c : ℝ) 2,
      Real.sqrt_lt (Nat.cast_nonneg n) (Nat.cast_nonneg c), pow_two]
    exact_mod_cast stickyRoot_lt_iff n c
  · rw [mul_lt_mul_iff_left₀ he, mul_lt_mul_iff_left₀ he, lt_div_iff₀ two_pos, mul_comm (c : ℝ) 2,
      Real.lt_sqrt (Nat.cast_nonneg c), pow_two]
    exact_mod_cast lt_stickyRoot_iff n c

/-- Rounding the sticky root is rounding the root. -/
theorem stickyRoot_roundsTo {n : ℕ} (e : ℕ) (hn : 2 ^ 53 * 2 ^ 53 ≤ n) :
    RoundsTo (√(n : ℝ) * 2 ^ e / 2 ^ 1074) (roundUnits false (stickyRoot n * 2 ^ e) 2) :=
  ((stickyRoot_sameSide n e).roundsAt (stickyRoot_quantum_lt hn) (roundDiv_roundsAt two_pos)).roundsTo
    (by positivity) false

theorem sqrt_realValue {a : Word} (hs : signBit a = false) :
    √(realValue a) = √(radicand a : ℝ) * 2 ^ rootExponent a / 2 ^ 1074 := by
  have hscale : (0 : ℝ) < 2 ^ 1074 := by positivity
  have hrad : (radicand a : ℝ) * (2 ^ rootExponent a) ^ 2 = units a * 2 ^ 1074 := by
    simpa only [Nat.cast_mul, Nat.cast_pow, Nat.cast_ofNat] using
      congrArg (Nat.cast : ℕ → ℝ) (radicand_mul_scale a)
  have hval : realValue a = radicand a * (2 ^ rootExponent a / 2 ^ 1074) ^ 2 := by
    rw [div_pow, ← mul_div_assoc, hrad, realValue_eq, hs, withSign, pow_two, mul_div_mul_right _ _ hscale.ne']
    rfl
  rw [hval, Real.sqrt_mul (Nat.cast_nonneg _), Real.sqrt_sq (by positivity), mul_div_assoc]

theorem signBit_of_realValue_nonneg {a : Word} (h : 0 ≤ realValue a) (hz : isZero a = false) : signBit a = false := by
  by_contra hs
  rw [Bool.not_eq_false] at hs
  have hpos : (0 : ℝ) < units a := Nat.cast_pos.mpr (units_pos hz)
  rw [realValue_eq, hs, withSign, if_pos rfl, le_div_iff₀ (by positivity), zero_mul] at h
  linarith

end Sys2Proof.Ideal
end

section
/-! The order of the words (spec 00_scope.md R17), and the ideal reading of the constellation and of the taps (R22;
40_mapper.md R124; 41_rrc_generator.md R139 (b)). -/

namespace Sys2Proof.Ideal

open Sys2Proof.Machine

/-! ### Comparisons -/

theorem signedUnits_lt_iff {a b : Word} : signedUnits a < signedUnits b ↔ orderKey a < orderKey b := by
  have hlt := units_lt_units_iff (a := a) (b := b)
  have hgt := units_lt_units_iff (a := b) (b := a)
  have ha : units a = 0 ↔ magBits a = 0 := by simpa [isZero] using units_eq_zero_iff (a := a)
  have hb : units b = 0 ↔ magBits b = 0 := by simpa [isZero] using units_eq_zero_iff (a := b)
  unfold signedUnits orderKey
  cases signBit a <;> cases signBit b <;> simp only [if_true, if_false, Bool.false_eq_true] <;> omega

theorem realValue_lt_iff {a b : Word} : realValue a < realValue b ↔ orderKey a < orderKey b := by
  rw [realValue, realValue, div_lt_div_iff_of_pos_right (by positivity), Int.cast_lt, signedUnits_lt_iff]

theorem realValue_eq_iff {a b : Word} : realValue a = realValue b ↔ orderKey a = orderKey b := by
  rw [le_antisymm_iff, le_antisymm_iff, ← not_lt, ← not_lt, ← not_lt, ← not_lt, realValue_lt_iff, realValue_lt_iff]

/-! ### The ideal reading -/

theorem idealPoint_eq_exp (k : ℕ) :
    idealPoint k = Complex.exp (((2 * k + 1) * Real.pi / 4 : ℝ) * Complex.I) := by
  have hangle : Real.pi * (2 * k + 1) / 4 = (2 * k + 1) * Real.pi / 4 := by ring
  apply Complex.ext
  · rw [Complex.exp_ofReal_mul_I_re, ← hangle, idealPoint]
  · rw [Complex.exp_ofReal_mul_I_im, ← hangle, idealPoint]

theorem idealPoint_succ (k : ℕ) : idealPoint (k + 1) = Complex.I * idealPoint k := by
  have hangle : Real.pi * (2 * (k + 1 : ℕ) + 1) / 4 = Real.pi * (2 * k + 1) / 4 + Real.pi / 2 := by
    push_cast
    ring
  apply Complex.ext <;> simp only [idealPoint, hangle, Real.cos_add_pi_div_two, Real.sin_add_pi_div_two] <;> simp

theorem idealTapG_neg (β Ts t : ℝ) : idealTapG β Ts (-t) = idealTapG β Ts t := by
  have hsin : Real.sin (Real.pi * -t / Ts * (1 - β)) = -Real.sin (Real.pi * t / Ts * (1 - β)) := by
    rw [← Real.sin_neg]
    congr 1
    ring
  have hcos : Real.cos (Real.pi * -t / Ts * (1 + β)) = Real.cos (Real.pi * t / Ts * (1 + β)) := by
    rw [← Real.cos_neg]
    congr 1
    ring
  rw [idealTapG, idealTapG, hsin, hcos, ← neg_div_neg_eq]
  congr 1 <;> ring

theorem idealTap_neg (β Ts t : ℝ) : idealTap β Ts (-t) = idealTap β Ts t := by
  have hsing : (-t = Ts / (4 * β) ∨ -t = -(Ts / (4 * β))) ↔ (t = Ts / (4 * β) ∨ t = -(Ts / (4 * β))) := by
    rw [neg_inj, neg_eq_iff_eq_neg, or_comm]
  simp only [idealTap, neg_eq_zero, hsing, idealTapG_neg]

end Sys2Proof.Ideal
end

section
/-! The statements of 00_scope.md, settled: the numbers (R12, R15 to R17, R22), a step (R9) and an OK response (R14). -/

namespace Sys2Proof.Proofs

open Sys2Proof.Machine Sys2Proof.Ideal

/-- Settles O8: the fetch answers with the decoded operation, and the step runs it. -/
theorem stepRunsTheDecodedOperation : Obligations.StepRunsTheDecodedOperation := by
  intro s w ps rest i hin hdec
  have hfetch : fetch s = .run i { s with inbox := rest } := by simp only [fetch, hin, hdec]
  rw [step, hfetch]

/-- Settles O48: the count fits `NW`, and the response word is the count times 256. -/
theorem responseCarriesItsWords : Obligations.ResponseCarriesItsWords := by
  intro ws s hlen
  rw [respond_of_lt hlen, rspWord_ok hlen]

/-- Settles O53: the sum in units is an integer, zero or rounded by `roundUnits`. -/
theorem addIsCorrectlyRounded : Obligations.AddIsCorrectlyRounded := by
  intro a b ha hb
  have hsum : realValue a + realValue b = ((signedUnits a + signedUnits b : ℤ) : ℝ) / 2 ^ 1074 := by
    rw [realValue, realValue, ← add_div, Int.cast_add]
  rw [hsum, addF_of_isFinite ha hb]
  generalize signedUnits a + signedUnits b = z
  split
  case isTrue hz => simpa [hz] using roundsTo_zero (ofMag_zero_isZero _)
  case isFalse hz =>
    simpa only [Nat.cast_one, div_one, withSign_natAbs] using
      roundUnits_roundsTo (n := z.natAbs) one_pos (decide (z < 0))

/-- Settles O54: the product in units is the quotient that `mulF` rounds. -/
theorem mulIsCorrectlyRounded : Obligations.MulIsCorrectlyRounded := by
  intro a b ha hb
  have hprod : realValue a * realValue b =
      withSign (signBit a != signBit b) ((units a * units b : ℕ) / (2 ^ 1074 : ℕ)) / 2 ^ 1074 := by
    rw [realValue_eq, realValue_eq, div_mul_div_comm, withSign_mul, ← div_div, withSign_div_right, Nat.cast_mul,
      Nat.cast_pow, Nat.cast_ofNat]
  rw [hprod, mulF_of_isFinite ha hb]
  exact roundUnits_roundsTo (by positivity) _

/-- Settles O55: the quotient in units is the one that `divF` rounds. -/
theorem divIsCorrectlyRounded : Obligations.DivIsCorrectlyRounded := by
  intro a b ha hb hz
  have hscale : (2 : ℝ) ^ 1074 ≠ 0 := by positivity
  have hquot : realValue a / realValue b =
      withSign (signBit a != signBit b) ((units a * 2 ^ 1074 : ℕ) / (units b : ℕ)) / 2 ^ 1074 := by
    rw [realValue_eq, realValue_eq, div_div_div_cancel_right₀ hscale, withSign_div, Nat.cast_mul, Nat.cast_pow,
      Nat.cast_ofNat, mul_div_right_comm, ← withSign_mul_right, mul_div_cancel_right₀ _ hscale]
  rw [hquot, divF_of_isFinite ha hb hz]
  exact roundUnits_roundsTo (units_pos hz) _

/-- Settles O56: a zero is its own root, and any other root rounds as its sticky integer root does. -/
theorem sqrtIsCorrectlyRounded : Obligations.SqrtIsCorrectlyRounded := by
  intro a ha hnonneg
  by_cases hz : isZero a = true
  · rw [sqrtF_of_isZero hz, realValue_eq_zero_iff.mpr (units_of_isZero hz), Real.sqrt_zero]
    exact roundsTo_zero hz
  · rw [Bool.not_eq_true] at hz
    have hs := signBit_of_realValue_nonneg hnonneg hz
    rw [sqrt_realValue hs, sqrtF_of_pos ha hz hs]
    exact stickyRoot_roundsTo _ (le_radicand hz)

/-- Settles O57, clause by clause from what each operation gives for a class of operands. -/
theorem specialOperandsGiveTheDefaultResults : Obligations.SpecialOperandsGiveTheDefaultResults := by
  refine fun a b => ⟨⟨addF_isNaN_iff, mulF_isNaN_iff, divF_isNaN_iff, sqrtF_isNaN_iff⟩, ?infinite, ?zero, ?sign,
    rfl, negF_signBit a, negF_magBits a⟩
  case infinite =>
    exact ⟨addF_of_isInf_isFinite, addF_of_isInf_same_sign, mulF_isInf, divF_of_isInf, divF_zero_isInf,
      sqrtF_of_isInf⟩
  case zero => exact ⟨addF_isZero, mulF_isZero, divF_isZero, sqrtF_of_isZero⟩
  case sign =>
    refine ⟨addF_signBit_of_isZero, fun h => ?_, fun h => ?_⟩
    · rw [(mulF_signed a b).signBit_eq h, bne_iff_ne]
    · rw [(divF_signed a b).signBit_eq h, bne_iff_ne]

/-- Settles O58: the signed magnitude fields are ordered as the numbers are. -/
theorem comparisonsAreThoseOfTheNumbers : Obligations.ComparisonsAreThoseOfTheNumbers := by
  refine fun a b => ⟨fun ha hb => ?_, fun hnan => ?_⟩
  · rw [realValue_lt_iff, realValue_eq_iff]
    simp [eqF, ltF, isNaN_of_isFinite ha, isNaN_of_isFinite hb]
  · rcases hnan with h | h <;> simp [eqF, ltF, h]

/-- Settles O59: an integer is a multiple of the quantum it is rounded at, and far below the overflow bound. -/
theorem integersConvertExactly : Obligations.IntegersConvertExactly := by
  intro i hi
  have hscale : (2 : ℝ) ^ 1074 ≠ 0 := by positivity
  have hdvd : 2 ^ quantum (i.natAbs * 2 ^ 1074) 1 ∣ i.natAbs * 2 ^ 1074 := by
    refine Dvd.dvd.mul_left (pow_dvd_pow 2 (quantum_le one_pos ?_)) _
    rw [mul_one, add_comm, pow_add]
    exact Nat.mul_lt_mul_of_pos_right (hi.trans (by norm_num)) (by positivity)
  have hbound : ((i.natAbs * 2 ^ 1074 : ℕ) : ℝ) < (2 ^ 53 - 1 / 2) * 2 ^ 2045 := by
    have hi' : (i.natAbs : ℝ) < 2 ^ 53 - 1 / 2 := by
      have : (i.natAbs : ℝ) < 2 ^ 24 := by exact_mod_cast hi
      linarith
    rw [Nat.cast_mul, Nat.cast_pow, Nat.cast_ofNat]
    exact mul_lt_mul hi' (pow_le_pow_right₀ (by norm_num) (by norm_num)) (by positivity) (by norm_num)
  obtain ⟨hfin, hunits⟩ := roundUnits_exact (decide (i < 0)) hbound hdvd
  refine ⟨hfin, ?_⟩
  rw [realValue_eq, ofIntF, roundUnits_signBit, hunits, Nat.cast_mul, ← withSign_mul_right, withSign_natAbs,
    Nat.cast_pow, Nat.cast_ofNat, mul_div_cancel_right₀ _ hscale]

/-- Settles O60: a point is `exp` of its angle, and both parts of the fraction of branch G are odd in `t`. -/
theorem idealReadingIsExact : Obligations.IdealReadingIsExact := by
  refine ⟨fun k => ⟨?_, idealPoint_eq_exp k, idealPoint_succ k⟩, idealTap_neg⟩
  rw [idealPoint_eq_exp, Complex.norm_exp_ofReal_mul_I]

end Sys2Proof.Proofs
end

section
/-! What an operation writes when it completes (spec 10_state.md R40), said once for all sixteen rows: the statements about
the phase, the writers and the invariant are case splits along `Writes`. -/

namespace Sys2Proof.Machine

/-- The operations that write no piece of state, and answer with words only. -/
def readsOnly : Instr → Bool
  | .rdcfg _ | .rdstat | .map _ | .unpack _ | .mod _ _ | .modNb8 _ | .rdcoef _ => true
  | _ => false

/-- `Writes i s u`: completing in `s`, the operation `i` leaves the pieces of state of R40 as in `u`, before it responds.
Which samples the filter was given, and how many free values were used, is left open: the laws of `FILTER` and `PUSHB` say
it, and no piece's writers, lengths or bounds depend on it. -/
inductive Writes : Instr → State → State → Prop where
  | nothing {i s} (hi : readsOnly i = true) : Writes i s s
  | wrcfgN {v s} (hp : s.phase = .config) : Writes (.wrcfgN v) s { s with cfgN := v }
  | wrcfgTs {v s} (hp : s.phase = .config) : Writes (.wrcfgTs v) s { s with cfgTs := v }
  | wrcfgRbs {v s} (hp : s.phase = .config) : Writes (.wrcfgRbs v) s { s with cfgRbs := v }
  | wrcfgBeta {x s} (hp : s.phase = .config) (hx : isNaN x = false) :
      Writes (.wrcfgBeta x) s { s with cfgBeta := clamp01 x }
  | init {s taps} (hp : s.phase = .config) (hlegal : LegalConfig s)
      (htaps : rrc hwTrig s.cfgBeta s.cfgN.toNat s.cfgTs.toNat = some taps) :
      Writes .init s (openSession taps s)
  | wrcoef {p w s cs} (hp : s.phase = .run) (hc : s.coef = some cs) :
      Writes (.wrcoef p w) s { s with coef := some (cs.set p.toNat w) }
  | filter {l ps s c hs xs k} (hp : s.phase = .run) (hh : s.hist = some hs) :
      Writes (.filter l ps) s { s with hist := some (fir c hs xs).2, freeCtr := k }
  | pushbSends {v s c hs xs k} (q : List Sample) (hp : s.phase = .run) (hh : s.hist = some hs) :
      Writes (.pushb v) s
        { s with
          hist := some (fir c hs xs).2
          freeCtr := k
          sink := s.sink ++ markLast (wordsOf q)
          outq := [] }
  | pushbStages {v s c hs xs k} (q : List Sample) (hp : s.phase = .run) (hh : s.hist = some hs)
      (hq : q.length < s.cfgRbs.toNat) :
      Writes (.pushb v) s { s with hist := some (fir c hs xs).2, freeCtr := k, outq := q }
  | flush {s} (hp : s.phase = .run) :
      Writes .flush s { emit s.outq s with outq := [], coef := none, hist := none, phase := .config }

/-- An operation that answers a next state raised a fault, or completed: it wrote its pieces of state and responded. -/
theorem exec_next {i : Instr} {s t : State} (h : exec i s = .next t) :
    (∃ f, t = raise f s) ∨ ∃ ws u, Writes i s u ∧ t = respond ws u := by
  cases i with
  | wrcfgN v =>
    obtain ⟨hp, ht⟩ | ⟨-, ht⟩ := execWrcfgN_next h
    · exact .inr ⟨_, _, .wrcfgN hp, ht⟩
    · exact .inl ⟨_, ht⟩
  | wrcfgTs v =>
    obtain ⟨hp, ht⟩ | ⟨-, ht⟩ := execWrcfgTs_next h
    · exact .inr ⟨_, _, .wrcfgTs hp, ht⟩
    · exact .inl ⟨_, ht⟩
  | wrcfgRbs v =>
    obtain ⟨hp, ht⟩ | ⟨-, ht⟩ := execWrcfgRbs_next h
    · exact .inr ⟨_, _, .wrcfgRbs hp, ht⟩
    · exact .inl ⟨_, ht⟩
  | wrcfgBeta x =>
    obtain ⟨hp, hx, ht⟩ | ⟨-, -, ht⟩ | ⟨-, ht⟩ := execWrcfgBeta_next h
    · exact .inr ⟨_, _, .wrcfgBeta hp hx, ht⟩
    · exact .inl ⟨_, ht⟩
    · exact .inl ⟨_, ht⟩
  | rdcfg r =>
    obtain ⟨-, ht⟩ | ⟨-, ht⟩ := execRdcfg_next h
    · exact .inr ⟨_, _, .nothing rfl, ht⟩
    · exact .inl ⟨_, ht⟩
  | rdstat => exact .inr ⟨_, _, .nothing rfl, execRdstat_next h⟩
  | init =>
    obtain ⟨hp, hlegal, taps, htaps, ht⟩ | ⟨-, ht | ht⟩ | ⟨-, ht⟩ := execInit_next h
    · exact .inr ⟨_, _, .init hp hlegal htaps, ht⟩
    · exact .inl ⟨_, ht⟩
    · exact .inl ⟨_, ht⟩
    · exact .inl ⟨_, ht⟩
  | map b =>
    obtain ⟨-, ht⟩ | ⟨-, ht⟩ := execMap_next h
    · exact .inr ⟨_, _, .nothing rfl, ht⟩
    · exact .inl ⟨_, ht⟩
  | unpack v =>
    obtain ⟨-, ht⟩ | ⟨-, ht⟩ := execUnpack_next h
    · exact .inr ⟨_, _, .nothing rfl, ht⟩
    · exact .inl ⟨_, ht⟩
  | mod nb v =>
    obtain ⟨-, -, ht⟩ | ⟨-, -, ht⟩ | ⟨-, ht⟩ := modBits_next h
    · exact .inr ⟨_, _, .nothing rfl, ht⟩
    · exact .inl ⟨_, ht⟩
    · exact .inl ⟨_, ht⟩
  | modNb8 v =>
    obtain ⟨-, -, ht⟩ | ⟨-, -, ht⟩ | ⟨-, ht⟩ := modBits_next h
    · exact .inr ⟨_, _, .nothing rfl, ht⟩
    · exact .inl ⟨_, ht⟩
    · exact .inl ⟨_, ht⟩
  | rdcoef p =>
    obtain ⟨-, -, cs, -, -, ht⟩ | ⟨-, -, ht⟩ | ⟨-, ht⟩ := execRdcoef_next h
    · exact .inr ⟨_, _, .nothing rfl, ht⟩
    · exact .inl ⟨_, ht⟩
    · exact .inl ⟨_, ht⟩
  | wrcoef p w =>
    obtain ⟨hp, -, cs, hc, -, ht⟩ | ⟨-, -, ht⟩ | ⟨-, ht⟩ := execWrcoef_next h
    · exact .inr ⟨_, _, .wrcoef hp hc, ht⟩
    · exact .inl ⟨_, ht⟩
    · exact .inl ⟨_, ht⟩
  | filter l ps =>
    obtain ⟨-, ⟨hp, -, c, hs, -, -, hh, -, ht⟩ | ⟨-, -, ht⟩ | ⟨-, ht⟩⟩ := execFilter_next h
    · exact .inr ⟨_, _, .filter hp hh, ht⟩
    · exact .inl ⟨_, ht⟩
    · exact .inl ⟨_, ht⟩
  | pushb v =>
    obtain ⟨hp, c, hs, -, -, hh, -, ht⟩ | ⟨-, ht⟩ := execPushb_next h
    · obtain ⟨-, hstage⟩ | ⟨hq, hstage⟩ :=
        stage_cases (s.outq ++ deliverSamples s.freeCtr (fir c hs (byteChips v s)).1)
          { s with
            hist := some (fir c hs (byteChips v s)).2
            freeCtr := s.freeCtr + 2 * (byteChips v s).length }
      · exact .inr ⟨_, _, .pushbSends _ hp hh, by rw [ht, hstage]⟩
      · exact .inr ⟨_, _, .pushbStages _ hp hh hq, by rw [ht, hstage]⟩
    · exact .inl ⟨_, ht⟩
  | flush =>
    obtain ⟨hp, ht⟩ | ⟨-, ht⟩ := execFlush_next h
    · exact .inr ⟨_, _, .flush hp, ht⟩
    · exact .inl ⟨_, ht⟩

/-- `INIT` opens a session, `FLUSH` ends it, and nothing else that completes moves the phase (R45). -/
theorem Writes.phase {i : Instr} {s u : State} (h : Writes i s u) :
    u.phase = s.phase ∨ (i = .init ∧ s.phase = .config ∧ u.phase = .run) ∨
      (i = .flush ∧ s.phase = .run ∧ u.phase = .config) := by
  cases h with
  | init hp _ _ => exact .inr (.inl ⟨rfl, hp, rfl⟩)
  | flush hp => exact .inr (.inr ⟨rfl, hp, rfl⟩)
  | _ => exact .inl rfl

/-- Only a fault writes `FCODE` (R45). -/
theorem Writes.fcode {i : Instr} {s u : State} (h : Writes i s u) : u.fcode = s.fcode := by
  cases h <;> rfl

/-- The moves to come belong to the environment: no operation writes them. -/
theorem Writes.inbox {i : Instr} {s u : State} (h : Writes i s u) : u.inbox = s.inbox := by
  cases h <;> rfl

/-- A configuration register is written in `CONFIG` only. -/
theorem Writes.configuration {i : Instr} {s u : State} (h : Writes i s u) (hp : s.phase ≠ .config) :
    u.cfgN = s.cfgN ∧ u.cfgTs = s.cfgTs ∧ u.cfgRbs = s.cfgRbs ∧ u.cfgBeta = s.cfgBeta := by
  cases h with
  | wrcfgN hc | wrcfgTs hc | wrcfgRbs hc | wrcfgBeta hc _ => exact absurd hc hp
  | _ => exact ⟨rfl, rfl, rfl, rfl⟩

/-- Each configuration register has one writer (R40 to R44). -/
theorem Writes.register {i : Instr} {s u : State} (h : Writes i s u) :
    (u.cfgN ≠ s.cfgN → ∃ v, i = .wrcfgN v) ∧ (u.cfgTs ≠ s.cfgTs → ∃ v, i = .wrcfgTs v) ∧
      (u.cfgRbs ≠ s.cfgRbs → ∃ v, i = .wrcfgRbs v) ∧ (u.cfgBeta ≠ s.cfgBeta → ∃ x, i = .wrcfgBeta x) := by
  cases h with
  | wrcfgN | wrcfgTs | wrcfgRbs | wrcfgBeta => simp
  | _ => exact ⟨absurd rfl, absurd rfl, absurd rfl, absurd rfl⟩

/-- The writers of `COEF` (R47). -/
theorem Writes.coef {i : Instr} {s u : State} (h : Writes i s u) (hne : u.coef ≠ s.coef) :
    i = .init ∨ (∃ p c, i = .wrcoef p c) ∨ i = .flush := by
  cases h with
  | init => exact .inl rfl
  | wrcoef => exact .inr (.inl ⟨_, _, rfl⟩)
  | flush => exact .inr (.inr rfl)
  | _ => exact absurd rfl hne

/-- The writers of `H` (R48). -/
theorem Writes.hist {i : Instr} {s u : State} (h : Writes i s u) (hne : u.hist ≠ s.hist) :
    i = .init ∨ (∃ l ps, i = .filter l ps) ∨ (∃ v, i = .pushb v) ∨ i = .flush := by
  cases h with
  | init => exact .inl rfl
  | filter => exact .inr (.inl ⟨_, _, rfl⟩)
  | pushbSends | pushbStages => exact .inr (.inr (.inl ⟨_, rfl⟩))
  | flush => exact .inr (.inr (.inr rfl))
  | _ => exact absurd rfl hne

/-- The writers of `OUTQ` (R49). -/
theorem Writes.outq {i : Instr} {s u : State} (h : Writes i s u) (hne : u.outq ≠ s.outq) :
    i = .init ∨ (∃ v, i = .pushb v) ∨ i = .flush := by
  cases h with
  | init => exact .inl rfl
  | pushbSends | pushbStages => exact .inr (.inl ⟨_, rfl⟩)
  | flush => exact .inr (.inr rfl)
  | _ => exact absurd rfl hne

/-- The senders of bursts (R191, R192). -/
theorem Writes.sink {i : Instr} {s u : State} (h : Writes i s u) (hne : u.sink ≠ s.sink) :
    (∃ v, i = .pushb v) ∨ i = .flush := by
  cases h with
  | pushbSends => exact .inl ⟨_, rfl⟩
  | flush => exact .inr rfl
  | _ => exact absurd rfl hne

end Sys2Proof.Machine
end

section
/-! The invariant of the block (spec 10_state.md R44, R45, R51, R56), phase by phase, and why a fault, a response, a
reset and what each operation writes keep it. -/

namespace Sys2Proof.Machine

/-! ### What `INIT` and `WRCFG BETA` store -/

/-- The generator gives as many taps as it is asked for (R137). -/
theorem tapsAt_length {tr : Trig} {beta : Word} {n ts : ℕ} {ps : List ℕ} {cs : List Word}
    (h : tapsAt tr beta n ts ps = some cs) : cs.length = ps.length := by
  induction ps generalizing cs with
  | nil => cases h; rfl
  | cons p ps ih =>
    rw [tapsAt] at h
    split at h
    · cases h
    · split at h
      · cases h
      next hrest => cases h; exact congrArg (· + 1) (ih hrest)

/-- `RRC(β, N, Ts)` has `N` taps (R130). -/
theorem rrc_length {tr : Trig} {beta : Word} {n ts : ℕ} {cs : List Word} (h : rrc tr beta n ts = some cs) :
    cs.length = n := (tapsAt_length h).trans List.length_range

/-- A clamped number lies in [0, 1] (R44, R187). -/
theorem clamp01_inUnitInterval {x : Word} (hx : isNaN x = false) : inUnitInterval (clamp01 x) = true := by
  unfold clamp01
  split
  case isTrue => rw [inUnitInterval, oneF_eq]; decide
  case isFalse hlow =>
    split
    case isTrue => rw [inUnitInterval, oneF_eq]; decide
    case isFalse hhigh => simp [inUnitInterval, hx, hlow, hhigh]

/-! ### The invariant in each phase -/

theorem blockInv_iff_of_config {s : State} (hp : s.phase = .config) :
    BlockInv s ↔ inUnitInterval s.cfgBeta = true ∧ s.fcode = none ∧ NoSession s := by
  simp [BlockInv, hp]

theorem blockInv_iff_of_run {s : State} (hp : s.phase = .run) :
    BlockInv s ↔ inUnitInterval s.cfgBeta = true ∧ s.fcode = none ∧ OpenSession s := by
  simp [BlockInv, hp]

theorem BlockInv.of_config {s : State} (hp : s.phase = .config) (hbeta : inUnitInterval s.cfgBeta = true)
    (hcode : s.fcode = none) (hsession : NoSession s) : BlockInv s :=
  (blockInv_iff_of_config hp).mpr ⟨hbeta, hcode, hsession⟩

theorem BlockInv.of_run {s : State} (hp : s.phase = .run) (hbeta : inUnitInterval s.cfgBeta = true)
    (hcode : s.fcode = none) (hsession : OpenSession s) : BlockInv s :=
  (blockInv_iff_of_run hp).mpr ⟨hbeta, hcode, hsession⟩

/-- In every phase the memories are either those of no session or those of an open one. -/
theorem BlockInv.session {s : State} (h : BlockInv s) : NoSession s ∨ OpenSession s := by
  obtain ⟨-, -, hconfig, hrun, hfaulted⟩ := h
  cases hp : s.phase with
  | config => exact .inl (hconfig hp)
  | run => exact .inr (hrun hp)
  | faulted => exact hfaulted hp

/-! ### What keeps the invariant -/

/-- The reset state has no session, and its β is 0.25 (R57). -/
theorem blockInv_reset : BlockInv State.reset :=
  .of_config rfl (by rw [inUnitInterval, oneF_eq]; decide) rfl ⟨rfl, rfl, rfl⟩

/-- The invariant does not speak of the moves to come, nor of the counter of free values. -/
theorem blockInv_resetBlock (s : State) : BlockInv (resetBlock s) := blockInv_reset

/-- A fault leaves the session as it stood and writes `FCODE` with the phase (R221, R222). -/
theorem BlockInv.raise {s : State} (h : BlockInv s) (f : FaultCode) : BlockInv (raise f s) := by
  have hsession := h.session
  obtain ⟨hbeta, hcode, -⟩ := h
  refine ⟨hbeta, ⟨fun _ => rfl, fun _ => ?_⟩, by simp, by simp, fun _ => hsession⟩
  rw [raise_fcode]
  split
  case isTrue hp => exact hcode.mpr hp
  case isFalse => simp

/-- A response writes nothing the invariant speaks of. -/
theorem blockInv_respond {ws : List Word} {s : State} : BlockInv (respond ws s) ↔ BlockInv s := Iff.rfl

/-- What a completing operation writes keeps the invariant: `WRCFG` has no session to disturb, `INIT` opens one, `FLUSH`
ends it, and the other writers keep the lengths of the memories and the queue below the threshold. -/
theorem Writes.blockInv {i : Instr} {s u : State} (h : Writes i s u) (hinv : BlockInv s) : BlockInv u := by
  cases h with
  | nothing => exact hinv
  | wrcfgN hp | wrcfgTs hp | wrcfgRbs hp =>
    obtain ⟨hbeta, hcode, hnone⟩ := (blockInv_iff_of_config hp).mp hinv
    exact .of_config hp hbeta hcode hnone
  | wrcfgBeta hp hx =>
    obtain ⟨-, hcode, hnone⟩ := (blockInv_iff_of_config hp).mp hinv
    exact .of_config hp (clamp01_inUnitInterval hx) hcode hnone
  | init hp hlegal htaps =>
    obtain ⟨hbeta, hcode, -⟩ := (blockInv_iff_of_config hp).mp hinv
    have ⟨_, hn, _, _, _, hrbs, _⟩ := hlegal
    have hwf := wf_openSession (rrc_length htaps) (Nat.one_le_of_lt hn)
    exact .of_run rfl hbeta hcode ⟨hlegal, rfl, rfl, hwf, hrbs⟩
  | wrcoef hp hc =>
    obtain ⟨hbeta, hcode, hlegal, -, hhist, hwf, hqueue⟩ := (blockInv_iff_of_run hp).mp hinv
    exact .of_run hp hbeta hcode ⟨hlegal, rfl, hhist, wf_set_coef hwf hc _ _, hqueue⟩
  | filter hp hh =>
    obtain ⟨hbeta, hcode, hlegal, hcoef, -, hwf, hqueue⟩ := (blockInv_iff_of_run hp).mp hinv
    exact .of_run hp hbeta hcode ⟨hlegal, hcoef, rfl, wf_set_hist hwf hh _, hqueue⟩
  | pushbSends q hp hh =>
    obtain ⟨hbeta, hcode, hlegal, hcoef, -, hwf, -⟩ := (blockInv_iff_of_run hp).mp hinv
    have ⟨_, _, _, _, _, hrbs, _⟩ := hlegal
    exact .of_run hp hbeta hcode ⟨hlegal, hcoef, rfl, wf_set_hist hwf hh _, hrbs⟩
  | pushbStages q hp hh hq =>
    obtain ⟨hbeta, hcode, hlegal, hcoef, -, hwf, -⟩ := (blockInv_iff_of_run hp).mp hinv
    exact .of_run hp hbeta hcode ⟨hlegal, hcoef, rfl, wf_set_hist hwf hh _, hq⟩
  | flush hp =>
    obtain ⟨hbeta, hcode, -⟩ := (blockInv_iff_of_run hp).mp hinv
    exact .of_config rfl hbeta hcode ⟨rfl, rfl, rfl⟩

/-- Every operation keeps the invariant, whether it completes or faults. -/
theorem exec_blockInv {i : Instr} {s t : State} (hinv : BlockInv s) (h : exec i s = .next t) : BlockInv t := by
  obtain ⟨f, rfl⟩ | ⟨ws, u, hw, rfl⟩ := exec_next h
  · exact hinv.raise f
  · exact blockInv_respond.mpr (hw.blockInv hinv)

end Sys2Proof.Machine
end

section
/-! Which meanings have a next state, and where they stop (spec 10_state.md R51; 60_exceptions.md R218): the reads of `COEF`
and `H` are the only stops. -/

namespace Sys2Proof.Machine

/-! ### Stops of the two reads -/

theorem withCoef_none {s : State} {k : List Word → Host.Outcome State Fault Refusal} (hc : s.coef = none) :
    withCoef s k = .refused .noValue := by simp [withCoef, hc]

theorem withCoef_sizeMismatch {s : State} {c : List Word} {k : List Word → Host.Outcome State Fault Refusal}
    (hc : s.coef = some c) (hl : c.length ≠ s.cfgN.toNat) : withCoef s k = .fault .sizeMismatch := by
  simp [withCoef, hc, hl]

section
variable {s : State} {c : List Word} {k : List Word → List Sample → Host.Outcome State Fault Refusal}

theorem withSession_hist_none (hc : s.coef = some c) (hl : c.length = s.cfgN.toNat) (hh : s.hist = none) :
    withSession s k = .refused .noValue := by
  rw [withSession, withCoef_some _ hc hl, hh]

theorem withSession_sizeMismatch {h : List Sample} (hc : s.coef = some c) (hl : c.length = s.cfgN.toNat)
    (hh : s.hist = some h) (hn : h.length + 1 ≠ s.cfgN.toNat) : withSession s k = .fault .sizeMismatch := by
  rw [withSession, withCoef_some _ hc hl, hh, hl]
  exact if_neg hn

end

/-! ### The four operations that read the memories, past their other checks -/

section
variable {s : State} (hp : s.phase = .run)
include hp

theorem exec_rdcoef_of_run {p : Imm} (hlt : p.toNat < s.cfgN.toNat) : ∃ k, exec (.rdcoef p) s = withCoef s k :=
  ⟨_, (requirePhase_same _ hp).trans (if_pos hlt)⟩

theorem exec_wrcoef_of_run {p : Imm} (x : Word) (hlt : p.toNat < s.cfgN.toNat) :
    ∃ k, exec (.wrcoef p x) s = withCoef s k :=
  ⟨_, (requirePhase_same _ hp).trans (if_pos hlt)⟩

theorem exec_filter_of_run {l : Imm} {ps : List Word} (hlen : ps.length = 2 * l.toNat) (hl : l.toNat ≤ lMax) :
    ∃ k, exec (.filter l ps) s = withSession s k :=
  ⟨_, (if_pos hlen).trans ((requirePhase_same _ hp).trans (if_neg (Nat.not_lt.mpr hl)))⟩

theorem exec_pushb_of_run (v : Byte) : ∃ k, exec (.pushb v) s = withSession s k :=
  ⟨_, requirePhase_same _ hp⟩

end

/-! ### Outcomes that are a next state -/

/-- The outcome is a next state. -/
def HasNext (o : Host.Outcome State Fault Refusal) : Prop := ∃ t, o = .next t

theorem hasNext_next (t : State) : HasNext (.next t) := ⟨t, rfl⟩

theorem HasNext.ite {c : Prop} [Decidable c] {o o' : Host.Outcome State Fault Refusal} (h : HasNext o)
    (h' : HasNext o') : HasNext (if c then o else o') := by
  split
  · exact h
  · exact h'

/-- A failed phase check is a fault of the block, and has a next state. -/
theorem hasNext_requirePhase {p : Phase} {s : State} {k : Host.Outcome State Fault Refusal}
    (h : s.phase = p → HasNext k) : HasNext (requirePhase p s k) := by
  unfold requirePhase
  split
  case isTrue hp => exact h hp
  case isFalse => exact hasNext_next _

/-- The memories of an open session have their configured lengths (R56). -/
theorem OpenSession.memories {s : State} (h : OpenSession s) :
    ∃ c hs, s.coef = some c ∧ c.length = s.cfgN.toNat ∧ s.hist = some hs ∧ hs.length + 1 = c.length := by
  obtain ⟨-, hcoef, hhist, hwf, -⟩ := h
  obtain ⟨c, hc⟩ := Option.isSome_iff_exists.mp hcoef
  obtain ⟨hs, hh⟩ := Option.isSome_iff_exists.mp hhist
  have hlen : c.length = s.cfgN.toNat ∧ hs.length + 1 = s.cfgN.toNat := by simpa [Memory.wf, hc, hh] using hwf
  exact ⟨c, hs, hc, hlen.1, hh, hlen.2.trans hlen.1.symm⟩

theorem OpenSession.hasNext_withTap {s : State} {p : Imm} {k : List Word → Host.Outcome State Fault Refusal}
    (h : OpenSession s) (hk : ∀ c, HasNext (k c)) : HasNext (withTap p s k) := by
  obtain ⟨c, hs, hc, hl, -⟩ := h.memories
  refine HasNext.ite ?_ (hasNext_next _)
  rw [withCoef_some _ hc hl]
  exact hk c

theorem OpenSession.hasNext_withSession {s : State}
    {k : List Word → List Sample → Host.Outcome State Fault Refusal} (h : OpenSession s)
    (hk : ∀ c hs, HasNext (k c hs)) : HasNext (withSession s k) := by
  obtain ⟨c, hs, hc, hl, hh, hn⟩ := h.memories
  rw [withSession_some _ hc hl hh hn]
  exact hk c hs

theorem hasNext_modBits (nb : ℕ) (v : Byte) (s : State) : HasNext (modBits nb v s) :=
  hasNext_requirePhase fun _ => .ite (hasNext_next _) (hasNext_next _)

theorem hasNext_execInit (s : State) : HasNext (execInit s) := by
  refine hasNext_requirePhase fun _ => .ite (hasNext_next _) (.ite (hasNext_next _) (.ite (hasNext_next _) ?_))
  split
  · exact hasNext_next _
  · exact hasNext_next _

/-- From a state of the invariant every well-formed operation has a next state. -/
theorem BlockInv.hasNext_exec {i : Instr} {s : State} (hinv : BlockInv s) (hi : i.wellFormed = true) :
    HasNext (exec i s) := by
  obtain ⟨-, -, -, hrun, -⟩ := hinv
  cases i with
  | wrcfgN | wrcfgTs | wrcfgRbs | map | unpack | flush => exact hasNext_requirePhase fun _ => hasNext_next _
  | wrcfgBeta => exact hasNext_requirePhase fun _ => .ite (hasNext_next _) (hasNext_next _)
  | rdcfg => exact .ite (hasNext_next _) (hasNext_next _)
  | rdstat => exact hasNext_next _
  | init => exact hasNext_execInit s
  | mod | modNb8 => exact hasNext_modBits _ _ s
  | rdcoef | wrcoef =>
    exact hasNext_requirePhase fun hp => (hrun hp).hasNext_withTap fun _ => hasNext_next _
  | filter l ps =>
    have hlen : ps.length = 2 * l.toNat := by simpa [Instr.wellFormed, Instr.payload, Instr.payloadWords] using hi
    show HasNext (execFilter l ps s)
    rw [execFilter, if_pos hlen]
    exact hasNext_requirePhase fun hp =>
      .ite (hasNext_next _) ((hrun hp).hasNext_withSession fun _ _ => hasNext_next _)
  | pushb v =>
    exact hasNext_requirePhase fun hp => (hrun hp).hasNext_withSession fun _ _ => hasNext_next _

end Sys2Proof.Machine
end

section
/-! The history is read by `FILTER` and `PUSHB` only (spec 10_state.md R48, R54): every other meaning, run on a state whose
history is replaced, has the same outcome up to the history. -/

namespace Sys2Proof.Machine

/-- The outcome with the history of its next state forgotten. -/
def forgetHist : Host.Outcome State Fault Refusal → Host.Outcome State Fault Refusal
  | .next t => .next { t with hist := none }
  | .fault r => .fault r
  | .refused r => .refused r

theorem eq_next_of_forgetHist_eq {o : Host.Outcome State Fault Refusal} {t : State}
    (h : forgetHist o = forgetHist (.next t)) :
    ∃ t', o = .next t' ∧ { t' with hist := none } = { t with hist := none } := by
  cases o with
  | next t' => exact ⟨t', rfl, Host.Outcome.next.inj h⟩
  | fault r => cases h
  | refused r => cases h

section
variable {o o' : Host.Outcome State Fault Refusal} {s : State} (x : Option (List Sample))

theorem forgetHist_ite {c : Prop} [Decidable c] {k k' : Host.Outcome State Fault Refusal}
    (h : forgetHist o' = forgetHist o) (h' : forgetHist k' = forgetHist k) :
    forgetHist (if c then o' else k') = forgetHist (if c then o else k) := by
  split
  · exact h
  · exact h'

theorem forgetHist_requirePhase {p : Phase} (h : forgetHist o' = forgetHist o) :
    forgetHist (requirePhase p { s with hist := x } o') = forgetHist (requirePhase p s o) :=
  forgetHist_ite h rfl

theorem forgetHist_withTap {p : Imm} {k k' : List Word → Host.Outcome State Fault Refusal}
    (h : ∀ c, forgetHist (k' c) = forgetHist (k c)) :
    forgetHist (withTap p { s with hist := x } k') = forgetHist (withTap p s k) := by
  refine forgetHist_ite ?_ rfl
  unfold withCoef
  cases s.coef with
  | none => rfl
  | some c => exact forgetHist_ite (h c) rfl

theorem forgetHist_modBits (nb : ℕ) (v : Byte) :
    forgetHist (modBits nb v { s with hist := x }) = forgetHist (modBits nb v s) :=
  forgetHist_requirePhase x (forgetHist_ite rfl rfl)

theorem forgetHist_execInit : forgetHist (execInit { s with hist := x }) = forgetHist (execInit s) := by
  refine forgetHist_requirePhase x (forgetHist_ite rfl (forgetHist_ite rfl (forgetHist_ite rfl ?_)))
  dsimp only
  cases rrc hwTrig s.cfgBeta s.cfgN.toNat s.cfgTs.toNat with
  | none => rfl
  | some taps => rfl

/-- Another history changes nothing but the history, for every operation but `FILTER` and `PUSHB`. -/
theorem forgetHist_exec {i : Instr} (hfilter : ∀ l ps, i ≠ .filter l ps) (hpushb : ∀ v, i ≠ .pushb v) :
    forgetHist (exec i { s with hist := x }) = forgetHist (exec i s) := by
  cases i with
  | wrcfgN | wrcfgTs | wrcfgRbs | map | unpack | flush => exact forgetHist_requirePhase x rfl
  | wrcfgBeta => exact forgetHist_requirePhase x (forgetHist_ite rfl rfl)
  | rdcfg r =>
    have hread : readCfg { s with hist := x } r = readCfg s r := by cases r <;> rfl
    exact forgetHist_ite rfl (by rw [hread]; rfl)
  | rdstat => rfl
  | init => exact forgetHist_execInit x
  | mod | modNb8 => exact forgetHist_modBits x _ _
  | rdcoef | wrcoef => exact forgetHist_requirePhase x (forgetHist_withTap x fun _ => rfl)
  | filter l ps => exact absurd rfl (hfilter l ps)
  | pushb v => exact absurd rfl (hpushb v)

end

end Sys2Proof.Machine
end

section
/-! The statements of 10_state.md, settled. -/

namespace Sys2Proof.Proofs

open Sys2Proof.Machine

/-- Settles O19: a step is a settled move (none, a reset, an illegal word) or one operation, and each keeps the invariant,
which does not speak of the moves to come. -/
theorem invIsKeptByEveryStep : Obligations.InvIsKeptByEveryStep := by
  intro s t hinv hstep
  obtain hsettled | ⟨i, u, hfetch, hexec⟩ := step_next hstep
  · obtain ⟨-, rfl⟩ | ⟨rest, -, rfl⟩ | ⟨w, ps, rest, -, rfl⟩ := fetch_settled hsettled
    · exact hinv
    · exact blockInv_resetBlock _
    · exact BlockInv.raise (s := { s with inbox := rest }) hinv .illegalOp
  · obtain ⟨w, ps, rest, -, -, rfl⟩ := fetch_run hfetch
    exact exec_blockInv (s := { s with inbox := rest }) hinv hexec

/-- Settles O11: the invariant gives the memories their lengths, and the four readers come down to reading them. -/
theorem meaningsStopOnlyOutsideTheSpec : Obligations.MeaningsStopOnlyOutsideTheSpec := by
  refine ⟨fun i s hi hinv => hinv.hasNext_exec hi, fun s p x v l ps => ⟨fun hlen => if_neg hlen, ?_⟩⟩
  intro hp hlen hl hlt
  obtain ⟨kr, hrdcoef⟩ := exec_rdcoef_of_run hp hlt
  obtain ⟨kw, hwrcoef⟩ := exec_wrcoef_of_run hp x hlt
  obtain ⟨kf, hfilter⟩ := exec_filter_of_run hp hlen hl
  obtain ⟨kp, hpushb⟩ := exec_pushb_of_run hp v
  rw [hrdcoef, hwrcoef, hfilter, hpushb]
  refine ⟨fun hc => ?noCoef, fun c hc hne => ?coefLength,
    fun c hc hl => ⟨fun hh => ?noHist, fun h hh hne => ?histLength⟩⟩
  case noCoef => exact ⟨withCoef_none hc, withCoef_none hc, withCoef_none hc, withCoef_none hc⟩
  case coefLength =>
    exact ⟨withCoef_sizeMismatch hc hne, withCoef_sizeMismatch hc hne, withCoef_sizeMismatch hc hne,
      withCoef_sizeMismatch hc hne⟩
  case noHist => exact ⟨withSession_hist_none hc hl hh, withSession_hist_none hc hl hh⟩
  case histLength => exact ⟨withSession_sizeMismatch hc hl hh hne, withSession_sizeMismatch hc hl hh hne⟩

/-- Settles O16: a fault leads to `FAULTED`, and of the completing operations only `INIT` and `FLUSH` move the phase. -/
theorem phaseMovesOnlyByInitFlushAndFaults : Obligations.PhaseMovesOnlyByInitFlushAndFaults := by
  intro i s t h
  obtain ⟨f, rfl⟩ | ⟨ws, u, hw, rfl⟩ := exec_next h
  · exact .inr (.inl rfl)
  · exact hw.phase.imp_right .inr

/-- Settles O27: before `PUSHB` the queue is below the threshold, and staging sends it or keeps it there. -/
theorem pushbBoundsTheQueue : Obligations.PushbBoundsTheQueue := by
  intro v s t hinv hp h
  obtain ⟨-, -, -, -, -, -, hqueue⟩ := (blockInv_iff_of_run hp).mp hinv
  obtain ⟨-, c, hist, -, -, -, -, rfl⟩ | ⟨hne, -⟩ := execPushb_next h
  · have hlen : (s.outq ++ deliverSamples s.freeCtr (fir c hist (byteChips v s)).1).length =
        s.outq.length + 4 * s.cfgTs.toNat := by simp
    generalize s.outq ++ deliverSamples s.freeCtr (fir c hist (byteChips v s)).1 = q at hlen ⊢
    obtain ⟨hsend, hstage⟩ | ⟨hkeep, hstage⟩ := stage_cases q
      { s with
        hist := some (fir c hist (byteChips v s)).2
        freeCtr := s.freeCtr + 2 * (byteChips v s).length }
    · rw [hstage]
      exact .inl ⟨q, rfl, rfl, hsend, by omega, hlen⟩
    · rw [hstage]
      exact .inr ⟨rfl, hkeep, hlen⟩
  · exact absurd hp hne

/-- Settles O50: a fault writes `FCODE` alone of these pieces, in a phase other than `FAULTED`; a completing operation
writes what `Writes` says. -/
theorem eachPieceOfStateHasItsWriters : Obligations.EachPieceOfStateHasItsWriters := by
  intro i s t h
  obtain ⟨f, rfl⟩ | ⟨ws, u, hw, rfl⟩ := exec_next h
  · have hcode : (raise f s).fcode ≠ s.fcode → s.phase ≠ .faulted ∧ (raise f s).fcode = some f := by
      rw [raise_fcode]
      split
      case isTrue => exact fun hne => absurd rfl hne
      case isFalse hp => exact fun _ => ⟨hp, rfl⟩
    exact ⟨absurd rfl, absurd rfl, absurd rfl, absurd rfl, fun hne => (hcode hne).imp_right fun hf => ⟨f, rfl, hf⟩,
      absurd rfl, absurd rfl, absurd rfl, absurd rfl, fun _ => ⟨rfl, rfl, rfl, rfl⟩, rfl⟩
  · obtain ⟨hn, hts, hrbs, hbeta⟩ := hw.register
    exact ⟨hn, hts, hrbs, hbeta, fun hne => absurd hw.fcode hne, hw.coef, hw.hist, hw.outq, hw.sink,
      hw.configuration, hw.inbox⟩

/-- Settles O52: the two runs have one outcome once the history is forgotten. -/
theorem historyIsHiddenFromOtherOperations : Obligations.HistoryIsHiddenFromOtherOperations := by
  intro i s t h h' hfilter hpushb _ _ hexec
  apply eq_next_of_forgetHist_eq
  rw [forgetHist_exec (some h') hfilter hpushb, hexec]

/-- Settles O1: `STATUS` of phase `CONFIG` with no fault and an empty queue is zero; the rest is the definition of the reset
state and of the constant file `PT`. -/
theorem resetLeavesDefaults : Obligations.ResetLeavesDefaults :=
  ⟨rfl, rfl, rfl, rfl, rfl, rfl, rfl, by decide, rfl, rfl, fun _ => rfl⟩

/-- Settles O18: after reset there is no session, no fault, and β is 0.25. -/
theorem invHoldsAtReset : Obligations.InvHoldsAtReset := blockInv_reset

end Sys2Proof.Proofs
end

section
/-! A command word is its three fields (spec 30_encoding.md R92), and a mask is a condition on each of them. -/

namespace Sys2Proof

theorem cmdWord_fields (w : Cmd) : cmdWord (opcField w) (aField w) (immField w) = w := by
  unfold cmdWord opcField aField immField
  rw [BitVec.extractLsb'_append_extractLsb'_eq_extractLsb' (start₁ := 24) (len₁ := 4) rfl,
    BitVec.extractLsb'_append_extractLsb'_eq_extractLsb' (start₁ := 0) (len₁ := 24) rfl]
  exact BitVec.extractLsb'_eq_self

theorem exists_cmdWord (w : Cmd) : ∃ opc a imm, w = cmdWord opc a imm := ⟨_, _, _, (cmdWord_fields w).symm⟩

theorem eq_ofNat_of_toNat_eq {n k : ℕ} {x : BitVec n} (h : x.toNat = k) : x = BitVec.ofNat n k := by
  rw [← h, BitVec.ofNat_toNat, BitVec.setWidth_eq]

/-- A word whose high part is zero is its low part, zero-extended. -/
theorem zero_append_low {n k : ℕ} {x : BitVec (n + k)} (h : x.extractLsb' k n = 0#n) :
    0#n ++ x.extractLsb' 0 k = x := by
  rw [← h, BitVec.extractLsb'_append_extractLsb'_eq_extractLsb' (Nat.zero_add k).symm]
  exact BitVec.extractLsb'_eq_self

/-- The bits of `IMM` from bit `k` on are zero exactly for a value below `2 ^ k`. -/
theorem high_eq_zero_iff {k : ℕ} (hk : k ≤ 24) (imm : Imm) :
    imm.extractLsb' k (24 - k) = 0#(24 - k) ↔ imm.toNat < 2 ^ k := by
  have hlt : imm.toNat / 2 ^ k < 2 ^ (24 - k) := by
    rw [Nat.div_lt_iff_lt_mul (by positivity), ← pow_add, Nat.sub_add_cancel hk]
    exact imm.isLt
  rw [← BitVec.toNat_inj, BitVec.extractLsb'_toNat, Nat.shiftRight_eq_div_pow, Nat.mod_eq_of_lt hlt]
  simp

theorem byteImm_iff {imm : Imm} : imm.extractLsb' 8 16 = 0#16 ↔ ∃ v, imm = byteImm v := by
  constructor
  · exact fun h => ⟨_, (zero_append_low (n := 16) (k := 8) h).symm⟩
  · rintro ⟨v, rfl⟩
    exact byteImm_high v

@[simp] theorem two_bits_high (b : BitVec 2) : (0#22 ++ b : Imm).extractLsb' 2 22 = 0#22 := by revert b; decide
@[simp] theorem two_bits_low (b : BitVec 2) : (0#22 ++ b : Imm).extractLsb' 0 2 = b := by revert b; decide

/-- A word that matches mask and pattern matches them in each field. -/
theorem fields_of_matches {w m p : Cmd} (h : w &&& m = p) :
    opcField w &&& opcField m = opcField p ∧ aField w &&& aField m = aField p ∧
      immField w &&& immField m = immField p := by
  subst h
  exact ⟨BitVec.extractLsb'_and.symm, BitVec.extractLsb'_and.symm, BitVec.extractLsb'_and.symm⟩

/-- A mask that holds `OPC` and `A` whole fixes both, and leaves `IMM` to its own part of the mask. -/
theorem cmdWord_of_matches {w m p : Cmd} (h : w &&& m = p) (hopc : opcField m = 15#4) (ha : aField m = 15#4) :
    w = cmdWord (opcField p) (aField p) (immField w) ∧ immField w &&& immField m = immField p := by
  obtain ⟨hpo, hpa, hpi⟩ := fields_of_matches h
  rw [hopc, show opcField w &&& 15#4 = opcField w from BitVec.and_allOnes] at hpo
  rw [ha, show aField w &&& 15#4 = aField w from BitVec.and_allOnes] at hpa
  exact ⟨by rw [← hpo, ← hpa, cmdWord_fields], hpi⟩

/-- Bits that a mask holds whole are zero in a word that the mask makes zero. -/
theorem extract_eq_zero_of_and {k n : ℕ} {imm m : Imm} (hm : m.extractLsb' k n = BitVec.allOnes n)
    (h : imm &&& m = 0#24) : imm.extractLsb' k n = 0#n := by
  have hpart : imm.extractLsb' k n &&& m.extractLsb' k n = 0#n := by
    rw [← BitVec.extractLsb'_and, h, BitVec.extractLsb'_zero]
  rwa [hm, BitVec.and_allOnes] at hpart

/-- `IMM` masked to its bits from bit 8 on is zero for a byte only. -/
theorem byteImm_of_and {imm : Imm} (h : imm &&& 0xFFFF00#24 = 0#24) : ∃ v, imm = byteImm v :=
  byteImm_iff.mp (extract_eq_zero_of_and rfl h)

/-- `IMM` masked to its bits from bit 2 on is zero for two bits only. -/
theorem two_bits_of_and {imm : Imm} (h : imm &&& 0xFFFFFC#24 = 0#24) : ∃ b : BitVec 2, imm = 0#22 ++ b :=
  ⟨imm.extractLsb' 0 2, (zero_append_low (n := 22) (k := 2) (extract_eq_zero_of_and rfl h)).symm⟩

theorem three_bits_of_and : ∀ a : BitVec 4, a &&& 8#4 = 0#4 → ∃ nb : BitVec 3, a = 0#1 ++ nb := by decide

theorem cfgReg_of_and : ∀ a : BitVec 4, a &&& 12#4 = 0#4 → ∃ r : CfgReg, a = r.index := by
  intro a h
  have hlow : a = 0#4 ∨ a = 1#4 ∨ a = 2#4 ∨ a = 3#4 := by revert a; decide
  obtain rfl | rfl | rfl | rfl := hlow
  · exact ⟨.n, rfl⟩
  · exact ⟨.ts, rfl⟩
  · exact ⟨.rbs, rfl⟩
  · exact ⟨.beta, rfl⟩

end Sys2Proof
end

section
/-! The payload of an operation apart from its command word (spec 30_encoding.md R93, R97): the command word does not
depend on it, and attaching a payload of the right length is setting it. -/

namespace Sys2Proof

/-- The operation with the payload words `ps` in place of its own; a missing word is zero, as `decodeCmd` leaves it. -/
def Instr.withPayload : Instr → List Word → Instr
  | .wrcfgBeta _, ps => .wrcfgBeta (ps.headD 0#64)
  | .wrcoef p _, ps => .wrcoef p (ps.headD 0#64)
  | .filter l _, ps => .filter l ps
  | i, _ => i

@[simp] theorem encodeCmd_withPayload (i : Instr) (ps : List Word) : encodeCmd (i.withPayload ps) = encodeCmd i := by
  cases i <;> rfl

@[simp] theorem payloadWords_withPayload (i : Instr) (ps : List Word) :
    (i.withPayload ps).payloadWords = i.payloadWords := by
  cases i <;> rfl

@[simp] theorem rowOf_withPayload (i : Instr) (ps : List Word) : rowOf (i.withPayload ps) = rowOf i := by
  cases i <;> rfl

@[simp] theorem withPayload_withPayload (i : Instr) (ps qs : List Word) :
    (i.withPayload ps).withPayload qs = i.withPayload qs := by
  cases i <;> rfl

@[simp] theorem withPayload_payload (i : Instr) : i.withPayload i.payload = i := by
  cases i <;> rfl

theorem payload_withPayload {i : Instr} {ps : List Word} (h : ps.length = i.payloadWords) :
    (i.withPayload ps).payload = ps := by
  cases i with
  | wrcfgBeta | wrcoef =>
    obtain ⟨x, rfl⟩ := List.length_eq_one_iff.mp h
    rfl
  | filter => rfl
  | _ => exact (List.length_eq_zero_iff.mp h).symm

theorem wellFormed_iff {i : Instr} : i.wellFormed = true ↔ i.payload.length = i.payloadWords := beq_iff_eq

theorem noPayload_eq (i : Instr) (ps : List Word) :
    noPayload i ps = if ps.length = 0 then .ok i else .error .payloadLength := by
  cases ps with
  | nil => rfl
  | cons => rfl

theorem onePayload_eq (i : Word → Instr) (ps : List Word) :
    onePayload i ps = if ps.length = 1 then .ok (i (ps.headD 0#64)) else .error .payloadLength := by
  match ps with
  | [] => rfl
  | [_] => rfl
  | _ :: _ :: _ => rfl

/-- A payload is attached when it has the length the command word calls for. -/
theorem attachPayload_eq (i : Instr) (ps : List Word) :
    attachPayload i ps = if ps.length = i.payloadWords then .ok (i.withPayload ps) else .error .payloadLength := by
  cases i with
  | wrcfgBeta | wrcoef => exact onePayload_eq _ ps
  | filter => rfl
  | _ => exact noPayload_eq _ ps

end Sys2Proof
end

section
/-! The decoder of command words and the encoder are inverse to each other (spec 30_encoding.md R94, R95). -/

namespace Sys2Proof

/-! ### What the decoder's checks accept -/

theorem accept_ok_iff {ok : Bool} {e : DecodeError} {r : Except DecodeError Instr} {i : Instr} :
    accept ok e r = .ok i ↔ ok = true ∧ r = .ok i := by
  cases ok <;> simp [accept]

theorem acceptByte_byteImm (v : Byte) (f : Byte → Instr) : acceptByte (byteImm v) f = .ok (f v) := by
  simp [acceptByte, accept]

theorem acceptByte_ok_iff {imm : Imm} {f : Byte → Instr} {i : Instr} :
    acceptByte imm f = .ok i ↔ ∃ v, imm = byteImm v ∧ i = f v := by
  constructor
  · intro h
    obtain ⟨hhigh, hi⟩ := accept_ok_iff.mp h
    obtain ⟨v, rfl⟩ := byteImm_iff.mp (beq_iff_eq.mp hhigh)
    rw [byteImm_low] at hi
    exact ⟨v, rfl, (Except.ok.inj hi).symm⟩
  · rintro ⟨v, rfl, rfl⟩
    exact acceptByte_byteImm v f

/-! ### Decoding what was encoded -/

theorem decodeMod_three_bits (nb : BitVec 3) (v : Byte) : decodeMod (0#1 ++ nb) (byteImm v) = .ok (.mod nb v) := by
  have hlt : (0#1 ++ nb).toNat < 8 := by revert nb; decide
  have hlow : (0#1 ++ nb).extractLsb' 0 3 = nb := by revert nb; decide
  rw [decodeMod, if_pos hlt, hlow, acceptByte_byteImm]

/-- The command word of an operation decodes to the operation without its payload. -/
theorem decodeCmd_encodeCmd (i : Instr) : decodeCmd (encodeCmd i) = .ok (i.withPayload []) := by
  cases i with
  | rdcfg r => cases r <;> rfl
  | mod nb v => simpa [decodeCmd, encodeCmd, Instr.withPayload] using decodeMod_three_bits nb v
  | modNb8 v => simpa [decodeCmd, encodeCmd, decodeMod, Instr.withPayload] using acceptByte_byteImm v _
  | unpack v | pushb v => simpa [decodeCmd, encodeCmd, accept, Instr.withPayload] using acceptByte_byteImm v _
  | _ => simp [decodeCmd, encodeCmd, decodeWrcfg, accept, Instr.withPayload]

/-! ### Encoding what was decoded -/

theorem encodeCmd_of_decodeWrcfg {a : BitVec 4} {imm : Imm} {i : Instr} (h : decodeWrcfg a imm = .ok i) :
    encodeCmd i = cmdWord 1#4 a imm := by
  unfold decodeWrcfg at h
  split at h
  case h_1 ha => cases h; rw [eq_ofNat_of_toNat_eq ha]; rfl
  case h_2 ha => cases h; rw [eq_ofNat_of_toNat_eq ha]; rfl
  case h_3 ha => cases h; rw [eq_ofNat_of_toNat_eq ha]; rfl
  case h_4 ha =>
    obtain ⟨himm, hi⟩ := accept_ok_iff.mp h
    cases hi
    rw [eq_ofNat_of_toNat_eq ha, beq_iff_eq.mp himm]
    rfl
  case h_5 => cases h

/-- Below 4, `A` is the index of the register it names (R71). -/
theorem encodeCmd_rdcfg {a : BitVec 4} {r : CfgReg} {imm : Imm} {i : Instr} (ha : a = r.index)
    (h : accept (imm == 0#24) .mustBeZero (.ok (.rdcfg r)) = .ok i) : encodeCmd i = cmdWord 2#4 a imm := by
  obtain ⟨himm, hi⟩ := accept_ok_iff.mp h
  cases hi
  rw [ha, beq_iff_eq.mp himm]
  rfl

theorem encodeCmd_of_decodeRdcfg {a : BitVec 4} {imm : Imm} {i : Instr} (h : decodeRdcfg a imm = .ok i) :
    encodeCmd i = cmdWord 2#4 a imm := by
  unfold decodeRdcfg at h
  split at h
  case h_1 ha => exact encodeCmd_rdcfg (r := .n) (eq_ofNat_of_toNat_eq ha) h
  case h_2 ha => exact encodeCmd_rdcfg (r := .ts) (eq_ofNat_of_toNat_eq ha) h
  case h_3 ha => exact encodeCmd_rdcfg (r := .rbs) (eq_ofNat_of_toNat_eq ha) h
  case h_4 ha => exact encodeCmd_rdcfg (r := .beta) (eq_ofNat_of_toNat_eq ha) h
  case h_5 => cases h

theorem three_bits_of_lt : ∀ a : BitVec 4, a.toNat < 8 → 0#1 ++ a.extractLsb' 0 3 = a := by decide

theorem encodeCmd_of_decodeMod {a : BitVec 4} {imm : Imm} {i : Instr} (h : decodeMod a imm = .ok i) :
    encodeCmd i = cmdWord 7#4 a imm := by
  unfold decodeMod at h
  split at h
  case isTrue ha =>
    obtain ⟨v, rfl, rfl⟩ := acceptByte_ok_iff.mp h
    rw [encodeCmd, three_bits_of_lt a ha]
  case isFalse =>
    split at h
    case isTrue ha =>
      obtain ⟨v, rfl, rfl⟩ := acceptByte_ok_iff.mp h
      rw [eq_ofNat_of_toNat_eq ha]
      rfl
    case isFalse => cases h

/-- A command word is the encoding of what it decodes to: no bit of it is dropped. -/
theorem encodeCmd_of_decodeCmd {w : Cmd} {i : Instr} (h : decodeCmd w = .ok i) : encodeCmd i = w := by
  obtain ⟨opc, a, imm, rfl⟩ := exists_cmdWord w
  simp only [decodeCmd, opcField_cmdWord, aField_cmdWord, immField_cmdWord] at h
  split at h
  case h_1 hopc => rw [eq_ofNat_of_toNat_eq hopc, encodeCmd_of_decodeWrcfg h]
  case h_2 hopc => rw [eq_ofNat_of_toNat_eq hopc, encodeCmd_of_decodeRdcfg h]
  case h_7 hopc => rw [eq_ofNat_of_toNat_eq hopc, encodeCmd_of_decodeMod h]
  case h_13 => cases h
  all_goals
    rename_i hopc
    rw [eq_ofNat_of_toNat_eq hopc]
    simp only [accept_ok_iff, acceptByte_ok_iff, beq_iff_eq, Except.ok.injEq] at h
  case h_3 | h_4 | h_12 => obtain ⟨rfl, rfl, rfl⟩ := h; rfl
  case h_5 =>
    obtain ⟨rfl, hhigh, rfl⟩ := h
    rw [encodeCmd, zero_append_low (n := 22) (k := 2) hhigh]
  case h_6 | h_11 => obtain ⟨rfl, v, rfl, rfl⟩ := h; rfl
  case h_8 | h_9 | h_10 => obtain ⟨rfl, rfl⟩ := h; rfl

/-! ### Pairs -/

/-- A pair decodes when its command word does and its payload has the length that word calls for (R97). -/
theorem decode_ok_iff {w : Cmd} {ps : List Word} {i : Instr} :
    decode w ps = .ok i ↔ ∃ j, decodeCmd w = .ok j ∧ ps.length = j.payloadWords ∧ i = j.withPayload ps := by
  unfold decode
  cases hw : decodeCmd w with
  | ok j =>
    by_cases hlen : ps.length = j.payloadWords
    · simp [attachPayload_eq, hlen, eq_comm]
    · simp [attachPayload_eq, hlen]
  | error e => cases ps <;> simp

/-- A pair whose payload has another length is none; an illegal command word calls for no payload word (R93, R97). -/
theorem decode_of_length_ne {w : Cmd} {ps : List Word} (hok : ∀ i, decodeCmd w = .ok i → ps.length ≠ i.payloadWords)
    (herror : ∀ e, decodeCmd w = .error e → ps ≠ []) : decode w ps = .error .payloadLength := by
  unfold decode
  cases hw : decodeCmd w with
  | ok j => exact (attachPayload_eq j ps).trans (if_neg (hok j hw))
  | error e => exact if_neg (by simpa using herror e hw)

end Sys2Proof
end

section
/-! The rows of the opcode table (spec 30_encoding.md R95): the words that match a row are the encodings of its operations. -/

namespace Sys2Proof

theorem mem_opcodeRows_iff {r : Row} : r ∈ opcodeRows ↔ ∃ i, rowOf i = r := by
  constructor
  · simp only [opcodeRows, List.cons_append, List.nil_append, List.mem_cons, List.not_mem_nil, or_false]
    rintro (rfl | rfl | rfl | rfl | rfl | rfl | rfl | rfl | rfl | rfl | rfl | rfl | rfl | rfl | rfl | rfl) <;>
      exact ⟨_, rfl⟩
  · rintro ⟨i, rfl⟩
    cases i <;> simp [opcodeRows, rowOf]

/-- An operation's command word matches the operation's row. -/
theorem encodeCmd_matches : ∀ i : Instr, Laws.MatchesRow.Statement i
  | .wrcfgN v => Laws.MatchesRow.wrcfgN v
  | .wrcfgTs v => Laws.MatchesRow.wrcfgTs v
  | .wrcfgRbs v => Laws.MatchesRow.wrcfgRbs v
  | .wrcfgBeta x => Laws.MatchesRow.wrcfgBeta x
  | .rdcfg r => Laws.MatchesRow.rdcfg r
  | .rdstat => Laws.MatchesRow.rdstat
  | .init => Laws.MatchesRow.init
  | .map b => Laws.MatchesRow.map b
  | .unpack v => Laws.MatchesRow.unpack v
  | .mod nb v => Laws.MatchesRow.mod nb v
  | .modNb8 v => Laws.MatchesRow.modNb8 v
  | .rdcoef p => Laws.MatchesRow.rdcoef p
  | .wrcoef p c => Laws.MatchesRow.wrcoef p c
  | .filter l ps => Laws.MatchesRow.filter l ps
  | .pushb v => Laws.MatchesRow.pushb v
  | .flush => Laws.MatchesRow.flush

/-! ### The words of a row, by the part of the word its mask leaves open -/

/-- Nothing is left open. -/
theorem eq_of_matches {w p : Cmd} (h : w &&& 0xFFFFFFFF#32 = p) : w = p := by
  rwa [show w &&& 0xFFFFFFFF#32 = w from BitVec.and_allOnes] at h

/-- `IMM` is left open. -/
theorem imm_of_matches {w : Cmd} (opc a : BitVec 4) (h : w &&& 0xFF000000#32 = cmdWord opc a 0#24) :
    ∃ v, w = cmdWord opc a v := by
  obtain ⟨hw, -⟩ := cmdWord_of_matches h rfl rfl
  rw [opcField_cmdWord, aField_cmdWord] at hw
  exact ⟨_, hw⟩

/-- `IMM[7:0]` is left open. -/
theorem byte_of_matches {w : Cmd} (opc a : BitVec 4) (h : w &&& 0xFFFFFF00#32 = cmdWord opc a 0#24) :
    ∃ v, w = cmdWord opc a (byteImm v) := by
  obtain ⟨hw, himm⟩ := cmdWord_of_matches h rfl rfl
  rw [immField_cmdWord] at himm
  obtain ⟨v, hv⟩ := byteImm_of_and himm
  rw [opcField_cmdWord, aField_cmdWord, hv] at hw
  exact ⟨v, hw⟩

/-- `IMM[1:0]` is left open: `MAP`. -/
theorem two_bits_of_matches {w : Cmd} (h : w &&& 0xFFFFFFFC#32 = 0x50000000#32) :
    ∃ b : BitVec 2, w = cmdWord 5#4 0#4 (0#22 ++ b) := by
  obtain ⟨hw, himm⟩ := cmdWord_of_matches h rfl rfl
  obtain ⟨b, hb⟩ := two_bits_of_and himm
  exact ⟨b, hw.trans (by rw [hb]; rfl)⟩

/-- `A[1:0]` is left open: `RDCFG`. -/
theorem cfgReg_of_matches {w : Cmd} (h : w &&& 0xFCFFFFFF#32 = 0x20000000#32) :
    ∃ r : CfgReg, w = cmdWord 2#4 r.index 0#24 := by
  obtain ⟨hopc, ha, himm⟩ := fields_of_matches h
  obtain ⟨r, hr⟩ := cfgReg_of_and _ ha
  have hopc : opcField w = 2#4 := BitVec.and_allOnes.symm.trans hopc
  have himm : immField w = 0#24 := BitVec.and_allOnes.symm.trans himm
  exact ⟨r, by rw [← cmdWord_fields w, hopc, hr, himm]⟩

/-- `A[2:0]` and `IMM[7:0]` are left open: `MOD`. -/
theorem bit_count_of_matches {w : Cmd} (h : w &&& 0xF8FFFF00#32 = 0x70000000#32) :
    ∃ (nb : BitVec 3) (v : Byte), w = cmdWord 7#4 (0#1 ++ nb) (byteImm v) := by
  obtain ⟨hopc, ha, himm⟩ := fields_of_matches h
  obtain ⟨nb, hnb⟩ := three_bits_of_and _ ha
  obtain ⟨v, hv⟩ := byteImm_of_and himm
  have hopc : opcField w = 7#4 := BitVec.and_allOnes.symm.trans hopc
  exact ⟨nb, v, by rw [← cmdWord_fields w, hopc, hnb, hv]⟩

/-- A word that matches a row encodes an operation of that row. -/
theorem exists_encodeCmd_of_matches {j : Instr} {w : Cmd} (h : w &&& (rowOf j).mask = (rowOf j).pattern) :
    ∃ i, encodeCmd i = w ∧ rowOf i = rowOf j := by
  cases j with
  | wrcfgN => obtain ⟨v, rfl⟩ := imm_of_matches 1#4 0#4 h; exact ⟨.wrcfgN v, rfl, rfl⟩
  | wrcfgTs => obtain ⟨v, rfl⟩ := imm_of_matches 1#4 1#4 h; exact ⟨.wrcfgTs v, rfl, rfl⟩
  | wrcfgRbs => obtain ⟨v, rfl⟩ := imm_of_matches 1#4 2#4 h; exact ⟨.wrcfgRbs v, rfl, rfl⟩
  | rdcoef => obtain ⟨p, rfl⟩ := imm_of_matches 8#4 0#4 h; exact ⟨.rdcoef p, rfl, rfl⟩
  | wrcoef _ c => obtain ⟨p, rfl⟩ := imm_of_matches 9#4 0#4 h; exact ⟨.wrcoef p c, rfl, rfl⟩
  | filter _ ps => obtain ⟨l, rfl⟩ := imm_of_matches 10#4 0#4 h; exact ⟨.filter l ps, rfl, rfl⟩
  | wrcfgBeta | rdstat | init | flush =>
    refine ⟨_, ?_, rfl⟩
    exact (eq_of_matches h).symm
  | unpack => obtain ⟨v, rfl⟩ := byte_of_matches 6#4 0#4 h; exact ⟨.unpack v, rfl, rfl⟩
  | modNb8 => obtain ⟨v, rfl⟩ := byte_of_matches 7#4 8#4 h; exact ⟨.modNb8 v, rfl, rfl⟩
  | pushb => obtain ⟨v, rfl⟩ := byte_of_matches 11#4 0#4 h; exact ⟨.pushb v, rfl, rfl⟩
  | map => obtain ⟨b, rfl⟩ := two_bits_of_matches h; exact ⟨.map b, rfl, rfl⟩
  | rdcfg => obtain ⟨r, rfl⟩ := cfgReg_of_matches h; exact ⟨.rdcfg r, rfl, rfl⟩
  | mod => obtain ⟨nb, v, rfl⟩ := bit_count_of_matches h; exact ⟨.mod nb v, rfl, rfl⟩

/-- The row of an operation is fixed by its command word. -/
theorem rowOf_eq_of_encodeCmd_eq {i j : Instr} (h : encodeCmd i = encodeCmd j) : rowOf i = rowOf j := by
  have hbare : i.withPayload [] = j.withPayload [] :=
    Except.ok.inj ((decodeCmd_encodeCmd i).symm.trans ((congrArg decodeCmd h).trans (decodeCmd_encodeCmd j)))
  rw [← rowOf_withPayload i [], hbare, rowOf_withPayload]

end Sys2Proof
end

section
/-! The command words the decoder rejects, opcode by opcode (spec 30_encoding.md R95, R96). -/

namespace Sys2Proof

/-- The decoder answers an error. -/
def Rejects (r : Except DecodeError Instr) : Prop := ∃ e, r = .error e

theorem rejects_error (e : DecodeError) : Rejects (.error e) := ⟨e, rfl⟩

@[simp] theorem rejects_ok (i : Instr) : ¬ Rejects (.ok i) := by rintro ⟨_, ⟨⟩⟩

@[simp] theorem rejects_accept {ok : Bool} {e : DecodeError} {r : Except DecodeError Instr} :
    Rejects (accept ok e r) ↔ ok = false ∨ Rejects r := by
  cases ok <;> simp [accept, rejects_error]

@[simp] theorem rejects_acceptByte {imm : Imm} {f : Byte → Instr} :
    Rejects (acceptByte imm f) ↔ 256 ≤ imm.toNat := by
  simpa [acceptByte] using (high_eq_zero_iff (k := 8) (by omega) imm).not

@[simp] theorem rejects_decodeWrcfg {a : BitVec 4} {imm : Imm} :
    Rejects (decodeWrcfg a imm) ↔ 3 < a.toNat ∨ (a = 3#4 ∧ imm ≠ 0#24) := by
  unfold decodeWrcfg
  split
  case h_1 ha | h_2 ha | h_3 ha | h_4 ha => obtain rfl := eq_ofNat_of_toNat_eq ha; simp
  case h_5 => exact iff_of_true (rejects_error _) (.inl (by grind))

@[simp] theorem rejects_decodeRdcfg {a : BitVec 4} {imm : Imm} :
    Rejects (decodeRdcfg a imm) ↔ 3 < a.toNat ∨ imm ≠ 0#24 := by
  unfold decodeRdcfg
  split
  case h_1 ha | h_2 ha | h_3 ha | h_4 ha => obtain rfl := eq_ofNat_of_toNat_eq ha; simp
  case h_5 => exact iff_of_true (rejects_error _) (.inl (by grind))

@[simp] theorem rejects_decodeMod {a : BitVec 4} {imm : Imm} :
    Rejects (decodeMod a imm) ↔ 8 < a.toNat ∨ 256 ≤ imm.toNat := by
  unfold decodeMod
  split
  case isTrue ha => rw [rejects_acceptByte, or_iff_right (by omega)]
  case isFalse ha =>
    split
    case isTrue ha => rw [rejects_acceptByte, or_iff_right (by omega)]
    case isFalse hne => exact iff_of_true (rejects_error _) (.inl (by omega))

section
variable {opc a : BitVec 4} {imm : Imm}

theorem rejects_reserved (h : opc ∈ [0#4, 13#4, 14#4, 15#4]) : Rejects (decodeCmd (cmdWord opc a imm)) := by
  fin_cases h <;> exact ⟨.reservedOpcode, by simp [decodeCmd]⟩

theorem rejects_wrcfg : Rejects (decodeCmd (cmdWord 1#4 a imm)) ↔ 3 < a.toNat ∨ (a = 3#4 ∧ imm ≠ 0#24) := by
  simp [decodeCmd]

theorem rejects_rdcfg : Rejects (decodeCmd (cmdWord 2#4 a imm)) ↔ 3 < a.toNat ∨ imm ≠ 0#24 := by
  simp [decodeCmd]

/-- `RDSTAT`, `INIT` and `FLUSH` have no operand. -/
theorem rejects_no_operand (h : opc ∈ [3#4, 4#4, 12#4]) :
    Rejects (decodeCmd (cmdWord opc a imm)) ↔ a ≠ 0#4 ∨ imm ≠ 0#24 := by
  fin_cases h <;> simp [decodeCmd]

theorem rejects_map : Rejects (decodeCmd (cmdWord 5#4 a imm)) ↔ a ≠ 0#4 ∨ 4 ≤ imm.toNat := by
  have himm : ¬ imm.extractLsb' 2 22 = 0#22 ↔ 4 ≤ imm.toNat :=
    (high_eq_zero_iff (k := 2) (by omega) imm).not.trans Nat.not_lt
  simp [decodeCmd, himm]

/-- `UNPACK` and `PUSHB` have a byte for operand. -/
theorem rejects_byte (h : opc ∈ [6#4, 11#4]) :
    Rejects (decodeCmd (cmdWord opc a imm)) ↔ a ≠ 0#4 ∨ 256 ≤ imm.toNat := by
  fin_cases h <;> simp [decodeCmd]

theorem rejects_mod : Rejects (decodeCmd (cmdWord 7#4 a imm)) ↔ 8 < a.toNat ∨ 256 ≤ imm.toNat := by
  simp [decodeCmd]

/-- `RDCOEF`, `WRCOEF` and `FILTER` have the whole of `IMM` for operand. -/
theorem rejects_imm (h : opc ∈ [8#4, 9#4, 10#4]) : Rejects (decodeCmd (cmdWord opc a imm)) ↔ a ≠ 0#4 := by
  fin_cases h <;> simp [decodeCmd]

end

/-- The sixteen opcodes, by the operands of their operations (R94). -/
theorem opcode_cases : ∀ opc : BitVec 4,
    opc ∈ [0#4, 13#4, 14#4, 15#4] ∨ opc = 1#4 ∨ opc = 2#4 ∨ opc ∈ [3#4, 4#4, 12#4] ∨ opc = 5#4 ∨ opc ∈ [6#4, 11#4] ∨
      opc = 7#4 ∨ opc ∈ [8#4, 9#4, 10#4] := by decide

end Sys2Proof
end

section
/-! The words on the channels out of the block (spec 30_encoding.md R101, R102): the fields of a response, what an operation
that completes has sent before it responds, and the marks of a burst. -/

namespace Sys2Proof.Machine

/-! ### The fields of a response -/

@[simp] theorem rspWord_code (nw : Imm) (code : BitVec 4) : (rspWord nw code).extractLsb' 0 4 = code := by
  apply BitVec.eq_of_toNat_eq
  rw [BitVec.extractLsb'_toNat, rspWord_toNat, Nat.shiftRight_zero]
  omega

@[simp] theorem rspWord_reserved (nw : Imm) (code : BitVec 4) : (rspWord nw code).extractLsb' 4 4 = 0#4 := by
  apply BitVec.eq_of_toNat_eq
  rw [BitVec.extractLsb'_toNat, rspWord_toNat, Nat.shiftRight_eq_div_pow, BitVec.toNat_ofNat]
  omega

@[simp] theorem rspWord_nw (nw : Imm) (code : BitVec 4) : (rspWord nw code).extractLsb' 8 24 = nw := by
  apply BitVec.eq_of_toNat_eq
  rw [BitVec.extractLsb'_toNat, rspWord_toNat, Nat.shiftRight_eq_div_pow]
  omega

/-- `NW` is the count where the count fits the field. -/
theorem nwField_toNat {n : ℕ} (k : ℕ) (h : n < 2 ^ 24) : (nwField k n).toNat = n := by
  rw [nwField, if_pos h, BitVec.toNat_ofNat, Nat.mod_eq_of_lt h]

/-- Before it responds a completing operation has sent nothing to the host (R14). -/
theorem Writes.channels {i : Instr} {s u : State} (h : Writes i s u) : u.rsp = s.rsp ∧ u.rdata = s.rdata := by
  cases h <;> exact ⟨rfl, rfl⟩

/-! ### Bursts -/

theorem wordsOf_eq_flatMap (q : List Sample) : wordsOf q = q.flatMap fun z => [z.re, z.im] := by
  induction q with
  | nil => rfl
  | cons z q ih => rw [wordsOf, ih]; rfl

/-- Marking keeps the words and their order. -/
@[simp] theorem markLast_data (ws : List Word) : (markLast ws).map SinkWord.data = ws := by
  induction ws using markLast.induct with
  | case1 => rfl
  | case2 w => rfl
  | case3 w v ws ih => rw [markLast, List.map_cons, ih]

/-- The last word is marked, and no other. -/
theorem markLast_last {ws : List Word} {k : ℕ} {w : SinkWord} (h : (markLast ws)[k]? = some w) :
    w.last = true ↔ k + 1 = ws.length := by
  induction ws using markLast.induct generalizing k with
  | case1 => cases h
  | case2 v =>
    cases k with
    | zero => cases h; simp
    | succ k => cases h
  | case3 u v ws ih =>
    cases k with
    | zero => cases h; simp
    | succ k => simpa using ih h

end Sys2Proof.Machine
end

section
/-! The statements of 30_encoding.md, settled. -/

namespace Sys2Proof.Proofs

open Sys2Proof.Machine

/-- Settles O4: the command word decodes to the operation without its payload, and attaching the payload restores it. -/
theorem decodeOfEncode : Obligations.DecodeOfEncode := by
  intro i hi
  refine decode_ok_iff.mpr ⟨i.withPayload [], decodeCmd_encodeCmd i, ?length, ?operation⟩
  case length => rw [payloadWords_withPayload]; exact wellFormed_iff.mp hi
  case operation => exact ((withPayload_withPayload i [] i.payload).trans (withPayload_payload i)).symm

/-- Settles O5: the command word is that of the operation it decodes to, and the payload is attached unchanged. -/
theorem encodeOfDecode : Obligations.EncodeOfDecode := by
  intro w ps i h
  obtain ⟨j, hj, hlen, rfl⟩ := decode_ok_iff.mp h
  have hpayload := payload_withPayload hlen
  refine ⟨?_, wellFormed_iff.mpr ?_⟩
  · rw [encode, encodeCmd_withPayload, encodeCmd_of_decodeCmd hj, hpayload]
  · rw [hpayload, payloadWords_withPayload, hlen]

/-- Settles O6: a word decodes, matches a row, or encodes an operation of that row, all alike; an encoding has one row. -/
theorem decoderAcceptsExactlyTheTableRows : Obligations.DecoderAcceptsExactlyTheTableRows := by
  refine ⟨fun w => ⟨?accepted, ?decodes⟩, fun w i h => ?row, fun w r hr q hq hwr hwq => ?disjoint⟩
  case accepted =>
    rintro ⟨i, h⟩
    obtain rfl := encodeCmd_of_decodeCmd h
    exact ⟨rowOf i, mem_opcodeRows_iff.mpr ⟨i, rfl⟩, encodeCmd_matches i⟩
  case decodes =>
    rintro ⟨r, hr, hw⟩
    obtain ⟨j, rfl⟩ := mem_opcodeRows_iff.mp hr
    obtain ⟨i, rfl, -⟩ := exists_encodeCmd_of_matches hw
    exact ⟨_, decodeCmd_encodeCmd i⟩
  case row =>
    obtain rfl := encodeCmd_of_decodeCmd h
    exact encodeCmd_matches i
  case disjoint =>
    obtain ⟨j, rfl⟩ := mem_opcodeRows_iff.mp hr
    obtain ⟨k, rfl⟩ := mem_opcodeRows_iff.mp hq
    obtain ⟨i, rfl, hij⟩ := exists_encodeCmd_of_matches hwr
    obtain ⟨i', hcmd, hik⟩ := exists_encodeCmd_of_matches hwq
    rw [← hij, ← hik, rowOf_eq_of_encodeCmd_eq hcmd]

/-- Settles O7: opcode by opcode, the fields that are rejected. -/
theorem illegalWordsAreTheReservedOnes : Obligations.IllegalWordsAreTheReservedOnes := by
  intro w
  obtain ⟨opc, a, imm, rfl⟩ := exists_cmdWord w
  have hopc : (cmdWord opc a imm).extractLsb' 28 4 = opc := opcField_cmdWord opc a imm
  have ha : (cmdWord opc a imm).extractLsb' 24 4 = a := aField_cmdWord opc a imm
  have himm : (cmdWord opc a imm).extractLsb' 0 24 = imm := immField_cmdWord opc a imm
  rw [hopc, ha, himm]
  change Rejects _ ↔ _
  obtain h | rfl | rfl | h | rfl | h | rfl | h := opcode_cases opc
  · exact iff_of_true (rejects_reserved h) (.inl h)
  · simp [rejects_wrcfg]
  · simp [rejects_rdcfg]
  · rw [rejects_no_operand h]
    fin_cases h <;> simp
  · simp [rejects_map]
  · rw [rejects_byte h]
    fin_cases h <;> simp
  · simp [rejects_mod]
  · rw [rejects_imm h]
    fin_cases h <;> simp

/-- Settles O49: a fault answers its code and no word; an operation that completes answers through `respond` alone. -/
theorem everyOperationAnswersOnce : Obligations.EveryOperationAnswersOnce := by
  intro i s t h
  obtain ⟨f, rfl⟩ | ⟨ws, u, hw, rfl⟩ := exec_next h
  · exact ⟨rspWord 0#24 (faultBits f), [], rfl, (List.append_nil _).symm, by simp, by simp, fun _ => rfl⟩
  · obtain ⟨hrsp, hrdata⟩ := hw.channels
    refine ⟨rspWord (nwField u.freeCtr ws.length) 0#4, ws, ?_, ?_, by simp, fun hlen => ?_, by simp⟩
    · rw [respond_rsp, hrsp]
    · rw [respond_rdata, hrdata]
    · rw [rspWord_nw, nwField_toNat _ hlen]

/-- Settles O51: marking keeps the words of the samples, and marks the last. -/
theorem burstMarksItsLastWordOnly : Obligations.BurstMarksItsLastWordOnly := by
  refine fun q => ⟨?_, fun k w h => ?_⟩
  · rw [markLast_data, wordsOf_eq_flatMap]
  · rw [markLast_last h, wordsOf_length]

/-- Settles O10: the pair decodes to no operation, and the fetch refuses it. -/
theorem malformedPairIsRefused : Obligations.MalformedPairIsRefused := by
  intro s w ps rest hin hok herror
  have hfetch : fetch s = .refuse := by simp only [fetch, hin, decode_of_length_ne hok herror]
  rw [step, hfetch]

end Sys2Proof.Proofs
end

section
/-! A command word the decoder rejects is an illegal operation: the errors of the field checks are none of the payload's
(spec 30_encoding.md R95, R97; 60_exceptions.md R211). -/

namespace Sys2Proof

/-- An answer that does not speak of the payload. -/
def SparesPayload (r : Except DecodeError Instr) : Prop := r ≠ .error .payloadLength

@[simp] theorem sparesPayload_ok (i : Instr) : SparesPayload (.ok i) := nofun

@[simp] theorem sparesPayload_error {e : DecodeError} : SparesPayload (.error e) ↔ e ≠ .payloadLength := by
  simp [SparesPayload]

theorem sparesPayload_accept {ok : Bool} {e : DecodeError} {r : Except DecodeError Instr} (he : e ≠ .payloadLength)
    (hr : SparesPayload r) : SparesPayload (accept ok e r) := by
  cases ok with
  | false => exact sparesPayload_error.mpr he
  | true => exact hr

theorem sparesPayload_acceptByte (imm : Imm) (f : Byte → Instr) : SparesPayload (acceptByte imm f) :=
  sparesPayload_accept nofun (sparesPayload_ok _)

theorem sparesPayload_decodeWrcfg (a : BitVec 4) (imm : Imm) : SparesPayload (decodeWrcfg a imm) := by
  unfold decodeWrcfg
  split
  case h_1 | h_2 | h_3 => exact sparesPayload_ok _
  case h_4 => exact sparesPayload_accept nofun (sparesPayload_ok _)
  case h_5 => exact sparesPayload_error.mpr nofun

theorem sparesPayload_decodeRdcfg (a : BitVec 4) (imm : Imm) : SparesPayload (decodeRdcfg a imm) := by
  unfold decodeRdcfg
  split
  case h_1 | h_2 | h_3 | h_4 => exact sparesPayload_accept nofun (sparesPayload_ok _)
  case h_5 => exact sparesPayload_error.mpr nofun

theorem sparesPayload_decodeMod (a : BitVec 4) (imm : Imm) : SparesPayload (decodeMod a imm) := by
  unfold decodeMod
  split
  case isTrue => exact sparesPayload_acceptByte _ _
  case isFalse =>
    split
    case isTrue => exact sparesPayload_acceptByte _ _
    case isFalse => exact sparesPayload_error.mpr nofun

/-- The decoder of a command word alone has no error about the payload. -/
theorem sparesPayload_decodeCmd (w : Cmd) : SparesPayload (decodeCmd w) := by
  unfold decodeCmd
  split
  case h_1 => exact sparesPayload_decodeWrcfg _ _
  case h_2 => exact sparesPayload_decodeRdcfg _ _
  case h_7 => exact sparesPayload_decodeMod _ _
  case h_13 => exact sparesPayload_error.mpr nofun
  case h_3 | h_4 | h_5 | h_12 => exact sparesPayload_accept nofun (sparesPayload_accept nofun (sparesPayload_ok _))
  case h_6 | h_11 => exact sparesPayload_accept nofun (sparesPayload_acceptByte _ _)
  case h_8 | h_9 | h_10 => exact sparesPayload_accept nofun (sparesPayload_ok _)

/-- A rejected command word raises `ILLEGAL_OP` (R211). -/
theorem raisesIllegalOp_of_rejects {w : Cmd} (h : Rejects (decodeCmd w)) : Machine.RaisesIllegalOp w := by
  obtain ⟨e, he⟩ := h
  have hspares : SparesPayload (.error e) := he ▸ sparesPayload_decodeCmd w
  exact Machine.raisesIllegalOp_of_error he (sparesPayload_error.mp hspares)

end Sys2Proof
end

section
/-! The statement of 40_mapper.md, settled: what `MAP` answers (R103, R120, R122), and its command word. -/

namespace Sys2Proof.Proofs

open Sys2Proof.Machine

theorem exec_map (b : BitVec 2) (s : State) : exec (.map b) s = execMap b s := rfl

/-- The response that carries one sample: two words, `re` before `im` (R14, R20). -/
theorem respond_sample (z : Sample) (s : State) :
    respond (wordsOf [z]) s = { s with rsp := s.rsp ++ [0x200#32], rdata := s.rdata ++ [z.re, z.im] } := by
  have hlen : (wordsOf [z]).length = 2 := rfl
  rw [respond_of_lt (hlen.trans_lt (by norm_num)), hlen, rspWord_ok_two, wordsOf, wordsOf]

/-- In `RUN`, `MAP` answers the point of its two bits and writes no state (R122). -/
theorem exec_map_of_run {s : State} (b : BitVec 2) (hrun : s.phase = .run) :
    exec (.map b) s = .next (respond (wordsOf [mapPoint constellation (b.getLsbD 1) (b.getLsbD 0)]) s) := by
  rw [exec_map, execMap, requirePhase_same _ hrun]

/-- The table of R103, the first bit of a pair in bit 1. -/
theorem pointIndex_of_pair : ∀ p ∈ [(3#2, (0 : Fin 4)), (1#2, 1), (0#2, 2), (2#2, 3)],
    pointIndex (p.1.getLsbD 1) (p.1.getLsbD 0) = p.2 := by decide

theorem encode_map : ∀ b : BitVec 2, encode (.map b) = (0x50000000#32 ||| b.setWidth 32, []) := by decide

/-- Settles O28: the pair picks its point by the table, and the words rejected are those of `rejects_map`. -/
theorem mapReturnsThePoint : Obligations.MapReturnsThePoint := by
  refine fun s => ⟨fun hrun p hp => ?run, fun hphase b => ?otherPhase, encode_map, fun w hopc hfields => ?illegal⟩
  case run => rw [exec_map_of_run p.1 hrun, respond_sample, mapPoint, pointIndex_of_pair p hp]
  case otherPhase => rw [exec_map, execMap, requirePhase_other _ hphase]
  case illegal =>
    apply raisesIllegalOp_of_rejects
    rw [← cmdWord_fields w, hopc]
    exact rejects_map.mpr hfields

end Sys2Proof.Proofs
end

section
/-! The operations on the coefficient memory, `RDCOEF` and `WRCOEF` (spec 41_rrc_generator.md R140, R141; 20_memory.md
R73, R81): what each answers, and the statements about them, settled. -/

namespace Sys2Proof.Proofs

open Sys2Proof.Machine

theorem exec_rdcoef (p : Imm) (s : State) : exec (.rdcoef p) s = execRdcoef p s := rfl

theorem exec_wrcoef (p : Imm) (w : Word) (s : State) : exec (.wrcoef p w) s = execWrcoef p w s := rfl

/-- An index below `CFG_N` reaches the tap (R73). -/
theorem withTap_of_lt {p : Imm} {s : State} {cs : List Word} (k : List Word → Host.Outcome State Fault Refusal)
    (hlt : p.toNat < s.cfgN.toNat) (hc : s.coef = some cs) (hl : cs.length = s.cfgN.toNat) :
    withTap p s k = k cs := by
  rw [withTap, if_pos hlt, withCoef_some k hc hl]

/-- Any other index raises `INDEX_RANGE` (R215). -/
theorem withTap_of_le {p : Imm} {s : State} (k : List Word → Host.Outcome State Fault Refusal)
    (hle : s.cfgN.toNat ≤ p.toNat) : withTap p s k = .next (raise .indexRange s) := by
  rw [withTap, if_neg (Nat.not_lt.mpr hle)]

theorem respond_nil (s : State) : respond [] s = { s with rsp := s.rsp ++ [0#32] } := by
  rw [respond_of_lt (by norm_num), List.length_nil, rspWord_ok_zero, List.append_nil]

theorem respond_one (w : Word) (s : State) :
    respond [w] s = { s with rsp := s.rsp ++ [0x100#32], rdata := s.rdata ++ [w] } := by
  rw [respond_of_lt (by norm_num), List.length_singleton, rspWord_ok_one]

/-- In `RUN`, `RDCOEF` answers the tap of its index (R140). -/
theorem exec_rdcoef_answers_tap {p : Imm} {s : State} {cs : List Word} (hrun : s.phase = .run)
    (hlt : p.toNat < s.cfgN.toNat) (hc : s.coef = some cs) (hl : cs.length = s.cfgN.toNat) :
    exec (.rdcoef p) s =
      .next { s with rsp := s.rsp ++ [0x100#32], rdata := s.rdata ++ [cs.getD p.toNat zeroF] } := by
  rw [exec_rdcoef, execRdcoef, requirePhase_same _ hrun, withTap_of_lt _ hlt hc hl, respond_one]

/-- In `RUN`, `WRCOEF` stores its word at its index (R141). -/
theorem exec_wrcoef_stores_tap {p : Imm} {s : State} {cs : List Word} (w : Word) (hrun : s.phase = .run)
    (hlt : p.toNat < s.cfgN.toNat) (hc : s.coef = some cs) (hl : cs.length = s.cfgN.toNat) :
    exec (.wrcoef p w) s =
      .next { s with coef := some (cs.set p.toNat w), rsp := s.rsp ++ [0#32] } := by
  rw [exec_wrcoef, execWrcoef, requirePhase_same _ hrun, withTap_of_lt _ hlt hc hl, respond_nil]

/-- The word at index `q` after a store at index `p`. -/
theorem getD_set_tap {cs : List Word} {p q : Imm} (w : Word) (hp : p.toNat < cs.length) :
    (cs.set p.toNat w).getD q.toNat zeroF = if q = p then w else cs.getD q.toNat zeroF := by
  by_cases h : q = p
  · simp [h, hp]
  · have hne : p.toNat ≠ q.toNat := fun heq => h (BitVec.eq_of_toNat_eq heq.symm)
    simp [h, List.getElem?_set_ne hne]

/-- A command word of `RDCOEF`, `WRCOEF` or `FILTER` whose `A` field is not zero is illegal (R95). -/
theorem raisesIllegalOp_of_aField_ne {w : Cmd} (hopc : opcField w ∈ [8#4, 9#4, 10#4]) (ha : aField w ≠ 0#4) :
    RaisesIllegalOp w := by
  apply raisesIllegalOp_of_rejects
  rw [← cmdWord_fields w]
  exact (rejects_imm hopc).mpr ha

/-- Settles O35: a completing read shows that its phase is `RUN`, and the store then changes its one tap. -/
theorem rdcoefReturnsTheWordLastWritten : Obligations.RdcoefReturnsTheWordLastWritten := by
  intro p q w old s t u hq hread hold hwrite hrun
  rcases execWrcoef_next hwrite with ⟨hphase, hlt, cs, hc, hl, ht⟩ | ⟨-, -, ht⟩ | ⟨-, ht⟩
  case inr.inl => simp [ht] at hrun
  case inr.inr => simp [ht] at hrun
  have hold' : cs.getD q.toNat zeroF = old := by
    rw [exec_rdcoef_answers_tap hphase hq hc hl] at hread
    cases hread
    simpa using hold
  have hcoef : t.coef = some (cs.set p.toNat w) := by rw [ht, respond_coef]
  have hcfgN : t.cfgN = s.cfgN := by rw [ht, respond_cfgN]
  rw [exec_rdcoef_answers_tap hrun (hcfgN ▸ hq) hcoef (by rw [List.length_set, hl, hcfgN]),
    getD_set_tap w (hl ▸ hlt), hold']

/-- Settles O33, case by case of the phase and the range check. -/
theorem rdcoefReadsTheTap : Obligations.RdcoefReadsTheTap := by
  refine fun p s => ⟨fun hphase => ?otherPhase, fun hrun hle => ?range, fun cs w hrun hc hl hlt hw => ?tap, rfl,
    fun w hopc ha => raisesIllegalOp_of_aField_ne (by simp [hopc]) ha⟩
  case otherPhase => rw [exec_rdcoef, execRdcoef, requirePhase_other _ hphase]
  case range => rw [exec_rdcoef, execRdcoef, requirePhase_same _ hrun, withTap_of_le _ hle]
  case tap => rw [exec_rdcoef_answers_tap hrun hlt hc hl, List.getD_eq_getElem?_getD, hw, Option.getD_some]

/-- Settles O34, case by case of the phase and the range check; the list after the store is `cs.set p w`. -/
theorem wrcoefWritesTheTap : Obligations.WrcoefWritesTheTap := by
  refine fun p w s => ⟨fun hphase => ?otherPhase, fun hrun hle => ?range, fun cs hrun hc hl hlt => ?tap, rfl,
    fun x hopc ha => raisesIllegalOp_of_aField_ne (by simp [hopc]) ha⟩
  case otherPhase => rw [exec_wrcoef, execWrcoef, requirePhase_other _ hphase]
  case range => rw [exec_wrcoef, execWrcoef, requirePhase_same _ hrun, withTap_of_le _ hle]
  case tap =>
    exact ⟨cs.set p.toNat w, exec_wrcoef_stores_tap w hrun hlt hc hl, List.length_set,
      List.getElem?_set_self (hl ▸ hlt), fun k hk => List.getElem?_set_ne hk.symm⟩

end Sys2Proof.Proofs
end

section
/-! A word is its sign and its magnitude field (spec 00_scope.md R15): what a flipped sign leaves unchanged, NaNs as one
value, and the operations on numbers with flipped signs (R16, R17). -/

namespace Sys2Proof.Machine

/-! ### The sign flipped -/

theorem toNat_eq_signBit_add_magBits (w : Word) : w.toNat = (if signBit w then 2 ^ 63 else 0) + magBits w := by
  have hlt := w.isLt
  unfold signBit magBits
  rw [← BitVec.msb_eq_getLsbD_last (w := 64) w, BitVec.msb_eq_decide]
  split <;> simp_all <;> omega

/-- A word is determined by its sign and its magnitude field. -/
theorem word_ext {a b : Word} (hs : signBit a = signBit b) (hm : magBits a = magBits b) : a = b := by
  apply BitVec.eq_of_toNat_eq
  rw [toNat_eq_signBit_add_magBits a, toNat_eq_signBit_add_magBits b, hs, hm]

@[simp] theorem negF_isNaN (a : Word) : isNaN (negF a) = isNaN a := by simp [isNaN, negF_magBits]
@[simp] theorem negF_isInf (a : Word) : isInf (negF a) = isInf a := by simp [isInf, negF_magBits]
@[simp] theorem negF_isFinite (a : Word) : isFinite (negF a) = isFinite a := by simp [isFinite, negF_magBits]
@[simp] theorem negF_isZero (a : Word) : isZero (negF a) = isZero a := by simp [isZero, negF_magBits]

@[simp] theorem negF_units (a : Word) : units (negF a) = units a := by
  simp [units, significand, exponent, negF_magBits]

@[simp] theorem negF_signedUnits (a : Word) : signedUnits (negF a) = -signedUnits a := by
  unfold signedUnits
  rw [negF_signBit, negF_units]
  cases signBit a <;> simp

@[simp] theorem negF_orderKey (a : Word) : orderKey (negF a) = -orderKey a := by
  unfold orderKey
  rw [negF_signBit, negF_magBits]
  cases signBit a <;> simp

@[simp] theorem negF_negF (a : Word) : negF (negF a) = a :=
  word_ext (by simp [negF_signBit]) (by simp [negF_magBits])

theorem negF_ofMag {k : ℕ} (s : Bool) (h : k < 2 ^ 63) : negF (ofMag s k) = ofMag (!s) k := by
  apply word_ext
  · rw [negF_signBit, ofMag_signBit s h, ofMag_signBit _ h]
  · rw [negF_magBits, ofMag_magBits s h, ofMag_magBits _ h]

theorem negF_roundUnits (s : Bool) (n d : ℕ) : negF (roundUnits s n d) = roundUnits (!s) n d :=
  negF_ofMag s ((Nat.min_le_right _ _).trans_lt (by decide))

theorem eqF_negF_negF (a b : Word) : eqF (negF a) (negF b) = eqF a b := by simp [eqF]

theorem eqF_negF_left (a b : Word) : eqF (negF a) b = eqF a (negF b) := by
  rw [← eqF_negF_negF a (negF b), negF_negF]

theorem eqF_self_or_isNaN (a : Word) : eqF a a = true ∨ isNaN a = true := by
  cases h : isNaN a <;> simp [eqF, h]

theorem eqF_of_isZero {a b : Word} (ha : isZero a = true) (hb : isZero b = true) : eqF a b = true := by
  have hkey {w : Word} (hw : isZero w = true) : orderKey w = 0 := by simp_all [isZero, orderKey]
  simp [eqF, isNaN_of_isFinite (isFinite_of_isZero ha), isNaN_of_isFinite (isFinite_of_isZero hb), hkey ha, hkey hb]

/-! ### NaNs as one value -/

/-- An operation that answers the canonical NaN for every NaN operand reads its operands as values (R15). -/
theorem eq_of_sameValue {f : Word → Word → Word}
    (hf : ∀ {a b : Word}, isNaN a = true ∨ isNaN b = true → f a b = canonicalNaN) {a a' b b' : Word}
    (ha : sameValue a a') (hb : sameValue b b') : f a b = f a' b' := by
  rcases ha with rfl | ⟨ha, ha'⟩
  · rcases hb with rfl | ⟨hb, hb'⟩
    · rfl
    · rw [hf (.inr hb), hf (.inr hb')]
  · rw [hf (.inl ha), hf (.inl ha')]

theorem sameValue_canonicalNaN : sameValue canonicalNaN (negF canonicalNaN) := .inr ⟨by simp, by simp⟩

/-! ### Operations on numbers with flipped signs -/

theorem mulF_comm (a b : Word) : mulF a b = mulF b a := by
  rw [mulF, mulF, Bool.or_comm (isNaN a), Bool.or_comm (isInf a), Bool.or_comm (isZero a), bne_comm, mul_comm (units a)]

theorem mulF_negF_left (a b : Word) : sameValue (mulF (negF a) b) (negF (mulF a b)) := by
  unfold mulF
  simp only [negF_isNaN, negF_isInf, negF_isZero, negF_units, negF_signBit, Bool.not_bne]
  split_ifs
  · exact sameValue_canonicalNaN
  · exact sameValue_canonicalNaN
  · exact .inl (negF_ofMag _ (by decide)).symm
  · exact .inl (negF_roundUnits _ _ _).symm

theorem mulF_negF_negF (a b : Word) : mulF (negF a) (negF b) = mulF a b := by
  simp only [mulF, negF_isNaN, negF_isInf, negF_isZero, negF_units, negF_signBit, Bool.not_bne_not]

theorem divF_negF_negF (a b : Word) : divF (negF a) (negF b) = divF a b := by
  simp only [divF, negF_isNaN, negF_isInf, negF_isZero, negF_units, negF_signBit, Bool.not_bne_not]

/-- A sum of negated numbers is the negated sum, but that an exact zero is `+0` on both sides. -/
theorem addF_negF_negF (a b : Word) :
    sameValue (addF (negF a) (negF b)) (negF (addF a b)) ∨
      (isZero (addF a b) = true ∧ isZero (addF (negF a) (negF b)) = true) := by
  unfold addF
  simp only [negF_isNaN, negF_isInf, negF_signedUnits, negF_signBit, Bool.not_bne_not, ← neg_add, neg_eq_zero,
    Int.natAbs_neg]
  split_ifs with _ _ _ _ hsum
  · exact .inl sameValue_canonicalNaN
  · exact .inl sameValue_canonicalNaN
  · exact .inl (.inl rfl)
  · exact .inl (.inl rfl)
  · exact .inr ⟨ofMag_zero_isZero _, ofMag_zero_isZero _⟩
  · have hsign : decide (-(signedUnits a + signedUnits b) < 0) = !decide (signedUnits a + signedUnits b < 0) := by
      rw [← decide_not]
      exact decide_eq_decide.mpr (by omega)
    rw [hsign, ← negF_roundUnits]
    exact .inl (.inl rfl)

theorem ofIntF_neg {t : ℤ} (h : t ≠ 0) : ofIntF (-t) = negF (ofIntF t) := by
  have hsign : decide (-t < 0) = !decide (t < 0) := by
    rw [← decide_not]
    exact decide_eq_decide.mpr (by omega)
  rw [ofIntF, ofIntF, negF_roundUnits, hsign, Int.natAbs_neg]

section Finite

variable {a b : Word} (ha : isFinite a = true) (hb : isFinite b = true)
include ha hb

theorem mulF_negF_left_of_isFinite : mulF (negF a) b = negF (mulF a b) := by
  rw [mulF_of_isFinite (by simpa using ha) hb, mulF_of_isFinite ha hb, negF_roundUnits, negF_signBit, negF_units,
    Bool.not_bne]

theorem mulF_negF_right_of_isFinite : mulF a (negF b) = negF (mulF a b) := by
  rw [mulF_comm, mulF_negF_left_of_isFinite hb ha, mulF_comm]

theorem divF_negF_left_of_isFinite (hz : isZero b = false) : divF (negF a) b = negF (divF a b) := by
  rw [divF_of_isFinite (by simpa using ha) hb hz, divF_of_isFinite ha hb hz, negF_roundUnits, negF_signBit, negF_units,
    Bool.not_bne]

end Finite

end Sys2Proof.Machine
end

section
/-! Magnitude bounds by powers of two, in units of `2⁻¹⁰⁷⁴` (spec 00_scope.md R15, R16): rounding keeps them, so each
operation has a bound from those of its operands. -/

namespace Sys2Proof.Ideal.RoundsAt

open Sys2Proof.Machine

variable {q m : ℕ} {x : ℝ}

/-- A number below what is rounded is not above the rounding. -/
theorem units_le (h : RoundsAt q m x) {c : Word} (hc : (units c : ℝ) ≤ x) :
    units c ≤ m * 2 ^ q := by
  have hle := h.abs_sub_le_units c
  rw [abs_sub_comm (units c : ℝ), abs_of_nonneg (sub_nonneg.mpr hc)] at hle
  have : (units c : ℝ) ≤ m * 2 ^ q := by linarith [(abs_le.mp hle).1]
  exact_mod_cast this

/-- A number above what is rounded is not below the rounding. -/
theorem le_units (h : RoundsAt q m x) {c : Word} (hc : x ≤ (units c : ℝ)) :
    m * 2 ^ q ≤ units c := by
  have hle := h.abs_sub_le_units c
  rw [abs_of_nonneg (sub_nonneg.mpr hc)] at hle
  have : (m : ℝ) * 2 ^ q ≤ units c := by linarith [(abs_le.mp hle).2]
  exact_mod_cast this

end Sys2Proof.Ideal.RoundsAt

namespace Sys2Proof.Machine

open Sys2Proof.Ideal

/-! ### Rounding keeps a power of two -/

theorem exists_units_eq_two_pow {j : ℕ} (hj : j ≤ 2097) : ∃ c : Word, units c = 2 ^ j := by
  rcases lt_or_ge j 52 with hlt | hge
  · have hm : 2 ^ j ≤ 2 ^ 52 := Nat.pow_le_pow_right (by decide) hlt.le
    exact ⟨_, by simpa using units_ofMag false (hm.trans (by decide)) (.inl rfl) (by omega)⟩
  · have hk : (j - 52) * 2 ^ 52 + 2 ^ 52 < 2 ^ 63 := by omega
    refine ⟨_, (units_ofMag false (by decide) (.inr le_rfl) hk).trans ?_⟩
    rw [← pow_add, Nat.add_sub_cancel' hge]

/-- A finite number of magnitude at most `2 ^ j` units. -/
structure AtMost (j : ℕ) (w : Word) : Prop where
  finite : isFinite w = true
  le : units w ≤ 2 ^ j

/-- A number of magnitude at least `2 ^ i` units. -/
def AtLeast (i : ℕ) (w : Word) : Prop := 2 ^ i ≤ units w

section Rounding

variable {n d j : ℕ} (s : Bool)

/-- A quotient of at most `2 ^ j` units rounds below the overflow bound, to a significand at its quantum. -/
theorem units_roundUnits (hd : 0 < d) (hj : j ≤ 2097) (h : n ≤ 2 ^ j * d) :
    isFinite (roundUnits s n d) = true ∧
      units (roundUnits s n d) = roundDiv n (d * 2 ^ quantum n d) * 2 ^ quantum n d := by
  have hx : (n : ℝ) / d < (2 ^ 53 - 1 / 2) * 2 ^ 2045 := by
    calc (n : ℝ) / d ≤ 2 ^ j := by
          rw [div_le_iff₀ (by exact_mod_cast hd)]
          exact_mod_cast h
      _ ≤ 2 ^ (52 + 2045) := pow_le_pow_right₀ (by norm_num) hj
      _ = 2 ^ 52 * 2 ^ 2045 := pow_add _ _ _
      _ < (2 ^ 53 - 1 / 2) * 2 ^ 2045 := mul_lt_mul_of_pos_right (by norm_num) (by positivity)
  obtain ⟨hfinite, hunits, -⟩ := (roundDiv_roundsAt hd).finite_word hx s
  exact ⟨hfinite, hunits⟩

theorem atMost_roundUnits (hd : 0 < d) (hj : j ≤ 2097) (h : n ≤ 2 ^ j * d) : AtMost j (roundUnits s n d) := by
  obtain ⟨hfinite, hunits⟩ := units_roundUnits s hd hj h
  obtain ⟨c, hc⟩ := exists_units_eq_two_pow hj
  refine ⟨hfinite, ?_⟩
  rw [hunits, ← hc]
  refine (roundDiv_roundsAt hd).le_units ?_
  rw [hc, div_le_iff₀ (by exact_mod_cast hd)]
  exact_mod_cast h

theorem atLeast_roundUnits {i : ℕ} (hd : 0 < d) (hj : j ≤ 2097) (h : n ≤ 2 ^ j * d) (hi : i ≤ 2097)
    (hle : 2 ^ i * d ≤ n) : AtLeast i (roundUnits s n d) := by
  obtain ⟨-, hunits⟩ := units_roundUnits s hd hj h
  obtain ⟨c, hc⟩ := exists_units_eq_two_pow hi
  rw [AtLeast, hunits, ← hc]
  refine (roundDiv_roundsAt hd).units_le ?_
  rw [hc, le_div_iff₀ (by exact_mod_cast hd)]
  exact_mod_cast hle

end Rounding

/-! ### Bounds of the operations -/

section Bounds

variable {i j k l : ℕ} {a b : Word}

theorem two_pow_mul_le {m n : ℕ} (hm : m ≤ 2 ^ i) (hn : n ≤ 2 ^ j) (h : i + j ≤ k + l) : m * n ≤ 2 ^ k * 2 ^ l :=
  calc m * n ≤ 2 ^ i * 2 ^ j := Nat.mul_le_mul hm hn
    _ = 2 ^ (i + j) := (pow_add _ _ _).symm
    _ ≤ 2 ^ (k + l) := Nat.pow_le_pow_right (by decide) h
    _ = 2 ^ k * 2 ^ l := pow_add _ _ _

theorem le_two_pow_mul {m n : ℕ} (hm : 2 ^ i ≤ m) (hn : 2 ^ j ≤ n) (h : k + l ≤ i + j) : 2 ^ k * 2 ^ l ≤ m * n :=
  calc 2 ^ k * 2 ^ l = 2 ^ (k + l) := (pow_add _ _ _).symm
    _ ≤ 2 ^ (i + j) := Nat.pow_le_pow_right (by decide) h
    _ = 2 ^ i * 2 ^ j := pow_add _ _ _
    _ ≤ m * n := Nat.mul_le_mul hm hn

theorem AtLeast.isZero (h : AtLeast i a) : isZero a = false := by
  by_contra hz
  rw [Bool.not_eq_false] at hz
  rw [AtLeast, units_of_isZero hz] at h
  exact absurd h (Nat.not_le.mpr (by positivity))

theorem AtMost.mulF (ha : AtMost i a) (hb : AtMost j b) (h : i + j ≤ l + 1074) (hl : l ≤ 2097) :
    AtMost l (mulF a b) := by
  rw [mulF_of_isFinite ha.finite hb.finite]
  exact atMost_roundUnits _ (by positivity) hl (two_pow_mul_le ha.le hb.le h)

theorem AtLeast.mulF {i' j' : ℕ} (ha : AtLeast i a) (hb : AtLeast j b) (h : k + 1074 ≤ i + j) (hk : k ≤ 2097)
    (ha' : AtMost i' a) (hb' : AtMost j' b) (h' : i' + j' ≤ 2097 + 1074) : AtLeast k (mulF a b) := by
  rw [mulF_of_isFinite ha'.finite hb'.finite]
  exact atLeast_roundUnits _ (by positivity) le_rfl (two_pow_mul_le ha'.le hb'.le h') hk (le_two_pow_mul ha hb h)

theorem AtMost.divF (ha : AtMost i a) (hb : isFinite b = true) (hb' : AtLeast j b) (h : i + 1074 ≤ l + j)
    (hl : l ≤ 2097) : AtMost l (divF a b) := by
  have hz := hb'.isZero
  rw [divF_of_isFinite ha.finite hb hz]
  refine atMost_roundUnits _ (units_pos hz) hl ?_
  exact (two_pow_mul_le ha.le le_rfl h).trans (Nat.mul_le_mul_left _ hb')

theorem AtLeast.divF {i' j' : ℕ} (ha : AtLeast i a) (hb : AtMost j b) (h : k + j ≤ i + 1074) (hk : k ≤ 2097)
    (ha' : AtMost i' a) (hb' : AtLeast j' b) (h' : i' + 1074 ≤ 2097 + j') : AtLeast k (divF a b) := by
  have hz := hb'.isZero
  rw [divF_of_isFinite ha'.finite hb.finite hz]
  refine atLeast_roundUnits _ (units_pos hz) le_rfl ?_ hk ?_
  · exact (two_pow_mul_le ha'.le le_rfl h').trans (Nat.mul_le_mul_left _ hb')
  · exact (Nat.mul_le_mul_left _ hb.le).trans (le_two_pow_mul ha le_rfl h)

theorem AtMost.negF (ha : AtMost i a) : AtMost i (negF a) := ⟨by simpa using ha.finite, by simpa using ha.le⟩

theorem signedUnits_natAbs (w : Word) : (signedUnits w).natAbs = units w := by
  unfold signedUnits
  split <;> simp

theorem AtMost.addF (ha : AtMost i a) (hb : AtMost i b) (hi : i + 1 ≤ 2097) : AtMost (i + 1) (addF a b) := by
  rw [addF_of_isFinite ha.finite hb.finite]
  split
  case isTrue => exact ⟨isFinite_of_isZero (ofMag_zero_isZero _), by simp [units_of_isZero]⟩
  case isFalse =>
    refine atMost_roundUnits _ one_pos hi ?_
    have hle := Int.natAbs_add_le (signedUnits a) (signedUnits b)
    rw [signedUnits_natAbs, signedUnits_natAbs] at hle
    have h2 := hle.trans (Nat.add_le_add ha.le hb.le)
    rw [pow_succ]
    omega

theorem AtMost.mono (ha : AtMost i a) (h : i ≤ j) : AtMost j a :=
  ⟨ha.finite, ha.le.trans (Nat.pow_le_pow_right (by decide) h)⟩

end Bounds

/-! ### Integers and the constants (R12, R18) -/

theorem units_ofIntF {i : ℤ} (hi : i.natAbs < 2 ^ 24) : units (ofIntF i) = i.natAbs * 2 ^ 1074 := by
  obtain ⟨-, hvalue⟩ := Proofs.integersConvertExactly i hi
  have habs : (units (ofIntF i) : ℝ) / 2 ^ 1074 = i.natAbs := by
    rw [Nat.cast_natAbs, Int.cast_abs, ← hvalue, realValue_eq, abs_div, abs_withSign, Nat.abs_cast,
      abs_of_pos (by positivity : (0 : ℝ) < 2 ^ 1074)]
  rw [← Nat.cast_inj (R := ℝ), Nat.cast_mul, Nat.cast_pow, Nat.cast_ofNat, ← habs, div_mul_cancel₀ _ (by positivity)]

theorem atMost_ofIntF {i : ℤ} (hi : i.natAbs < 2 ^ 24) : AtMost 1098 (ofIntF i) := by
  refine ⟨(Proofs.integersConvertExactly i hi).1, ?_⟩
  rw [units_ofIntF hi, show 1098 = 24 + 1074 from rfl, pow_add]
  exact Nat.mul_le_mul_right _ hi.le

theorem atLeast_ofIntF {i : ℤ} (hi : i.natAbs < 2 ^ 24) (h0 : i ≠ 0) : AtLeast 1074 (ofIntF i) := by
  rw [AtLeast, units_ofIntF hi]
  exact Nat.le_mul_of_pos_left _ (Int.natAbs_pos.mpr h0)

theorem oneF_signBit : signBit oneF = false := by rw [oneF_eq]; decide

theorem oneF_isZero : isZero oneF = false := by rw [oneF_eq]; decide

theorem units_oneF : units oneF = 2 ^ 1074 := by
  rw [oneF, units_ofIntF (by decide), Int.natAbs_one, one_mul]

theorem atMost_oneF : AtMost 1074 oneF := ⟨by rw [oneF_eq]; decide, units_oneF.le⟩

theorem atMost_fourF : AtMost 1076 fourF := by
  refine ⟨by rw [fourF_eq]; decide, ?_⟩
  rw [fourF, units_ofIntF (by decide), show 1076 = 2 + 1074 from rfl, pow_add 2 2 1074]
  exact Nat.mul_le_mul_right _ (by decide)

/-- The exponent field of `PI`, which lies between 2 and 4. -/
theorem piF_exponent : magBits piF / 2 ^ 52 = 1023 + 1 := by decide

theorem atMost_piF : AtMost 1076 piF := by
  refine ⟨by decide, (units_lt piF).le.trans ?_⟩
  rw [piF_exponent, ← pow_add]

theorem atLeast_piF : AtLeast 1075 piF := by
  refine le_trans ?_ (le_units piF_exponent)
  rw [← pow_add]

/-- A number in [0, 1] has at most the magnitude of 1 (R44). -/
theorem atMost_of_inUnitInterval {w : Word} (h : inUnitInterval w = true) : AtMost 1074 w := by
  have hone : orderKey oneF = magBits oneF := by rw [oneF_eq]; decide
  have hzero : orderKey zeroF = 0 := by decide
  have hnan : isNaN oneF = false ∧ isNaN zeroF = false := by rw [oneF_eq]; decide
  simp only [inUnitInterval, ltF, hone, hzero, hnan, Bool.and_eq_true, Bool.not_eq_true', Bool.not_false,
    Bool.and_true] at h
  obtain ⟨⟨hw, hlow⟩, hhigh⟩ := h
  simp only [hw, Bool.not_false, Bool.true_and, decide_eq_false_iff_not, not_lt] at hlow hhigh
  have hle : magBits w ≤ magBits oneF := by
    rw [orderKey] at hlow hhigh
    split_ifs at hlow hhigh <;> omega
  refine ⟨decide_eq_true (hle.trans_lt (of_decide_eq_true atMost_oneF.finite)), ?_⟩
  exact (not_lt.mp fun hlt => hle.not_gt (units_lt_units_iff.mp hlt)).trans units_oneF.le

/-- A multiple of `p`, and a number below half of `2⁵³ · p`, are no nearer to `2⁵³ · p` than `p`, unless equal to it. -/
theorem le_natAbs_sub {p u : ℕ} (hu : p ∣ u ∨ u < p * 2 ^ 52) (hne : ((p * 2 ^ 53 : ℕ) : ℤ) - u ≠ 0) :
    p ≤ (((p * 2 ^ 53 : ℕ) : ℤ) - u).natAbs := by
  rcases hu with hdvd | hlt
  · refine Nat.le_of_dvd (Int.natAbs_pos.mpr hne) (Int.natCast_dvd.mp (Int.dvd_sub ?_ ?_))
    · exact Int.natCast_dvd_natCast.mpr (Nat.dvd_mul_right _ _)
    · exact Int.natCast_dvd_natCast.mpr hdvd
  · omega

/-- What is left of 1 is no less than `2⁻⁵³`, the spacing of the numbers below 1, unless it is nothing. -/
theorem atLeast_one_sub {y : Word} {j : ℕ} (hy : AtMost j y) (h1 : 1074 ≤ j) (hj : j + 1 ≤ 2097)
    (hs : signBit y = false) (hz : isZero (subF oneF y) = false) : AtLeast 1021 (subF oneF y) := by
  have hone : signedUnits oneF = ((2 ^ 1021 * 2 ^ 53 : ℕ) : ℤ) := by
    rw [signedUnits, if_neg (by simp [oneF_signBit]), units_oneF, ← pow_add]
  have hunits : signedUnits y = units y := if_neg (by simp [hs])
  have hgrid : 2 ^ 1021 ∣ units y ∨ units y < 2 ^ 1021 * 2 ^ 52 := by
    rw [← pow_add]
    exact dvd_units_or_units_lt y 1021
  have hle : (signedUnits oneF + signedUnits (negF y)).natAbs ≤ 2 ^ (j + 1) := by
    have hsum := Int.natAbs_add_le (signedUnits oneF) (signedUnits (negF y))
    rw [signedUnits_natAbs, signedUnits_natAbs] at hsum
    have := hsum.trans (Nat.add_le_add (atMost_oneF.mono h1).le hy.negF.le)
    rw [pow_succ]
    omega
  rw [subF, addF_of_isFinite atMost_oneF.finite hy.negF.finite] at hz ⊢
  rw [negF_signedUnits, hunits, hone, ← sub_eq_add_neg] at hle hz ⊢
  split at hz
  case isTrue => rw [ofMag_zero_isZero] at hz; cases hz
  case isFalse hne =>
    rw [if_neg hne]
    refine atLeast_roundUnits _ one_pos hj (by rwa [mul_one]) (by decide) ?_
    rw [mul_one]
    exact le_natAbs_sub hgrid hne

end Sys2Proof.Machine
end

section
/-! Operations that give back an operand bit for bit (spec 00_scope.md R16): rounding a number, a product with 1, a sum with
a zero. -/

namespace Sys2Proof.Machine

open Sys2Proof.Ideal

/-- The largest finite magnitude. -/
theorem units_le_of_isFinite {a : Word} (ha : isFinite a = true) : units a ≤ (2 ^ 53 - 1) * 2 ^ 2045 := by
  have hmag : magBits a < (2045 + 2) * 2 ^ 52 := of_decide_eq_true ha
  have hexp : exponent a ≤ 2045 := by unfold exponent; omega
  have hpow : 2 ^ exponent a ≤ 2 ^ 2045 := by gcongr; decide
  exact Nat.mul_le_mul (Nat.le_pred_of_lt (significand_lt a)) hpow

/-- A number rounds to itself. -/
theorem roundUnits_units {a : Word} (ha : isFinite a = true) : roundUnits (signBit a) (units a) 1 = a := by
  have hbound : (units a : ℝ) < (2 ^ 53 - 1 / 2) * 2 ^ 2045 := by
    have hle : (units a : ℝ) ≤ (2 ^ 53 - 1) * 2 ^ 2045 := by
      have h : (units a : ℝ) ≤ ((2 ^ 53 - 1) * 2 ^ 2045 : ℕ) := Nat.cast_le.mpr (units_le_of_isFinite ha)
      rw [Nat.cast_mul, Nat.cast_pow] at h
      exact h.trans_eq (by norm_num)
    exact hle.trans_lt (mul_lt_mul_of_pos_right (by norm_num) (by positivity))
  have hdvd : 2 ^ quantum (units a) 1 ∣ units a := by
    by_cases hq : quantum (units a) 1 = 0
    · rw [hq, pow_zero]
      exact one_dvd _
    · refine (dvd_units_or_units_lt a _).resolve_right (not_lt.mpr ?_)
      simpa using two_pow_quantum_le one_pos hq
  obtain ⟨-, hunits⟩ := roundUnits_exact (signBit a) hbound hdvd
  refine word_ext (roundUnits_signBit _ _ _) (le_antisymm ?_ ?_)
  · exact not_lt.mp fun hlt => (units_lt_units hlt).ne hunits.symm
  · exact not_lt.mp fun hlt => (units_lt_units hlt).ne hunits

theorem roundDiv_mul_right (n d : ℕ) {k : ℕ} (hk : 0 < k) : roundDiv (n * k) (d * k) = roundDiv n d := by
  have hlt : d * k < 2 * (n % d * k) ↔ d < 2 * (n % d) := by rw [← mul_assoc, Nat.mul_lt_mul_right hk]
  have heq : 2 * (n % d * k) = d * k ↔ 2 * (n % d) = d := by rw [← mul_assoc, Nat.mul_left_inj hk.ne']
  simp only [roundDiv, Nat.mul_div_mul_right _ _ hk, Nat.mul_mod_mul_right, hlt, heq]

/-- Rounding depends on the quotient alone. -/
theorem roundUnits_mul_right (s : Bool) (n : ℕ) {k : ℕ} (hk : 0 < k) :
    roundUnits s (n * k) k = roundUnits s n 1 := by
  have hquantum : quantum (n * k) k = quantum n 1 := by rw [quantum, quantum, Nat.mul_div_cancel _ hk, Nat.div_one]
  rw [roundUnits, roundUnits, hquantum, one_mul, mul_comm k, roundDiv_mul_right _ _ hk]

theorem mulF_oneF {a : Word} (ha : isFinite a = true) : mulF a oneF = a := by
  rw [mulF_of_isFinite ha atMost_oneF.finite, units_oneF, oneF_signBit, Bool.bne_false,
    roundUnits_mul_right _ _ (by positivity), roundUnits_units ha]

theorem decide_signedUnits_neg {a : Word} (hz : isZero a = false) : decide (signedUnits a < 0) = signBit a := by
  have hpos := units_pos hz
  unfold signedUnits
  cases signBit a <;> simp [hpos]

theorem addF_of_isZero_right {a b : Word} (ha : isNaN a = false) (hz : isZero a = false) (hb : isZero b = true) :
    addF a b = a := by
  rcases isNaN_or_isInf_or_isFinite a with h | h | h
  · exact absurd ha (by simp [h])
  · exact (addF_of_isInf_isFinite h (isFinite_of_isZero hb)).1
  · have hne : signedUnits a ≠ 0 := by
      rw [← Int.natAbs_ne_zero, signedUnits_natAbs]
      exact (units_pos hz).ne'
    rw [addF_of_isFinite h (isFinite_of_isZero hb), signedUnits_of_isZero hb, add_zero, if_neg hne,
      decide_signedUnits_neg hz, signedUnits_natAbs, roundUnits_units h]

end Sys2Proof.Machine
end

section
/-! The taps of the generator (spec 41_rrc_generator.md R130 to R137): the list tap by tap, the magnitudes of the parts of
branch G, and the parts at `-t`. -/

namespace Sys2Proof.Machine

/-! ### The list of the taps (R137) -/

theorem tapsAt_cons (tr : Trig) (beta : Word) (n ts p : ℕ) (ps : List ℕ) :
    tapsAt tr beta n ts (p :: ps) =
      (tapAt tr beta n ts p).bind fun c => (tapsAt tr beta n ts ps).map (c :: ·) := by
  rw [tapsAt]
  cases tapAt tr beta n ts p <;> cases tapsAt tr beta n ts ps <;> rfl

theorem tapAt_of_tapsAt {tr : Trig} {beta : Word} {n ts : ℕ} {ps : List ℕ} {cs : List Word}
    (h : tapsAt tr beta n ts ps = some cs) {k p : ℕ} (hp : ps[k]? = some p) : tapAt tr beta n ts p = cs[k]? := by
  induction ps generalizing cs k with
  | nil => simp at hp
  | cons q ps ih =>
    rw [tapsAt_cons, Option.bind_eq_some_iff] at h
    obtain ⟨c, hc, h⟩ := h
    obtain ⟨rest, hrest, rfl⟩ := Option.map_eq_some_iff.mp h
    cases k with
    | zero => simpa [← Option.some_inj.mp hp] using hc
    | succ k => exact ih hrest hp

theorem tapsAt_eq_none_iff {tr : Trig} {beta : Word} {n ts : ℕ} {ps : List ℕ} :
    tapsAt tr beta n ts ps = none ↔ ∃ p ∈ ps, tapAt tr beta n ts p = none := by
  induction ps with
  | nil => simp [tapsAt]
  | cons q ps ih =>
    rw [tapsAt_cons]
    cases hq : tapAt tr beta n ts q <;> simp [hq, ih]

/-! ### Magnitudes in branch G (R135, R136) -/

theorem atMost_samples {ts : ℕ} (hts : ts < 2 ^ 24) : AtMost 1098 (ofIntF ts) := atMost_ofIntF (i := ts) hts

theorem atLeast_samples {ts : ℕ} (hts1 : 1 ≤ ts) (hts : ts < 2 ^ 24) : AtLeast 1074 (ofIntF ts) :=
  atLeast_ofIntF (i := ts) hts (by omega)

theorem atMost_pi_mul {t : ℤ} (ht : t.natAbs < 2 ^ 24) : AtMost 1100 (mulF piF (ofIntF t)) :=
  atMost_piF.mulF (atMost_ofIntF ht) (by decide) (by decide)

theorem atLeast_pi_mul {t : ℤ} (ht : t.natAbs < 2 ^ 24) (ht0 : t ≠ 0) : AtLeast 1075 (mulF piF (ofIntF t)) :=
  atLeast_piF.mulF (atLeast_ofIntF ht ht0) (by decide) (by decide) atMost_piF (atMost_ofIntF ht) (by decide)

theorem atMost_four_mul {beta : Word} (hbeta : AtMost 1074 beta) : AtMost 1076 (mulF fourF beta) :=
  atMost_fourF.mulF hbeta (by decide) (by decide)

theorem atMost_four_mul_mul {beta : Word} {t : ℤ} (hbeta : AtMost 1074 beta) (ht : t.natAbs < 2 ^ 24) :
    AtMost 1100 (mulF (mulF fourF beta) (ofIntF t)) :=
  (atMost_four_mul hbeta).mulF (atMost_ofIntF ht) (by decide) (by decide)

section Magnitudes

variable {beta : Word} {t : ℤ} {ts : ℕ} (ht : t.natAbs < 2 ^ 24) (hts1 : 1 ≤ ts) (hts : ts < 2 ^ 24)
include ht hts1 hts

theorem atMost_tapPts : AtMost 1100 (tapPts t ts) :=
  (atMost_pi_mul ht).divF (atMost_samples hts).finite (atLeast_samples hts1 hts) (by decide) (by decide)

theorem atLeast_tapPts (ht0 : t ≠ 0) : AtLeast 1051 (tapPts t ts) :=
  (atLeast_pi_mul ht ht0).divF (atMost_samples hts) (by decide) (by decide) (atMost_pi_mul ht)
    (atLeast_samples hts1 hts) (by decide)

variable (hbeta : AtMost 1074 beta)
include hbeta

theorem atMost_tapBt : AtMost 1100 (tapBt beta t ts) :=
  (atMost_four_mul_mul hbeta ht).divF (atMost_samples hts).finite (atLeast_samples hts1 hts) (by decide) (by decide)

theorem atMost_bt_sq : AtMost 1126 (mulF (tapBt beta t ts) (tapBt beta t ts)) :=
  (atMost_tapBt ht hts1 hts hbeta).mulF (atMost_tapBt ht hts1 hts hbeta) (by decide) (by decide)

theorem bt_sq_signBit : signBit (mulF (tapBt beta t ts) (tapBt beta t ts)) = false := by
  have hfinite := (atMost_tapBt ht hts1 hts hbeta).finite
  rw [mulF_of_isFinite hfinite hfinite, roundUnits_signBit, bne_self_eq_false]

theorem atMost_one_sub_bt_sq : AtMost 1127 (subF oneF (mulF (tapBt beta t ts) (tapBt beta t ts))) :=
  (atMost_oneF.mono (by decide)).addF (atMost_bt_sq ht hts1 hts hbeta).negF (by decide)

theorem atMost_tapDen : AtMost 1153 (tapDen beta t ts) :=
  (atMost_tapPts ht hts1 hts).mulF (atMost_one_sub_bt_sq ht hts1 hts hbeta) (by decide) (by decide)

/-- `pts` and a factor that is no zero are too large for their product to vanish (R136). -/
theorem tapDen_isZero_iff (ht0 : t ≠ 0) :
    isZero (tapDen beta t ts) = true ↔
      isZero (subF oneF (mulF (tapBt beta t ts) (tapBt beta t ts))) = true := by
  have hpts := atMost_tapPts ht hts1 hts
  have hfactor := atMost_one_sub_bt_sq ht hts1 hts hbeta
  cases hz : isZero (subF oneF (mulF (tapBt beta t ts) (tapBt beta t ts))) with
  | true => exact iff_of_true (mulF_isZero hz hpts.finite).2 rfl
  | false =>
    have hlow := atLeast_one_sub (atMost_bt_sq ht hts1 hts hbeta) (by decide) (by decide)
      (bt_sq_signBit ht hts1 hts hbeta) hz
    have hden : AtLeast 998 (tapDen beta t ts) :=
      (atLeast_tapPts ht hts1 hts ht0).mulF hlow (by decide) (by decide) hpts hfactor (by decide)
    simp [hden.isZero]

end Magnitudes

/-! ### The same number -/

/-- The same number, both zeros being one, or both a NaN, or both `DIV_ZERO` (R139 (b)). -/
def SameTap (x y : Option Word) : Prop :=
  (x = none ∧ y = none) ∨
    ∃ a b, x = some a ∧ y = some b ∧ (eqF a b = true ∨ (isNaN a = true ∧ isNaN b = true))

theorem SameTap.refl (x : Option Word) : SameTap x x := by
  cases x with
  | none => exact .inl ⟨rfl, rfl⟩
  | some a => exact .inr ⟨a, a, rfl, rfl, (eqF_self_or_isNaN a).imp_right fun h => ⟨h, h⟩⟩

/-! ### The parts at `-t` (R139 (b)) -/

theorem tapTime_sub {n p : ℕ} (hn : n % 2 = 0) (hp : p ≤ n) : tapTime n (n - p) = -tapTime n p := by
  unfold tapTime
  omega

theorem takesS_neg (beta : Word) {t : ℤ} (ts : ℕ) (ht0 : t ≠ 0) : takesS beta (-t) ts = takesS beta t ts := by
  rw [takesS, takesS, ofIntF_neg ht0, eqF_negF_negF, eqF_negF_left, Bool.or_comm]

section Negated

variable {tr : Trig} {beta : Word} {t : ℤ} {ts : ℕ} (ht0 : t ≠ 0) (ht : t.natAbs < 2 ^ 24) (hts1 : 1 ≤ ts)
  (hts : ts < 2 ^ 24)
include ht0 ht hts1 hts

theorem tapPts_neg : tapPts (-t) ts = negF (tapPts t ts) := by
  rw [tapPts, tapPts, ofIntF_neg ht0, mulF_negF_right_of_isFinite atMost_piF.finite (atMost_ofIntF ht).finite,
    divF_negF_left_of_isFinite (atMost_pi_mul ht).finite (atMost_samples hts).finite (atLeast_samples hts1 hts).isZero]

variable (hbeta : AtMost 1074 beta)
include hbeta

theorem tapBt_neg : tapBt beta (-t) ts = negF (tapBt beta t ts) := by
  rw [tapBt, tapBt, ofIntF_neg ht0, mulF_negF_right_of_isFinite (atMost_four_mul hbeta).finite
      (atMost_ofIntF ht).finite,
    divF_negF_left_of_isFinite (atMost_four_mul_mul hbeta ht).finite (atMost_samples hts).finite
      (atLeast_samples hts1 hts).isZero]

theorem tapDen_neg : tapDen beta (-t) ts = negF (tapDen beta t ts) := by
  rw [tapDen, tapDen, tapPts_neg ht0 ht hts1 hts, tapBt_neg ht0 ht hts1 hts hbeta, mulF_negF_negF,
    mulF_negF_left_of_isFinite (atMost_tapPts ht hts1 hts).finite (atMost_one_sub_bt_sq ht hts1 hts hbeta).finite]

/-- With an odd `SIN` and an even `COS` the numerator is odd, but for the sign of an exact zero. -/
theorem tapNum_neg (htr : TrigOddEven tr) :
    sameValue (tapNum tr beta (-t) ts) (negF (tapNum tr beta t ts)) ∨
      (isZero (tapNum tr beta t ts) = true ∧ isZero (tapNum tr beta (-t) ts) = true) := by
  have hpts := (atMost_tapPts ht hts1 hts).finite
  have hminus : AtMost 1075 (subF oneF beta) := atMost_oneF.addF hbeta.negF (by decide)
  have hplus : AtMost 1075 (addF oneF beta) := atMost_oneF.addF hbeta (by decide)
  have hnum : tapNum tr beta (-t) ts =
      addF (negF (tr.sin (mulF (tapPts t ts) (subF oneF beta))))
        (negF (mulF (tapBt beta t ts) (tr.cos (mulF (tapPts t ts) (addF oneF beta))))) := by
    rw [tapNum, tapPts_neg ht0 ht hts1 hts, tapBt_neg ht0 ht hts1 hts hbeta,
      mulF_negF_left_of_isFinite hpts hminus.finite, mulF_negF_left_of_isFinite hpts hplus.finite,
      eq_of_sameValue mulF_of_isNaN (.inl rfl) (htr _).2]
    exact eq_of_sameValue addF_of_isNaN (htr _).1 (mulF_negF_left _ _)
  rw [hnum]
  exact addF_negF_negF _ _

/-- Branch G is even in `t` as numbers: both parts of its fraction change their sign. -/
theorem tapG_neg (htr : TrigOddEven tr) : SameTap (tapG tr beta t ts) (tapG tr beta (-t) ts) := by
  have hden := (atMost_tapDen ht hts1 hts hbeta).finite
  rw [tapG, tapG, tapDen_neg ht0 ht hts1 hts hbeta, eqF_zeroF, eqF_zeroF, negF_isZero]
  cases hz : isZero (tapDen beta t ts) with
  | true => exact SameTap.refl none
  | false =>
    rw [if_neg Bool.false_ne_true, if_neg Bool.false_ne_true]
    rcases tapNum_neg ht0 ht hts1 hts hbeta htr with hnum | ⟨hnum, hnum'⟩
    · rw [eq_of_sameValue divF_of_isNaN hnum (.inl rfl), divF_negF_negF]
      exact SameTap.refl _
    · have hquot := divF_isZero hnum hden hz
      have hquot' := divF_isZero hnum' ((negF_isFinite _).trans hden) ((negF_isZero _).trans hz)
      exact .inr ⟨_, _, rfl, rfl, .inl (eqF_of_isZero hquot hquot')⟩

end Negated

/-! ### A zero β (R135, R139 (a)) -/

section ZeroBeta

variable {beta : Word} (hbeta : isZero beta = true)
include hbeta

theorem addF_oneF_of_isZero : addF oneF beta = oneF :=
  addF_of_isZero_right (isNaN_of_isFinite atMost_oneF.finite) oneF_isZero hbeta

theorem subF_oneF_of_isZero : subF oneF beta = oneF := addF_oneF_of_isZero (by simpa using hbeta)

theorem takesS_of_isZero (t : ℤ) (ts : ℕ) : takesS beta t ts = false := by
  rw [takesS, eqF_zeroF, hbeta, Bool.not_true, Bool.false_and]

theorem tapZ_of_isZero : tapZ beta = oneF := by
  have hfactor : isFinite (subF (divF fourF piF) oneF) = true :=
    ((atMost_fourF.divF (l := 1076) atMost_piF.finite atLeast_piF (by decide) (by decide)).addF
      (atMost_oneF.mono (by decide)).negF (by decide)).finite
  exact addF_oneF_of_isZero (mulF_isZero hbeta hfactor).1

variable {t : ℤ} {ts : ℕ} (ht : t.natAbs < 2 ^ 24) (hts1 : 1 ≤ ts) (hts : ts < 2 ^ 24)
include ht hts1 hts

theorem tapBt_isZero : isZero (tapBt beta t ts) = true :=
  divF_isZero (mulF_isZero (mulF_isZero hbeta atMost_fourF.finite).2 (atMost_ofIntF ht).finite).1
    (atMost_samples hts).finite (atLeast_samples hts1 hts).isZero

theorem tapDen_of_isZero : tapDen beta t ts = tapPts t ts := by
  have hbt := tapBt_isZero hbeta ht hts1 hts
  rw [tapDen, subF_oneF_of_isZero (mulF_isZero hbt (isFinite_of_isZero hbt)).1,
    mulF_oneF (atMost_tapPts ht hts1 hts).finite]

theorem tapNum_of_isZero (tr : Trig) :
    tapNum tr beta t ts = addF (tr.sin (tapPts t ts)) (mulF (tapBt beta t ts) (tr.cos (tapPts t ts))) := by
  rw [tapNum, subF_oneF_of_isZero hbeta, addF_oneF_of_isZero hbeta, mulF_oneF (atMost_tapPts ht hts1 hts).finite]

/-- The cosine adds a zero to the numerator, which changes nothing but the word of a NaN. -/
theorem tapNum_of_isZero_sameValue {tr : Trig} (hsin : isZero (tr.sin (tapPts t ts)) = false)
    (hcos : isFinite (tr.cos (tapPts t ts)) = true) :
    sameValue (tapNum tr beta t ts) (tr.sin (tapPts t ts)) := by
  rw [tapNum_of_isZero hbeta ht hts1 hts]
  cases hnan : isNaN (tr.sin (tapPts t ts)) with
  | true => exact .inr ⟨by rw [addF_of_isNaN (.inl hnan), canonicalNaN_isNaN], hnan⟩
  | false => exact .inl (addF_of_isZero_right hnan hsin (mulF_isZero (tapBt_isZero hbeta ht hts1 hts) hcos).1)

end ZeroBeta

end Sys2Proof.Machine
end

section
/-! The statements of 41_rrc_generator.md about the generator, settled. -/

namespace Sys2Proof.Proofs

open Sys2Proof.Machine

/-- Settles O36: the list by induction over its indices, a tap by the branches of `tapAt` with the words of the constants. -/
theorem rrcComputesTapByTap : Obligations.RrcComputesTapByTap := by
  refine fun tr beta n ts => ⟨fun taps h => ⟨rrc_length h, fun p hp => ?tap⟩, ?none, ?branches, ?fourOverPi,
    ?fourOverPiSubOne, ?twoOverPi, ?onePlus, ?oneMinus, fun hz => ?centre⟩
  case tap => exact tapAt_of_tapsAt h (List.getElem?_range hp)
  case none => simp only [rrc, tapsAt_eq_none_iff, List.mem_range]
  case branches =>
    intro p t four_beta t1 x u v pts bt num den ht hfour ht1 hx hu hv hpts hbt hnum hden
    rw [hden, hnum, hbt, hpts, hv, hu, hx, ht1, hfour]
    simp only [tapAt, tapTime, ← ht, tapZ, takesS, singularTime, tapS, tapG, tapNum, tapDen, tapPts, tapBt, eqF_zeroF,
      oneF_eq, twoF_eq, fourF_eq, sqrt2F_eq, piF, Bool.and_eq_true, Bool.or_eq_true, Bool.not_eq_true']
  case fourOverPi => decide +kernel
  case fourOverPiSubOne => decide +kernel
  case twoOverPi => decide +kernel
  case onePlus => decide +kernel
  case oneMinus => decide +kernel
  case centre =>
    have htime : tapTime n (n / 2) = 0 := by simp [tapTime]
    rw [tapAt, if_pos htime, tapZ_of_isZero hz, oneF_eq]

/-- Settles O37: the numerator is `SIN(pts)` as a value, the denominator `pts`, which is no zero. -/
theorem rrcWithBetaZeroIsSinc : Obligations.RrcWithBetaZeroIsSinc := by
  rintro tr beta pts n ts p hbeta - hn hts1 hts hp hpn hpts hsin hcos
  have ht0 : tapTime n p ≠ 0 := by unfold tapTime; omega
  have ht : (tapTime n p).natAbs < 2 ^ 24 := by unfold tapTime; omega
  obtain rfl : pts = tapPts (tapTime n p) ts := hpts
  have hz : isZero (tapPts (tapTime n p) ts) = false := (atLeast_tapPts ht hts1 hts ht0).isZero
  have hnum := tapNum_of_isZero_sameValue hbeta ht hts1 hts hsin hcos
  rw [tapAt, if_neg ht0, takesS_of_isZero hbeta, if_neg Bool.false_ne_true, tapG, tapDen_of_isZero hbeta ht hts1 hts,
    eqF_zeroF, hz, if_neg Bool.false_ne_true, eq_of_sameValue divF_of_isNaN hnum (.inl rfl)]

/-- Settles O38: the tap at `N − p` is the tap at `-t`, in the same branch. -/
theorem rrcIsSymmetric : Obligations.RrcIsSymmetric := by
  intro tr beta n ts p htr hbeta hn hn24 hts1 hts hp1 hp
  have ht : (tapTime n p).natAbs < 2 ^ 24 := by unfold tapTime; omega
  show SameTap (tapAt tr beta n ts p) (tapAt tr beta n ts (n - p))
  rw [tapAt, tapAt, tapTime_sub hn hp.le]
  by_cases ht0 : tapTime n p = 0
  · rw [ht0, neg_zero]
    exact SameTap.refl _
  · rw [if_neg ht0, if_neg (neg_ne_zero.mpr ht0), takesS_neg _ _ ht0]
    split
    · exact SameTap.refl _
    · exact tapG_neg ht0 ht hts1 hts (atMost_of_inUnitInterval hbeta) htr

/-- Settles O39: neither `pts` nor a difference `1 − bt·bt` that is no zero is small enough for a zero product. -/
theorem rrcDenominatorIsZeroOnlyByBt : Obligations.RrcDenominatorIsZeroOnlyByBt := by
  intro beta t ts hbeta ht0 ht hts1 hts
  rw [eqF_zeroF, eqF_zeroF]
  exact ⟨(atLeast_tapPts ht hts1 hts ht0).isZero,
    tapDen_isZero_iff ht hts1 hts (atMost_of_inUnitInterval hbeta) ht0⟩

end Sys2Proof.Proofs
end

section
/-! The statements of 42_bit_unpacker.md, settled: the bits of a byte (R150), and what `UNPACK` answers (R151). -/

namespace Sys2Proof.Proofs

open Sys2Proof.Machine

/-! ### The bits of a byte -/

/-- The expansion of a byte reads its bits from bit 7 down to bit 0 (R150). -/
theorem unpackBits_eq_map (v : Byte) : unpackBits v = [7, 6, 5, 4, 3, 2, 1, 0].map v.getLsbD := rfl

theorem getElem?_countdown : ∀ j < 8, [7, 6, 5, 4, 3, 2, 1, 0][j]? = some (7 - j) := by decide

/-- Settles O31: the expansion is the bits at the positions 7 to 0, and position number `j` of these is `7 − j`. -/
theorem unpackBitsAreMostSignificantFirst : Obligations.UnpackBitsAreMostSignificantFirst := by
  refine fun v => ⟨rfl, fun j hj => ?element⟩
  case element => rw [unpackBits_eq_map, List.getElem?_map, getElem?_countdown j hj, Option.map_some]

/-! ### `UNPACK` -/

theorem exec_unpack (v : Byte) (s : State) : exec (.unpack v) s = execUnpack v s := rfl

theorem bitWord_beq_one : ∀ b : BitVec 1, bitWord (b == 1#1) = b.setWidth 64 := by decide

/-- The word of a bit is the bit, zero-extended (R104). -/
theorem bitWord_getLsbD (v : Byte) (j : ℕ) : bitWord (v.getLsbD j) = (v.extractLsb' j 1).setWidth 64 := by
  rw [BitVec.getLsbD_eq_extractLsb', bitWord_beq_one]

/-- The result words of `UNPACK`: one for each bit, bit 7 first (R151). -/
theorem map_bitWord_unpackBits (v : Byte) :
    (unpackBits v).map bitWord = [7, 6, 5, 4, 3, 2, 1, 0].map fun j => (v.extractLsb' j 1).setWidth 64 := by
  rw [unpackBits_eq_map, List.map_map]
  exact List.map_congr_left fun j _ => bitWord_getLsbD v j

/-- A response of eight words (R14, R101). -/
theorem respond_eight {ws : List Word} (s : State) (hlen : ws.length = 8) :
    respond ws s = { s with rsp := s.rsp ++ [0x800#32], rdata := s.rdata ++ ws } := by
  rw [respond_of_lt (hlen.trans_lt (by norm_num)), hlen, rspWord_ok_eight]

/-- `OPC`, `A` and the zero bits of `IMM` stand above the byte (R94). -/
theorem encode_unpack (v : Byte) : encode (.unpack v) = (0x600000#24 ++ v, []) :=
  congrArg (·, []) (BitVec.append_assoc (x₁ := 6#4 ++ 0#4) (x₂ := 0#16) (x₃ := v)).symm

/-- Settles O29: in `RUN` the response carries the words of the bits, and the words rejected are those of `rejects_byte`. -/
theorem unpackReturnsEightBits : Obligations.UnpackReturnsEightBits := by
  refine fun v s => ⟨fun hrun => ?run, fun hphase => ?otherPhase, encode_unpack v, fun w hopc hfields => ?illegal⟩
  case run =>
    rw [exec_unpack, execUnpack, requirePhase_same _ hrun, map_bitWord_unpackBits, respond_eight s rfl]
  case otherPhase => rw [exec_unpack, execUnpack, requirePhase_other _ hphase]
  case illegal =>
    apply raisesIllegalOp_of_rejects
    rw [← cmdWord_fields w, hopc]
    exact (rejects_byte (by decide)).mpr hfields

end Sys2Proof.Proofs
end

section
/-! The statements of 43_modulator.md, settled: `MODULATE` as a list (R155, R156), and what `MOD` answers (R157, R158). -/

namespace Sys2Proof.Proofs

open Sys2Proof.Machine

/-! ### The modulator -/

/-- One pair in front: its point `Ts` times (R155). -/
theorem modulate_pair (pt : Fin 4 → Sample) (first second : Bool) (rest : List Bool) (ts : ℕ) :
    modulate pt (first :: second :: rest) ts =
      List.replicate ts (pt (pointIndex first second)) ++ modulate pt rest ts := rfl

theorem cons_cons_length_div_two (first second : Bool) (rest : List Bool) :
    (first :: second :: rest).length / 2 = rest.length / 2 + 1 := Nat.add_div_right _ two_pos

theorem modulate_length (pt : Fin 4 → Sample) (bits : List Bool) (ts : ℕ) :
    (modulate pt bits ts).length = bits.length / 2 * ts := by
  induction bits using List.twoStepInduction with
  | nil | singleton => simp [modulate]
  | cons_cons first second rest ih _ =>
    rw [modulate_pair, List.length_append, List.length_replicate, ih, cons_cons_length_div_two, Nat.succ_mul,
      Nat.add_comm]

/-- The points of a sequence of bits given by position: pair `q` is bits `2·q` and `2·q + 1` (R155). -/
theorem modulate_map_range (pt : Fin 4 → Sample) (bit : ℕ → Bool) (m ts : ℕ) :
    modulate pt ((List.range (2 * m)).map bit) ts =
      (List.range m).flatMap fun q => List.replicate ts (pt (pointIndex (bit (2 * q)) (bit (2 * q + 1)))) := by
  induction m generalizing bit with
  | zero => rfl
  | succ m ih =>
    have hbits : (List.range (2 * (m + 1))).map bit =
        bit 0 :: bit 1 :: (List.range (2 * m)).map fun j => bit (j + 2) := by
      simp [Nat.mul_succ, List.range_succ_eq_map, Function.comp_def]
    rw [hbits, modulate_pair, ih, List.range_succ_eq_map, List.flatMap_cons, List.flatMap_map]
    rfl

/-- Element `n` lies among the repeats of pair `n / Ts`: those of the first pair are the first `Ts`, and past them the
elements of the other pairs are counted from 0 again. -/
theorem modulate_getElem? (pt : Fin 4 → Sample) {bits : List Bool} {ts n : ℕ} (hn : n < bits.length / 2 * ts) :
    ∃ first second, bits[2 * (n / ts)]? = some first ∧ bits[2 * (n / ts) + 1]? = some second ∧
      (modulate pt bits ts)[n]? = some (pt (pointIndex first second)) := by
  induction bits using List.twoStepInduction generalizing n with
  | nil | singleton => simp at hn
  | cons_cons first second rest ih _ =>
    rw [modulate_pair]
    rcases lt_or_ge n ts with hlt | hge
    · rw [Nat.div_eq_of_lt hlt]
      exact ⟨first, second, rfl, rfl, by simp [List.getElem?_append_left, hlt]⟩
    · obtain ⟨k, rfl⟩ := Nat.exists_eq_add_of_le' hge
      have hts : 0 < ts := Nat.pos_of_mul_pos_left (Nat.zero_lt_of_lt hn)
      rw [cons_cons_length_div_two, Nat.succ_mul] at hn
      obtain ⟨a, b, ha, hb, hpoint⟩ := ih (Nat.lt_of_add_lt_add_right hn)
      rw [Nat.add_div_right _ hts, List.getElem?_append_right (by simp), List.length_replicate, Nat.add_sub_cancel]
      exact ⟨a, b, ha, hb, hpoint⟩

/-- Settles O32: both parts hold by induction on the pairs of the sequence. -/
theorem modulateRepeatsEachPoint : Obligations.ModulateRepeatsEachPoint :=
  fun pt bits ts _ => ⟨modulate_length pt bits ts, fun _ hn => modulate_getElem? pt hn⟩

/-! ### `MOD` -/

theorem exec_mod (nb : BitVec 3) (v : Byte) (s : State) : exec (.mod nb v) s = modBits nb.toNat v s := rfl

theorem exec_modNb8 (v : Byte) (s : State) : exec (.modNb8 v) s = modBits 8 v s := rfl

/-- The first `nb` bits of a byte by position, from bit 7 down (R158). -/
theorem take_unpackBits {nb : ℕ} (v : Byte) (hnb : nb ≤ 8) :
    (unpackBits v).take nb = (List.range nb).map fun j => v.getLsbD (7 - j) := by
  have hbits : unpackBits v = (List.range 8).map fun j => v.getLsbD (7 - j) := rfl
  rw [hbits, ← List.map_take, List.take_range, Nat.min_eq_left hnb]

/-- In `RUN` the first `m` pairs of the byte are answered, each point `Ts` times (R158). -/
theorem modBits_of_even {m : ℕ} {s : State} (v : Byte) (hrun : s.phase = .run) (hm : 2 * m ≤ 8) :
    modBits (2 * m) v s =
      .next (respond (wordsOf ((List.range m).flatMap fun q =>
        List.replicate s.cfgTs.toNat
          (constellation (pointIndex (v.getLsbD (7 - 2 * q)) (v.getLsbD (6 - 2 * q)))))) s) := by
  have hsecond : ∀ q, 7 - (2 * q + 1) = 6 - 2 * q := by omega
  rw [modBits, requirePhase_same _ hrun, if_neg (by omega), take_unpackBits v hm, modulate_map_range]
  simp only [hsecond]

/-- In `RUN` an odd bit count faults (R157). -/
theorem modBits_of_odd {nb : ℕ} {s : State} (v : Byte) (hrun : s.phase = .run) (hodd : nb % 2 = 1) :
    modBits nb v s = .next (raise .oddBits s) := by
  rw [modBits, requirePhase_same _ hrun, if_pos hodd]

theorem modBits_of_phase_ne {s : State} (nb : ℕ) (v : Byte) (hphase : s.phase ≠ .run) :
    modBits nb v s = .next (raise .badPhase s) := requirePhase_other _ hphase

/-- `OPC`, the bit count and the zero bits of `IMM` stand above the byte (R94). -/
theorem encode_mod (nb : BitVec 3) (v : Byte) : encode (.mod nb v) = (7#4 ++ (0#1 ++ nb) ++ 0#16 ++ v, []) :=
  congrArg (·, []) (BitVec.append_assoc (x₁ := 7#4 ++ (0#1 ++ nb)) (x₂ := 0#16) (x₃ := v)).symm

theorem encode_modNb8 (v : Byte) : encode (.modNb8 v) = (0x780000#24 ++ v, []) :=
  congrArg (·, []) (BitVec.append_assoc (x₁ := 7#4 ++ 8#4) (x₂ := 0#16) (x₃ := v)).symm

/-- Settles O30: an even count is twice the number of its pairs, `MOD.NB8` has four, and the words rejected are those of
`rejects_mod`. -/
theorem modReturnsTheChips : Obligations.ModReturnsTheChips := by
  intro nb v s chips hchips
  refine ⟨fun hrun => ⟨fun hodd => ?odd, fun heven => ?even, ?whole⟩, fun hphase => ⟨?otherPhase, ?otherPhaseNb8⟩,
    encode_mod nb v, encode_modNb8 v, fun w hopc hfields => ?illegal⟩
  case odd => rw [exec_mod, modBits_of_odd v hrun hodd]
  case even =>
    have hpairs : nb.toNat = 2 * (nb.toNat / 2) := (Nat.two_mul_div_two_of_even (Nat.even_iff.mpr heven)).symm
    have hlt : nb.toNat < 8 := nb.isLt
    rw [exec_mod, hchips, ← modBits_of_even v hrun (by omega), ← hpairs]
  case whole =>
    rw [exec_modNb8, hchips]
    exact modBits_of_even (m := 4) v hrun le_rfl
  case otherPhase => rw [exec_mod, modBits_of_phase_ne _ v hphase]
  case otherPhaseNb8 => rw [exec_modNb8, modBits_of_phase_ne _ v hphase]
  case illegal =>
    apply raisesIllegalOp_of_rejects
    rw [← cmdWord_fields w, hopc]
    exact rejects_mod.mpr hfields

end Sys2Proof.Proofs
end

section
/-! The filter as a function of lists (spec 44_fir_filter.md R165 to R174): one output as a sum over the samples it reads, the
new history, chunk after chunk, and zero input. -/

namespace Sys2Proof.Machine

/-! ### One output -/

/-- An output is the sum over the samples its taps read, given tap by tap (R167, R168). -/
theorem tapSum_eq_foldl {c : List Word} {w : List Sample} {s : ℕ} {x : ℕ → Sample}
    (hx : ∀ k < c.length, w.getD (c.length + s - 1 - k) czero = x k) :
    tapSum c w s =
      (List.range c.length).foldl (fun acc k => cadd acc (scale (x k) (c.getD k zeroF))) czero := by
  refine List.foldl_ext _ _ _ fun acc k hk => ?_
  rw [hx k (List.mem_range.mp hk)]

/-- Samples past the newest one an output reads do not matter. -/
theorem tapSum_append {c : List Word} {w : List Sample} {s : ℕ} (w' : List Sample) (hs : c.length + s ≤ w.length) :
    tapSum c (w ++ w') s = tapSum c w s :=
  tapSum_eq_foldl fun _ _ => List.getD_append _ _ _ _ (by omega)

/-- The output `n` places on reads the buffer `n` samples on. -/
theorem tapSum_drop (c : List Word) (w : List Sample) (n s : ℕ) : tapSum c (w.drop n) s = tapSum c w (n + s) := by
  refine tapSum_eq_foldl fun k hk => ?_
  have hindex : n + (c.length + s - 1 - k) = c.length + (n + s) - 1 - k := by omega
  rw [List.getD_eq_getElem?_getD, List.getElem?_drop, hindex, List.getD_eq_getElem?_getD]

/-- The samples that end at position `N − 1 + s`, newest first, each beside its tap (R167). -/
theorem zip_reverse_window {c : List Word} {w : List Sample} {s : ℕ} (hs : c.length + s ≤ w.length) :
    ((w.drop s).take c.length).reverse.zip c =
      (List.range c.length).map fun k => (w.getD (c.length + s - 1 - k) czero, c.getD k zeroF) := by
  have hlen : ((w.drop s).take c.length).length = c.length := by simp; omega
  refine List.ext_getElem (by simp; omega) fun k _ hk => ?_
  have hk : k < c.length := by simpa using hk
  have hindex : s + (c.length - 1 - k) = c.length + s - 1 - k := by omega
  have hw : c.length + s - 1 - k < w.length := by omega
  simp only [List.getElem_zip, List.getElem_reverse, List.getElem_take, List.getElem_drop, List.getElem_map,
    List.getElem_range, hlen, hindex, List.getD_eq_getElem _ _ hw, List.getD_eq_getElem _ _ hk]

/-! ### A chunk -/

theorem fir_getElem? (c : List Word) (h : List Sample) {xs : List Sample} {s : ℕ} (hs : s < xs.length) :
    (fir c h xs).1[s]? = some (tapSum c (h ++ xs) s) := by
  simp [fir, hs]

theorem fir_history (c : List Word) (h xs : List Sample) : (fir c h xs).2 = (h ++ xs).drop xs.length := rfl

theorem fir_nil (c : List Word) (h : List Sample) : fir c h [] = ([], h) := by simp [fir]

/-- A chunk shorter than the history pushes out its oldest samples (R169). -/
theorem fir_history_of_lt (c : List Word) {h xs : List Sample} (hlt : xs.length < h.length) :
    (fir c h xs).2 = h.drop xs.length ++ xs := by
  rw [fir_history, List.drop_append_of_le_length hlt.le]

/-- A chunk as long as the history replaces it (R169). -/
theorem fir_history_of_le (c : List Word) {h xs : List Sample} (hle : h.length ≤ xs.length) :
    (fir c h xs).2 = xs.drop (xs.length - h.length) := by
  rw [fir_history, List.drop_append, List.drop_eq_nil_of_le hle, List.nil_append]

/-! ### Chunk after chunk -/

/-- The working buffer of the second chunk is the end of that of both (R169). -/
theorem fir_history_append_eq_drop (c : List Word) (h xs xs' : List Sample) :
    (fir c h xs).2 ++ xs' = (h ++ (xs ++ xs')).drop xs.length := by
  rw [fir_history, ← List.append_assoc, List.drop_append_of_le_length (l₁ := h ++ xs) (by simp)]

/-- The outputs of two chunks at once: those of the first do not read the second, and those of the second read the same
samples through the history (R172). -/
theorem fir_append_output {c : List Word} {h : List Sample} (xs xs' : List Sample) (hlen : h.length + 1 = c.length) :
    (fir c h (xs ++ xs')).1 = (fir c h xs).1 ++ (fir c (fir c h xs).2 xs').1 := by
  have hfirst : ∀ s ∈ List.range xs.length, tapSum c (h ++ (xs ++ xs')) s = tapSum c (h ++ xs) s := by
    intro s hs
    have hs : s < xs.length := List.mem_range.mp hs
    rw [← List.append_assoc, tapSum_append xs' (by simp; omega)]
  have hsecond : ∀ s, tapSum c ((fir c h xs).2 ++ xs') s = tapSum c (h ++ (xs ++ xs')) (xs.length + s) := by
    intro s
    rw [fir_history_append_eq_drop, tapSum_drop]
  calc (fir c h (xs ++ xs')).1
      = (List.range xs.length).map (tapSum c (h ++ (xs ++ xs'))) ++
          (List.range xs'.length).map (fun s => tapSum c (h ++ (xs ++ xs')) (xs.length + s)) := by
        simp [fir, List.range_add, Function.comp_def]
    _ = (fir c h xs).1 ++ (fir c (fir c h xs).2 xs').1 := by
        rw [List.map_congr_left hfirst, ← funext hsecond]
        rfl

/-- The history after two chunks at once (R172). -/
theorem fir_append_history (c : List Word) (h xs xs' : List Sample) :
    (fir c h (xs ++ xs')).2 = (fir c (fir c h xs).2 xs').2 := by
  rw [fir_history c (fir c h xs).2, fir_history_append_eq_drop, List.drop_drop, fir_history, List.length_append]

/-- Filtering chunk after chunk is filtering the joined stream (R172, R173). -/
theorem firChunks_eq_fir_flatten {c : List Word} {h : List Sample} (chunks : List (List Sample))
    (hlen : h.length + 1 = c.length) : firChunks c h chunks = fir c h chunks.flatten := by
  induction chunks generalizing h with
  | nil => exact (fir_nil c h).symm
  | cons xs chunks ih =>
    have hlen' : (fir c h xs).2.length + 1 = c.length := by rw [fir_history_length, hlen]
    rw [firChunks, ih hlen', List.flatten_cons]
    exact Prod.ext (fir_append_output _ _ hlen).symm (fir_append_history _ _ _ _).symm

/-- After the zero history the buffer is the stream, zero before its start (R173). -/
theorem getD_zeros_append {m n k : ℕ} (x : List Sample) (hk : k ≤ m) :
    (List.replicate m czero ++ x).getD (m + n - k) czero = streamAt x n k := by
  unfold streamAt
  split
  case isTrue hle =>
    have hindex : m + n - k - m = n - k := by omega
    rw [List.getD_append_right _ _ _ _ (by simp; omega), List.length_replicate, hindex]
  case isFalse hlt =>
    rw [List.getD_append _ _ _ _ (by simp; omega)]
    simp

/-! ### Zero input -/

theorem zeroF_isZero : isZero zeroF = true := by decide

/-- A sum of zeros that starts from `+0` stays `+0` (R16). -/
theorem addF_zeroF_of_isZero {a : Word} (ha : isZero a = true) : addF zeroF a = zeroF := by
  rw [addF_of_isFinite (isFinite_of_isZero zeroF_isZero) (isFinite_of_isZero ha), signedUnits_of_isZero zeroF_isZero,
    signedUnits_of_isZero ha, if_pos (add_zero 0)]
  rfl

/-- A zero sample under a finite tap adds nothing (R174). -/
theorem cadd_czero_scale_czero {c : Word} (hc : isFinite c = true) : cadd czero (scale czero c) = czero := by
  simp [cadd, scale, czero, addF_zeroF_of_isZero (mulF_isZero zeroF_isZero hc).1]

/-- An output whose taps, all finite, read zeros only is zero (R174). -/
theorem tapSum_eq_czero {c : List Word} {w : List Sample} {s : ℕ} (hc : ∀ v ∈ c, isFinite v = true)
    (hw : ∀ k < c.length, w.getD (c.length + s - 1 - k) czero = czero) : tapSum c w s = czero := by
  have hfinite : ∀ k, isFinite (c.getD k zeroF) = true := by
    intro k
    rcases lt_or_ge k c.length with hk | hk
    · rw [List.getD_eq_getElem _ _ hk]
      exact hc _ (List.getElem_mem hk)
    · rw [List.getD_eq_default _ _ hk]
      exact isFinite_of_isZero zeroF_isZero
  rw [tapSum_eq_foldl hw]
  exact List.foldl_fixed' (fun k => cadd_czero_scale_czero (hfinite k)) _

end Sys2Proof.Machine
end

section
/-! The statements of 44_fir_filter.md about the filter as a function, settled: the convolution (R167, R168), the history
(R169), chunks (R172, R173) and zero input (R174). -/

namespace Sys2Proof.Proofs

open Sys2Proof.Machine

/-- Settles O43: the buffer of the second chunk is the end of the buffer of both. -/
theorem chunkingInvariance : Obligations.ChunkingInvariance :=
  fun c h xs xs' hlen => ⟨fir_append_output xs xs' hlen, fir_append_history c h xs xs'⟩

/-- Settles O45: by chunking invariance the chunks are filtered as the one stream, after the zero history. -/
theorem streamLaw : Obligations.StreamLaw := by
  intro c chunks hc
  rw [firChunks_eq_fir_flatten chunks (by simp; omega)]
  refine ⟨fir_output_length _ _ _, fun n hn => ?output, by rw [fir_history]⟩
  case output =>
    rw [fir_getElem? _ _ hn]
    refine congrArg some (tapSum_eq_foldl fun k hk => ?_)
    have hindex : c.length + n - 1 - k = c.length - 1 + n - k := by omega
    rw [hindex, getD_zeros_append _ (by omega)]

/-- Settles O46: from output `N − 1` on the taps read zeros only, and so many zeros replace the history. -/
theorem zeroInputDrainsTheFilter : Obligations.ZeroInputDrainsTheFilter := by
  refine fun c h l hlen => ⟨fun hc s hs hsl => ?output, fun hl => ?history⟩
  case output =>
    rw [fir_getElem? _ _ (by simpa using hsl), tapSum_eq_czero hc fun k hk => ?_]
    rw [List.getD_append_right _ _ _ _ (by omega)]
    simp
  case history =>
    rw [fir_history_of_le c (by simpa using hl), List.length_replicate, List.drop_replicate, Nat.sub_sub_self hl]

/-- Settles O41: the terms of the sum are the window, newest sample first, beside the taps. -/
theorem firSumsTheReversedWindow : Obligations.FirSumsTheReversedWindow := by
  refine ⟨fun _ _ => rfl, fun _ _ => rfl, fun c h xs hlen => ⟨fir_output_length c h xs, fun s hs => ?output⟩⟩
  case output =>
    rw [fir_getElem? c h hs, zip_reverse_window (by simp; omega), List.foldl_map]
    rfl

/-- Settles O42: the history is the end of the working buffer, in its three cases. -/
theorem firKeepsTheLastSamples : Obligations.FirKeepsTheLastSamples := by
  refine fun c h xs _ => ⟨fir_history_length c h xs, fun hnil => ?empty, fir_history_of_lt c, fir_history_of_le c⟩
  case empty => rw [hnil, fir_nil]

end Sys2Proof.Proofs
end

section
/-! The operation `FILTER` on the block (spec 44_fir_filter.md R171, R172): what it leaves when it completes, delivered words
as values, and the statements about it, settled. -/

namespace Sys2Proof.Proofs

open Sys2Proof.Machine

theorem exec_filter (l : Imm) (ps : List Word) (s : State) : exec (.filter l ps) s = execFilter l ps s := rfl

/-- With the payload of its length, `FILTER` comes down to its phase check (R171). -/
theorem exec_filter_of_length {l : Imm} {ps : List Word} (s : State) (hps : ps.length = 2 * l.toNat) :
    exec (.filter l ps) s =
      requirePhase .run s
        (if lMax < l.toNat then .next (raise .chunkRange s)
         else
          withSession s fun c h =>
            .next (respond (deliverWords s.freeCtr (wordsOf (fir c h (samplesOf ps)).1))
              { s with
                hist := some (fir c h (samplesOf ps)).2
                freeCtr := s.freeCtr + 2 * l.toNat })) := by
  rw [exec_filter, execFilter, if_pos hps]

/-- Settles O40, case by case of the phase and the range check. -/
theorem filterFiltersTheChunk : Obligations.FilterFiltersTheChunk := by
  intro l ps s hps
  rw [exec_filter_of_length s hps]
  refine ⟨fun hphase => ?otherPhase, fun hrun hlt => ?range, fun c h hrun hle hc hl hh hn => ?chunk, rfl,
    fun w hopc ha => raisesIllegalOp_of_aField_ne (by simp [hopc]) ha⟩
  case otherPhase => rw [requirePhase_other _ hphase]
  case range => rw [requirePhase_same _ hrun, if_pos hlt]
  case chunk =>
    rw [requirePhase_same _ hrun, if_neg (Nat.not_lt.mpr hle), withSession_some _ hc hl hh (hn.trans hl.symm)]

/-- A `FILTER` that leaves the block in `RUN` has filtered its chunk: the history and the result words it leaves, and the
taps it keeps (R171). -/
theorem exec_filter_completes {l : Imm} {ps : List Word} {s t : State} (h : exec (.filter l ps) s = .next t)
    (hrun : t.phase = .run) :
    ps.length = 2 * l.toNat ∧
      ∃ c hs, s.coef = some c ∧ s.hist = some hs ∧ hs.length + 1 = c.length ∧ t.coef = some c ∧
        t.hist = some (fir c hs (samplesOf ps)).2 ∧
        ∃ k, t.rdata = s.rdata ++ deliverWords k (wordsOf (fir c hs (samplesOf ps)).1) := by
  rw [exec_filter] at h
  obtain ⟨hps, ⟨-, -, c, hs, hc, -, hh, hn, rfl⟩ | ⟨-, -, rfl⟩ | ⟨-, rfl⟩⟩ := execFilter_next h
  case inl => exact ⟨hps, c, hs, hc, hh, hn, hc, rfl, s.freeCtr, rfl⟩
  case inr.inl => cases hrun
  case inr.inr => cases hrun

/-- A whole number of samples in front of other words. -/
theorem samplesOf_append {ws : List Word} {l : ℕ} (ws' : List Word) (hws : ws.length = 2 * l) :
    samplesOf (ws ++ ws') = samplesOf ws ++ samplesOf ws' := by
  induction ws using samplesOf.induct generalizing l with
  | case1 re im ws ih =>
    have hlen : ws.length = 2 * (l - 1) := by simp at hws; omega
    simp only [List.cons_append, samplesOf, ih hlen]
  | case2 ws hshort =>
    match ws, hws, hshort with
    | [], _, _ => rfl
    | [_], hws, _ => simp at hws; omega
    | re :: im :: ws, _, hshort => exact absurd rfl (hshort re im ws)

theorem deliverWords_append (k : ℕ) (ws ws' : List Word) :
    deliverWords k (ws ++ ws') = deliverWords k ws ++ deliverWords (k + ws.length) ws' := by
  induction ws generalizing k with
  | nil => rfl
  | cons w ws ih =>
    rw [List.cons_append, deliverWords, ih, deliverWords, List.length_cons, Nat.add_right_comm, Nat.add_assoc,
      List.cons_append]

/-- The free values do not change what value a word is (R15). -/
theorem sameValue_deliver (j k : ℕ) (w : Word) : sameValue (deliver j w) (deliver k w) := by
  unfold deliver
  split
  · exact .inr ⟨freeNaN_isNaN j, freeNaN_isNaN k⟩
  · exact .inl rfl

theorem forall₂_sameValue_deliverWords (j k : ℕ) (ws : List Word) :
    List.Forall₂ sameValue (deliverWords j ws) (deliverWords k ws) := by
  induction ws generalizing j k with
  | nil => exact .nil
  | cons w ws ih => exact .cons (sameValue_deliver j k w) (ih _ _)

/-- Settles O44: both ways filter with the same taps from the same history, so chunking invariance gives the words before
delivery, and delivery keeps values. -/
theorem filterMayBeSplitAnywhere : Obligations.FilterMayBeSplitAnywhere := by
  intro s t u r l l' m ps ps' hfirst hsecond hboth _ _ ht hu hr
  obtain ⟨hps, c, hs, hc, hh, hn, htc, hth, k, htr⟩ := exec_filter_completes hfirst ht
  obtain ⟨-, c', hs', hc', hh', -, -, huh, k', hur⟩ := exec_filter_completes hsecond hu
  obtain ⟨-, c'', hs'', hc'', hh'', -, -, hrh, k'', hrr⟩ := exec_filter_completes hboth hr
  obtain rfl : c = c' := by simpa [htc] using hc'
  obtain rfl : c = c'' := by simpa [hc] using hc''
  obtain rfl : (fir c hs (samplesOf ps)).2 = hs' := by simpa [hth] using hh'
  obtain rfl : hs = hs'' := by simpa [hh] using hh''
  rw [samplesOf_append ps' hps] at hrh hrr
  refine ⟨by rw [hrh, huh, fir_append_history], ?values⟩
  case values =>
    rw [hrr, hur, htr, fir_append_output _ _ hn, wordsOf_append, deliverWords_append, List.append_assoc]
    refine List.rel_append (List.forall₂_same.mpr fun _ _ => .inl rfl) (List.rel_append ?_ ?_)
    · exact forall₂_sameValue_deliverWords _ _ _
    · exact forall₂_sameValue_deliverWords _ _ _

end Sys2Proof.Proofs
end

section
/-! The operations on the configuration, and `RDSTAT` (spec 45_pipeline_control.md R186 to R189): what each answers, and the
statements about them, settled. -/

namespace Sys2Proof.Proofs

open Sys2Proof.Machine

/-! ### Illegal words of one opcode -/

/-- A command word whose fields `A` and `IMM` its opcode rejects raises `ILLEGAL_OP` (R95, R211). -/
theorem raisesIllegalOp_of_opcode {w : Cmd} {opc : BitVec 4} (hopc : opcField w = opc)
    (h : Rejects (decodeCmd (cmdWord opc (aField w) (immField w)))) : RaisesIllegalOp w := by
  rw [← hopc, cmdWord_fields] at h
  exact raisesIllegalOp_of_rejects h

/-- An operation without an operand has one command word; any other word of its opcode is illegal (R94, R95). -/
theorem raisesIllegalOp_of_ne {w : Cmd} {opc : BitVec 4} (hopc : opcField w = opc) (hmem : opc ∈ [3#4, 4#4, 12#4])
    (hne : w ≠ cmdWord opc 0#4 0#24) : RaisesIllegalOp w := by
  refine raisesIllegalOp_of_opcode hopc ((rejects_no_operand hmem).mpr (not_and_or.mp ?_))
  rintro ⟨ha, himm⟩
  exact hne (by rw [← cmdWord_fields w, hopc, ha, himm])

/-! ### The writes -/

section
variable {s : State}

/-- An operation of one phase that completes without a result word (R14, R185). -/
theorem requirePhase_respond_nil {p : Phase} (u : State) (hp : s.phase = p) :
    requirePhase p s (.next (respond [] u)) = .next { u with rsp := u.rsp ++ [0#32] } := by
  rw [requirePhase_same _ hp, respond_nil]

/-- A NaN is no value of β: nothing is stored (R187, R213). -/
theorem exec_wrcfgBeta_of_isNaN {x : Word} (hp : s.phase = .config) (hx : isNaN x = true) :
    exec (.wrcfgBeta x) s = .next (raise .badConfig s) :=
  (requirePhase_same _ hp).trans (if_pos hx)

/-- Any other word is stored clamped (R187). -/
theorem exec_wrcfgBeta_of_number {x : Word} (hp : s.phase = .config) (hx : isNaN x = false) :
    exec (.wrcfgBeta x) s = .next { s with cfgBeta := clamp01 x, rsp := s.rsp ++ [0#32] } :=
  (requirePhase_same _ hp).trans ((if_neg (by simp [hx])).trans (congrArg _ (respond_nil _)))

/-- The clamp with the words of its two bounds written out. -/
theorem clamp01_eq (x : Word) :
    clamp01 x =
      if ltF x 0#64 = true then 0#64
      else if ltF 0x3FF0000000000000#64 x = true then 0x3FF0000000000000#64
      else x := by
  rw [clamp01, oneF_eq, zeroF]

/-! ### The reads -/

/-- In `CONFIG` and `RUN` the register is answered, and no state is written (R188). -/
theorem exec_rdcfg_of_phase_ne (r : CfgReg) (hp : s.phase ≠ .faulted) :
    exec (.rdcfg r) s = .next { s with rsp := s.rsp ++ [0x100#32], rdata := s.rdata ++ [readCfg s r] } :=
  (if_neg hp).trans (congrArg _ (respond_one _ _))

theorem exec_rdcfg_of_faulted (r : CfgReg) (hp : s.phase = .faulted) :
    exec (.rdcfg r) s = .next (raise .badPhase s) := if_pos hp

end

theorem exec_rdstat (s : State) :
    exec .rdstat s =
      .next { s with rsp := s.rsp ++ [0x100#32], rdata := s.rdata ++ [(statusWord s).setWidth 64] } :=
  congrArg _ (respond_one _ _)

/-- Zero-extension keeps the number (R188, R189). -/
theorem statusWord_setWidth_toNat (s : State) : ((statusWord s).setWidth 64).toNat = (statusWord s).toNat :=
  BitVec.toNat_setWidth_of_le (by omega)

/-! ### The statements -/

/-- Settles O20, case by case of the phase; the words rejected are those of `rejects_wrcfg`. -/
theorem wrcfgStoresAnyInteger : Obligations.WrcfgStoresAnyInteger := by
  refine fun v s => ⟨fun hconfig => ?config, fun hphase => ?otherPhase, rfl, rfl, rfl, fun w hopc ha => ?illegal⟩
  case config =>
    exact ⟨requirePhase_respond_nil _ hconfig, requirePhase_respond_nil _ hconfig, requirePhase_respond_nil _ hconfig⟩
  case otherPhase =>
    exact ⟨requirePhase_other _ hphase, requirePhase_other _ hphase, requirePhase_other _ hphase⟩
  case illegal => exact raisesIllegalOp_of_opcode hopc (rejects_wrcfg.mpr (.inl ha))

/-- Settles O21, case by case of the phase and of the word; the clamp is evaluated at the corner cases. -/
theorem wrcfgBetaStoresTheClamp : Obligations.WrcfgBetaStoresTheClamp := by
  refine fun x s => ⟨fun hconfig => ⟨exec_wrcfgBeta_of_isNaN hconfig, fun hx => ?number⟩,
    fun hphase => requirePhase_other _ hphase, rfl, fun w hopc ha himm => ?illegal, ?negativeZero, ?above, ?below⟩
  case number => rw [exec_wrcfgBeta_of_number hconfig hx, clamp01_eq]
  case illegal => exact raisesIllegalOp_of_opcode hopc (rejects_wrcfg.mpr (.inr ⟨ha, himm⟩))
  case negativeZero | above | below => rw [clamp01_eq]; decide

/-- Settles O22, register by register; the words rejected are those of `rejects_rdcfg`. -/
theorem rdcfgReadsTheRegister : Obligations.RdcfgReadsTheRegister := by
  refine fun s => ⟨fun hphase => ?read, fun hfaulted r => exec_rdcfg_of_faulted r hfaulted, rfl, rfl, rfl, rfl,
    fun w hopc hfields => ?illegal⟩
  case read =>
    exact ⟨exec_rdcfg_of_phase_ne .n hphase, exec_rdcfg_of_phase_ne .ts hphase, exec_rdcfg_of_phase_ne .rbs hphase,
      exec_rdcfg_of_phase_ne .beta hphase⟩
  case illegal => exact raisesIllegalOp_of_opcode hopc (rejects_rdcfg.mpr hfields)

/-- Settles O23: the word is `STATUS`, field by field. -/
theorem rdstatReportsTheStatus : Obligations.RdstatReportsTheStatus := by
  refine fun s => ⟨⟨_, exec_rdstat s, ?status⟩, rfl⟩
  rw [statusWord_setWidth_toNat, statusWord_toNat]
  refine congrArg₂ (· + ·) (congrArg (s.outq.length % 2 ^ 24 * 256 + · * 16) ?fcode) ?phase
  case fcode =>
    cases s.fcode with
    | none => rfl
    | some f => cases f <;> rfl
  case phase => cases s.phase <;> rfl

end Sys2Proof.Proofs
end

section
/-! The phase table (spec 45_pipeline_control.md R185; 60_exceptions.md R212, R220): the check comes first, and past it no
operation answers `BAD_PHASE`. -/

namespace Sys2Proof.Proofs

open Sys2Proof.Machine

/-- Where the table of R185 says no, the phase check fails, and it is the first check. -/
theorem exec_of_legalIn_eq_false {i : Instr} {s : State} (hi : i.wellFormed = true)
    (hp : legalIn i s.phase = false) : exec i s = .next (raise .badPhase s) := by
  cases i with
  | rdcfg => exact if_pos (by simpa [legalIn] using hp)
  | rdstat => cases hp
  | filter => exact (exec_filter_of_length s (wellFormed_iff.mp hi)).trans (requirePhase_other _ (ne_of_beq_false hp))
  | _ => exact requirePhase_other _ (ne_of_beq_false hp)

/-- The outcome, of an operation run in `s`, does not answer `BAD_PHASE` (whose code is 2, R212). -/
def SparesBadPhase (s : State) (o : Host.Outcome State Fault Refusal) : Prop :=
  ∀ t, o = .next t → t.rsp ≠ s.rsp ++ [2#32]

section
variable {s : State} {o o' : Host.Outcome State Fault Refusal}

theorem sparesBadPhase_raise {f : FaultCode} (hf : f ≠ .badPhase) : SparesBadPhase s (.next (raise f s)) := by
  rintro _ ⟨⟩ h
  have hword : rspWord 0#24 (faultBits f) = 2#32 := by simpa using h
  cases f with
  | badPhase => exact hf rfl
  | _ => revert hword; decide

theorem sparesBadPhase_respond {ws : List Word} {u : State} (hu : u.rsp = s.rsp) :
    SparesBadPhase s (.next (respond ws u)) := by
  rintro _ ⟨⟩ h
  have hword : rspWord (nwField u.freeCtr ws.length) 0#4 = 2#32 := by simpa [hu] using h
  have hcode := rspWord_code (nwField u.freeCtr ws.length) 0#4
  rw [hword] at hcode
  exact absurd hcode (by decide)

theorem SparesBadPhase.ite {c : Prop} [Decidable c] (h : SparesBadPhase s o) (h' : SparesBadPhase s o') :
    SparesBadPhase s (if c then o else o') := by
  split
  · exact h
  · exact h'

theorem SparesBadPhase.requirePhase {p : Phase} (hp : (s.phase == p) = true) (h : SparesBadPhase s o) :
    SparesBadPhase s (requirePhase p s o) := by
  rwa [requirePhase_same _ (eq_of_beq hp)]

theorem sparesBadPhase_withTap {p : Imm} {k : List Word → Host.Outcome State Fault Refusal}
    (hk : ∀ c, SparesBadPhase s (k c)) : SparesBadPhase s (withTap p s k) := by
  refine .ite (fun t ht => ?_) (sparesBadPhase_raise nofun)
  obtain ⟨c, -, -, hc⟩ := withCoef_next ht
  exact hk c t hc

theorem sparesBadPhase_withSession {k : List Word → List Sample → Host.Outcome State Fault Refusal}
    (hk : ∀ c h, SparesBadPhase s (k c h)) : SparesBadPhase s (withSession s k) := by
  intro t ht
  obtain ⟨c, h, -, -, -, -, hnext⟩ := withSession_next ht
  exact hk c h t hnext

theorem sparesBadPhase_modBits {nb : ℕ} {v : Byte} (hp : (s.phase == .run) = true) :
    SparesBadPhase s (modBits nb v s) :=
  .requirePhase hp (.ite (sparesBadPhase_raise nofun) (sparesBadPhase_respond rfl))

theorem sparesBadPhase_execInit (hp : (s.phase == .config) = true) : SparesBadPhase s (execInit s) := by
  have hconfig := sparesBadPhase_raise (s := s) (f := .badConfig) nofun
  refine .requirePhase hp (.ite hconfig (.ite hconfig (.ite hconfig ?_)))
  split
  · exact sparesBadPhase_raise nofun
  · exact sparesBadPhase_respond rfl

end

/-- Staging writes the sink and the queue only. -/
theorem exists_stage_eq (q : List Sample) (s : State) :
    ∃ sent left, stage q s = { s with sink := sent, outq := left } := by
  obtain ⟨-, h⟩ | ⟨-, h⟩ := stage_cases q s
  · exact ⟨_, _, h⟩
  · exact ⟨_, _, h⟩

theorem stage_rsp (q : List Sample) (s : State) : (stage q s).rsp = s.rsp := by
  obtain ⟨_, _, h⟩ := exists_stage_eq q s
  rw [h]

/-- Where the table of R185 says yes, an operation answers without `BAD_PHASE`, or stops. -/
theorem sparesBadPhase_exec {i : Instr} {s : State} (hp : legalIn i s.phase = true) : SparesBadPhase s (exec i s) := by
  cases i with
  | wrcfgN | wrcfgTs | wrcfgRbs | map | unpack | flush => exact .requirePhase hp (sparesBadPhase_respond rfl)
  | wrcfgBeta => exact .requirePhase hp (.ite (sparesBadPhase_raise nofun) (sparesBadPhase_respond rfl))
  | rdcfg r =>
    have hne : s.phase ≠ .faulted := by simpa [legalIn] using hp
    have hread : exec (.rdcfg r) s = .next (respond [readCfg s r] s) := if_neg hne
    rw [hread]
    exact sparesBadPhase_respond rfl
  | rdstat => exact sparesBadPhase_respond rfl
  | init => exact sparesBadPhase_execInit hp
  | mod | modNb8 => exact sparesBadPhase_modBits hp
  | rdcoef | wrcoef =>
    exact .requirePhase hp (sparesBadPhase_withTap fun _ => sparesBadPhase_respond rfl)
  | filter l ps =>
    exact .ite (.requirePhase hp (.ite (sparesBadPhase_raise nofun)
      (sparesBadPhase_withSession fun _ _ => sparesBadPhase_respond rfl))) nofun
  | pushb v =>
    exact .requirePhase hp (sparesBadPhase_withSession fun _ _ => sparesBadPhase_respond (stage_rsp _ _))

/-- Settles O17: each operation checks its phase first, and no answer past that check has the code of `BAD_PHASE`. -/
theorem phaseTableDecidesBadPhase : Obligations.PhaseTableDecidesBadPhase :=
  fun _ _ hi => ⟨exec_of_legalIn_eq_false hi, fun hp => sparesBadPhase_exec hp⟩

end Sys2Proof.Proofs
end

section
/-! The operations of a session, `INIT`, `PUSHB` and `FLUSH` (spec 45_pipeline_control.md R190 to R192): what each answers, and
the statements about them, settled. -/

namespace Sys2Proof.Proofs

open Sys2Proof.Machine

/-! ### `INIT` -/

/-- The three checks of `INIT` pass together exactly for a legal configuration (R190). -/
theorem legalConfig_iff {s : State} :
    LegalConfig s ↔ legalN s.cfgN = true ∧ legalTs s.cfgTs = true ∧ legalRbs s.cfgRbs = true := by
  simp [LegalConfig, legalN, legalTs, legalRbs, and_assoc]

section
variable {s : State} (hp : s.phase = .config)
include hp

theorem exec_init_of_not_legal (h : ¬ LegalConfig s) : exec .init s = .next (raise .badConfig s) := by
  refine (requirePhase_same _ hp).trans ?_
  cases hn : legalN s.cfgN
  · exact if_pos rfl
  · cases hts : legalTs s.cfgTs
    · exact (if_neg nofun).trans (if_pos rfl)
    · cases hrbs : legalRbs s.cfgRbs
      · exact (if_neg nofun).trans ((if_neg nofun).trans (if_pos rfl))
      · exact absurd (legalConfig_iff.mpr ⟨hn, hts, hrbs⟩) h

/-- With a legal configuration it is the generator that decides (R190). -/
theorem exec_init_of_legal (h : LegalConfig s) :
    (rrc hwTrig s.cfgBeta s.cfgN.toNat s.cfgTs.toNat = none → exec .init s = .next (raise .divZero s)) ∧
      ∀ taps, rrc hwTrig s.cfgBeta s.cfgN.toNat s.cfgTs.toNat = some taps →
        exec .init s = .next (respond [] (openSession taps s)) := by
  obtain ⟨hn, hts, hrbs⟩ := legalConfig_iff.mp h
  have hinit : exec .init s = execInit s := rfl
  rw [hinit, execInit, requirePhase_same _ hp, hn, hts, hrbs]
  refine ⟨fun hnone => ?_, fun taps hsome => ?_⟩
  · simp [hnone]
  · simp [hsome]

end

/-- Settles O24: the checks pass for a legal configuration only, and then the generator decides. -/
theorem initOpensASession : Obligations.InitOpensASession := by
  refine fun s => ⟨fun hphase => requirePhase_other _ hphase, fun hconfig => ⟨fun hn => ?illegalN, fun hts => ?illegalTs,
    fun hrbs => ?illegalRbs, fun hlegal => ⟨(exec_init_of_legal hconfig hlegal).1, fun taps htaps => ?opens⟩⟩, rfl,
    fun w hopc hne => raisesIllegalOp_of_ne hopc (by decide) hne⟩
  case illegalN | illegalTs | illegalRbs => exact exec_init_of_not_legal hconfig (by unfold LegalConfig; omega)
  case opens => rw [(exec_init_of_legal hconfig hlegal).2 taps htaps, respond_nil]; rfl

/-! ### `PUSHB` -/

/-- The state in which `PUSHB v` stages its samples: the history is the new one, and each sample has used the two free values
of its words. -/
def filtered (c : List Word) (h : List Sample) (v : Byte) (s : State) : State :=
  { s with
    hist := some (fir c h (byteChips v s)).2
    freeCtr := s.freeCtr + 2 * (byteChips v s).length }

/-- In `RUN`, with the memories of their lengths, the byte goes through the pipeline and its samples are staged (R191). -/
theorem exec_pushb_of_memories {s : State} {c : List Word} {h : List Sample} (v : Byte) (hp : s.phase = .run)
    (hc : s.coef = some c) (hl : c.length = s.cfgN.toNat) (hh : s.hist = some h) (hn : h.length + 1 = c.length) :
    exec (.pushb v) s =
      .next (respond [] (stage (s.outq ++ deliverSamples s.freeCtr (fir c h (byteChips v s)).1) (filtered c h v s))) :=
  (requirePhase_same _ hp).trans (withSession_some _ hc hl hh hn)

theorem encode_pushb (v : Byte) : encode (.pushb v) = (0xB00000#24 ++ v, []) :=
  congrArg (·, []) (BitVec.append_assoc (x₁ := 11#4 ++ 0#4) (x₂ := 0#16) (x₃ := v)).symm

/-- Settles O25: the samples are `byteChips`, of which there are `4·Ts`, and staging sends the queue or keeps it. -/
theorem pushbRunsThePipeline : Obligations.PushbRunsThePipeline := by
  refine fun v s => ⟨fun hphase => requirePhase_other _ hphase, ?run, encode_pushb v,
    fun w hopc hfields => raisesIllegalOp_of_opcode hopc ((rejects_byte (by decide)).mpr hfields)⟩
  intro c h chips q hrun hc hl hh hn hchips hq
  obtain rfl : chips = byteChips v s := hchips
  have hexec := exec_pushb_of_memories v hrun hc hl hh (hn.trans hl.symm)
  rw [← hq] at hexec
  refine ⟨fun hlt => ?bound, fun hle => ?sends, fun hlt => ?keeps⟩
  case bound =>
    have hlen : q.length = s.outq.length + 4 * s.cfgTs.toNat := by simp [hq]
    omega
  case sends => rw [hexec, stage_of_le (s := filtered c h v s) hle, respond_nil]; rfl
  case keeps => rw [hexec, stage_of_lt (s := filtered c h v s) hlt, respond_nil]; rfl

/-! ### `FLUSH` -/

/-- In `RUN` the queue is sent and the session ends (R192). -/
theorem exec_flush_of_run {s : State} (hp : s.phase = .run) :
    exec .flush s =
      .next
        { s with
          sink := s.sink ++ markLast (wordsOf s.outq)
          outq := []
          coef := none
          hist := none
          phase := .config
          rsp := s.rsp ++ [0#32] } :=
  requirePhase_respond_nil _ hp

/-- Settles O26: the burst is the queue as words, and an empty queue has none. -/
theorem flushEndsTheSession : Obligations.FlushEndsTheSession :=
  fun _ => ⟨fun hphase => requirePhase_other _ hphase, exec_flush_of_run, rfl, rfl,
    fun _ hopc hne => raisesIllegalOp_of_ne hopc (by decide) hne⟩

end Sys2Proof.Proofs
end

section
/-! The output law of a session (spec 45_pipeline_control.md R193, R194): the filter reads its taps as values, and what a
session has sent and staged together is the stream so far, filtered. -/

namespace Sys2Proof.Proofs

open Sys2Proof.Machine

/-! ### Taps as values -/

theorem scale_congr {a b : Word} (z : Sample) (h : sameValue a b) : scale z a = scale z b := by
  rw [scale, scale, eq_of_sameValue mulF_of_isNaN (.inl rfl) h, eq_of_sameValue mulF_of_isNaN (.inl rfl) h]

/-- Which words NaN taps are stored in does not matter to the filter (R15). -/
theorem fir_congr_taps {c c' : List Word} (h xs : List Sample) (hc : List.Forall₂ sameValue c c') :
    fir c h xs = fir c' h xs := by
  have hlen : c.length = c'.length := hc.length_eq
  have hsum : tapSum c (h ++ xs) = tapSum c' (h ++ xs) := by
    funext n
    rw [tapSum, tapSum, hlen]
    refine List.foldl_ext _ _ _ fun acc k hk => ?_
    have hk' : k < c'.length := List.mem_range.mp hk
    have htap : sameValue (c.getD k zeroF) (c'.getD k zeroF) := by
      rw [List.getD_eq_getElem _ _ (hlen ▸ hk'), List.getD_eq_getElem _ _ hk']
      exact hc.get (hlen ▸ hk') hk'
    rw [scale_congr _ htap]
  rw [fir, fir, hsum]

/-- The words a delivery changes keep their values. -/
theorem forall₂_deliverWords_self (k : ℕ) (ws : List Word) : List.Forall₂ sameValue (deliverWords k ws) ws := by
  induction ws generalizing k with
  | nil => exact .nil
  | cons w ws ih => exact .cons (deliver_sameValue k w) (ih (k + 1))

/-! ### Runs -/

theorem runAll_cons_of_next {i : Instr} {is : List Instr} {s t : State} (h : exec i s = .next t) :
    runAll (i :: is) s = runAll is t := by
  simp only [runAll, h]

theorem runAll_append_of_next {is js : List Instr} {s t : State} (h : runAll is s = .next t) :
    runAll (is ++ js) s = runAll js t := by
  induction is generalizing s with
  | nil => cases h; rfl
  | cons i is ih =>
    cases hexec : exec i s with
    | next u =>
      rw [runAll_cons_of_next hexec] at h
      rw [List.cons_append, runAll_cons_of_next hexec, ih h]
    | fault r => simp [runAll, hexec] at h
    | refused r => simp [runAll, hexec] at h

/-! ### A session in `RUN` -/

/-- The samples of one byte of the stream, with `ts` samples for a symbol (R191). -/
def byteSamples (ts : ℕ) (v : Byte) : List Sample := modulate constellation (unpackBits v) ts

/-- The eight bits of a byte are four symbols (R156). -/
theorem byteSamples_length (ts : ℕ) (v : Byte) : (byteSamples ts v).length = 4 * ts := by
  have hbits : (unpackBits v).length = 8 := rfl
  rw [byteSamples, modulate_length, hbits]

theorem flatMap_byteSamples_length (ts : ℕ) (vs : List Byte) :
    (vs.flatMap (byteSamples ts)).length = 4 * ts * vs.length := by
  induction vs with
  | nil => rfl
  | cons v vs ih =>
    rw [List.flatMap_cons, List.length_append, ih, byteSamples_length, List.length_cons]
    ring

/-- `s` is in a session without a fault, with the taps `c`, the history `h` and `ts` samples for a symbol. -/
structure InSession (c : List Word) (h : List Sample) (ts : ℕ) (s : State) : Prop where
  phase : s.phase = .run
  fcode : s.fcode = none
  coef : s.coef = some c
  coef_length : c.length = s.cfgN.toNat
  hist : s.hist = some h
  hist_length : h.length + 1 = c.length
  samples : s.cfgTs.toNat = ts

/-- The words the sink was sent, and after them those of the queue. -/
def sentAndStaged (s : State) : List Word := sinkWords s ++ wordsOf s.outq

theorem sentAndStaged_respond (ws : List Word) (s : State) : sentAndStaged (respond ws s) = sentAndStaged s := rfl

/-- Whether staging sends the queue or keeps it, its words are sent or staged (R191). -/
theorem sentAndStaged_stage (q : List Sample) (s : State) : sentAndStaged (stage q s) = sinkWords s ++ wordsOf q := by
  obtain ⟨-, h⟩ | ⟨-, h⟩ := stage_cases q s
  · simp [h, sentAndStaged, sinkWords, wordsOf]
  · rw [h]; rfl

section
variable {c : List Word} {h : List Sample} {ts : ℕ} {s : State}

/-- A byte is filtered into the stream and the session goes on, whatever `RBS` is (R191). -/
theorem InSession.pushb (hs : InSession c h ts s) (v : Byte) :
    ∃ t, exec (.pushb v) s = .next t ∧ InSession c (fir c h (byteSamples ts v)).2 ts t ∧
      sentAndStaged t = sentAndStaged s ++ deliverWords s.freeCtr (wordsOf (fir c h (byteSamples ts v)).1) := by
  obtain ⟨hphase, hfcode, hcoef, hl, hhist, hn, rfl⟩ := hs
  refine ⟨_, exec_pushb_of_memories v hphase hcoef hl hhist hn, ?session, ?stream⟩
  case session =>
    obtain ⟨sent, left, hstage⟩ :=
      exists_stage_eq (s.outq ++ deliverSamples s.freeCtr (fir c h (byteChips v s)).1) (filtered c h v s)
    rw [hstage]
    exact ⟨hphase, hfcode, hcoef, hl, rfl, by rw [fir_history_length, hn], rfl⟩
  case stream =>
    rw [sentAndStaged_respond, sentAndStaged_stage, wordsOf_append, wordsOf_deliverSamples, ← List.append_assoc]
    rfl

/-- By chunking invariance the bytes one after another are filtered as their one stream (R172, R193). -/
theorem InSession.runAll_pushb (hs : InSession c h ts s) (vs : List Byte) :
    ∃ t out, runAll (vs.map .pushb) s = .next t ∧ InSession c (fir c h (vs.flatMap (byteSamples ts))).2 ts t ∧
      sentAndStaged t = sentAndStaged s ++ out ∧
      List.Forall₂ sameValue out (wordsOf (fir c h (vs.flatMap (byteSamples ts))).1) := by
  induction vs generalizing h s with
  | nil =>
    rw [List.flatMap_nil, fir_nil]
    exact ⟨s, [], rfl, hs, (List.append_nil _).symm, .nil⟩
  | cons v vs ih =>
    obtain ⟨u, hexec, hu, hsent⟩ := hs.pushb v
    obtain ⟨t, out, hrun, ht, hsent', hout⟩ := ih hu
    refine ⟨t, deliverWords s.freeCtr (wordsOf (fir c h (byteSamples ts v)).1) ++ out, ?_, ?_, ?_, ?_⟩
    · rw [List.map_cons, runAll_cons_of_next hexec, hrun]
    · rwa [List.flatMap_cons, fir_append_history]
    · rw [hsent', hsent, List.append_assoc]
    · rw [List.flatMap_cons, fir_append_output _ _ hs.hist_length, wordsOf_append]
      exact List.rel_append (forall₂_deliverWords_self _ _) hout

/-- `FLUSH` sends what is staged and ends the session cleanly (R192, R194). -/
theorem InSession.flush (hs : InSession c h ts s) :
    ∃ t, exec .flush s = .next t ∧ EndedCleanly t ∧ t.outq = [] ∧ sinkWords t = sentAndStaged s := by
  refine ⟨_, exec_flush_of_run hs.phase, ⟨rfl, hs.fcode⟩, rfl, ?_⟩
  simp [sinkWords, sentAndStaged]

end

/-- `INIT` opens a session with the zero history, whose taps have the values generated (R190). -/
theorem inSession_openSession {s : State} {taps : List Word} (hfcode : s.fcode = none) (hn : 1 ≤ s.cfgN.toNat)
    (htaps : taps.length = s.cfgN.toNat) :
    InSession (deliverWords s.freeCtr taps) (List.replicate (s.cfgN.toNat - 1) czero) s.cfgTs.toNat
      (respond [] (openSession taps s)) where
  phase := rfl
  fcode := hfcode
  coef := rfl
  coef_length := by simp [htaps]
  hist := rfl
  hist_length := by simp [htaps]; omega
  samples := rfl

/-- Settles O47: `INIT` opens the session, the bytes are filtered as one stream, and `FLUSH` sends the rest of it. -/
theorem sessionOutputLaw : Obligations.SessionOutputLaw := by
  intro s taps vs x hconfig hfcode hlegal htaps hx
  obtain rfl : x = vs.flatMap (byteSamples s.cfgTs.toNat) := hx
  have ⟨_, hn, _⟩ := hlegal
  have hopen := inSession_openSession hfcode (Nat.one_le_of_lt hn) (rrc_length htaps)
  obtain ⟨u, out, hrun, hu, hsent, hout⟩ := hopen.runAll_pushb vs
  obtain ⟨t, hflush, hclean, hempty, hsink⟩ := hu.flush
  rw [fir_congr_taps _ _ (forall₂_deliverWords_self _ _)] at hout
  refine ⟨t, out, ?run, hclean, hempty, ?sink, ?length, hout⟩
  case run =>
    rw [runAll_cons_of_next ((exec_init_of_legal hconfig hlegal).2 taps htaps), runAll_append_of_next hrun,
      runAll_cons_of_next hflush]
    rfl
  case sink => rw [hsink, hsent]; simp [sentAndStaged, sinkWords, wordsOf]
  case length =>
    rw [hout.length_eq, wordsOf_length, fir_output_length, flatMap_byteSamples_length]
    ring

end Sys2Proof.Proofs
end

section
/-! Faults (spec 60_exceptions.md R210, R221) and the phase `FAULTED` (R222): the code a fault answers, why an operation that
completes does not lead to `FAULTED`, and what stays until `RESET`. -/

namespace Sys2Proof.Machine

/-- The response of a fault is the number of its code: `NW` and the reserved bits are zero (R101, R210). -/
theorem rspWord_faultBits (f : FaultCode) : rspWord 0#24 (faultBits f) = BitVec.ofNat 32 (codeOf f) := by
  cases f <;> rfl

/-- An operation that completes does not bring the block to `FAULTED` (R45). -/
theorem Writes.phase_ne_faulted {i : Instr} {s u : State} (h : Writes i s u) (hphase : s.phase ≠ .faulted) :
    u.phase ≠ .faulted := by
  obtain hp | ⟨-, -, hp⟩ | ⟨-, -, hp⟩ := h.phase
  · rwa [hp]
  · rw [hp]; nofun
  · rw [hp]; nofun

/-- An operation that writes a piece of state completes in `CONFIG` or in `RUN` only (R185). -/
theorem Writes.eq_of_faulted {i : Instr} {s u : State} (h : Writes i s u) (hphase : s.phase = .faulted) : u = s := by
  cases h with
  | nothing => rfl
  | wrcfgN hp | wrcfgTs hp | wrcfgRbs hp | wrcfgBeta hp | init hp | wrcoef hp | filter hp | pushbSends _ hp
    | pushbStages _ hp | flush hp => exact absurd (hp.symm.trans hphase) nofun

/-- The column of `FAULTED` in the table of R185: only `RDSTAT` is legal. -/
theorem legalIn_faulted {i : Instr} (hne : i ≠ .rdstat) : legalIn i .faulted = false := by
  cases i with
  | rdstat => exact absurd rfl hne
  | _ => rfl

/-- `t` is in `FAULTED` with all that `s` holds outside the channels to the host (R222). -/
def StaysFaulted (s t : State) : Prop :=
  t.phase = .faulted ∧ t.fcode = s.fcode ∧ t.cfgN = s.cfgN ∧ t.cfgTs = s.cfgTs ∧ t.cfgRbs = s.cfgRbs ∧
    t.cfgBeta = s.cfgBeta ∧ t.coef = s.coef ∧ t.hist = s.hist ∧ t.outq = s.outq ∧ t.sink = s.sink

section
variable {s : State} (hphase : s.phase = .faulted)
include hphase

/-- A block that waits stays as it is (R241). -/
theorem staysFaulted_self : StaysFaulted s s := ⟨hphase, rfl, rfl, rfl, rfl, rfl, rfl, rfl, rfl, rfl⟩

/-- A further fault keeps the code of the first (R222). -/
theorem staysFaulted_raise (f : FaultCode) : StaysFaulted s (raise f s) :=
  ⟨rfl, if_pos hphase, rfl, rfl, rfl, rfl, rfl, rfl, rfl, rfl⟩

/-- A response goes to the host's channels only (R101). -/
theorem staysFaulted_respond (ws : List Word) : StaysFaulted s (respond ws s) := staysFaulted_self hphase

/-- No operation leads out of `FAULTED` (R222). -/
theorem staysFaulted_exec {i : Instr} {t : State} (h : exec i s = .next t) : StaysFaulted s t := by
  obtain ⟨f, rfl⟩ | ⟨ws, u, hwrites, rfl⟩ := exec_next h
  · exact staysFaulted_raise hphase f
  · obtain rfl := hwrites.eq_of_faulted hphase
    exact staysFaulted_respond hphase ws

end

end Sys2Proof.Machine
end

section
/-! The statements of 60_exceptions.md, settled. -/

namespace Sys2Proof.Proofs

open Sys2Proof.Machine

/-- In `FAULTED` a further fault answers its code, and nothing else is written (R222). -/
theorem raise_answers_code {s : State} (f : FaultCode) (hphase : s.phase = .faulted) :
    raise f s = { s with rsp := s.rsp ++ [BitVec.ofNat 32 (codeOf f)] } := by
  rw [raise_of_faulted f hphase, rspWord_faultBits]

/-- Settles O13: an operation that leads to `FAULTED` has not completed, so it took the fault entry. -/
theorem faultsArePrecise : Obligations.FaultsArePrecise := by
  intro i s t hexec hphase hfaulted
  obtain ⟨f, rfl⟩ | ⟨ws, u, hwrites, rfl⟩ := exec_next hexec
  · exact ⟨f, by rw [raise_of_not_faulted f hphase, rspWord_faultBits]⟩
  · exact absurd hfaulted (hwrites.phase_ne_faulted hphase)

/-- Settles O9: a command word that does not decode is rejected, and no error of it speaks of the payload. -/
theorem illegalWordFaultsInEveryPhase : Obligations.IllegalWordFaultsInEveryPhase :=
  fun s _ rest e hin herror => raisesIllegalOp_of_rejects ⟨e, herror⟩ s rest hin

/-- Settles O12: the fault entry of R221, and the table of codes. -/
theorem faultEntryWritesOnlyStatus : Obligations.FaultEntryWritesOnlyStatus := by
  intro f s hphase
  rw [raise_of_not_faulted f hphase]
  cases f <;> rfl

/-- Settles O14: `BAD_PHASE` by the table of R185, `ILLEGAL_OP` by the decoder, and the answer of `RDSTAT`; each is that of
the state whose move is consumed. -/
theorem faultedPhaseAnswersOnlyStatus : Obligations.FaultedPhaseAnswersOnlyStatus := by
  intro s w ps rest hphase hin
  have hconsumed : { s with inbox := rest }.phase = .faulted := hphase
  refine ⟨fun i hdec hne => ?refused, fun hdec => ?status, fun e herror hps => ?illegal⟩
  case refused =>
    have hlegal : legalIn i { s with inbox := rest }.phase = false := by rw [hconsumed, legalIn_faulted hne]
    have hwellFormed := (encodeOfDecode w ps i hdec).2
    rw [stepRunsTheDecodedOperation s w ps rest i hin hdec, exec_of_legalIn_eq_false hwellFormed hlegal,
      raise_answers_code _ hconsumed, codeOf]
  case status =>
    rw [stepRunsTheDecodedOperation s w ps rest .rdstat hin hdec, exec_rdstat]
    rfl
  case illegal =>
    subst hps
    rw [illegalWordFaultsInEveryPhase s w rest e hin herror, raise_answers_code _ hconsumed, codeOf]

/-- Settles O15, along what a step can do: wait, reset, refuse a word, or run an operation. -/
theorem faultedIsLeftOnlyByReset : Obligations.FaultedIsLeftOnlyByReset := by
  intro s t hphase hstep
  obtain hsettled | ⟨i, u, hrun, hexec⟩ := step_next hstep
  · obtain ⟨-, rfl⟩ | ⟨rest, hin, rfl⟩ | ⟨_, _, rest, -, rfl⟩ := fetch_settled hsettled
    · exact .inr (staysFaulted_self hphase)
    · exact .inl ⟨rest, hin, rfl⟩
    · exact .inr (staysFaulted_raise (s := { s with inbox := rest }) hphase .illegalOp)
  · obtain ⟨_, _, rest, -, -, rfl⟩ := fetch_run hrun
    exact .inr (staysFaulted_exec (s := { s with inbox := rest }) hphase hexec)

end Sys2Proof.Proofs
end

section
/-! The statement of 70_reset_and_hazards.md, settled: a `RESET` move (R240), and no move at all (R241). -/

namespace Sys2Proof.Proofs

open Sys2Proof.Machine

/-- A move the fetch settles is the whole step. -/
theorem step_of_fetch_settled {s t : State} (hfetch : fetch s = .settled t) : step s = .next t := by
  rw [step, hfetch]

/-- A `RESET` move is consumed, and settled by the reset block, whatever the phase (R223, R240). -/
theorem fetch_of_reset {s : State} {rest : List HostMove} (hin : s.inbox = .reset :: rest) :
    fetch s = .settled (resetBlock { s with inbox := rest }) := by
  simp only [fetch, hin]

/-- With no move the fetch leaves the state as it is (R241). -/
theorem fetch_of_inbox_nil {s : State} (hin : s.inbox = []) : fetch s = .settled s := by
  simp only [fetch, hin]

/-- Settles O2: the fetch settles both moves, the reset by `resetBlock`, the missing one by the state itself. -/
theorem resetMoveRestoresTheResetState : Obligations.ResetMoveRestoresTheResetState := by
  intro s rest
  refine ⟨fun hreset => ?reset, fun hnone => ?idle⟩
  case reset =>
    rw [step_of_fetch_settled (fetch_of_reset hreset), resetBlock]
  case idle =>
    exact step_of_fetch_settled (fetch_of_inbox_nil hnone)

end Sys2Proof.Proofs
end

section
/-! The statement of 30_encoding.md section 8, settled: a legal word is listed beside the operation that encodes to it, an
illegal word beside the first check of R95 that it fails. -/

namespace Sys2Proof.Proofs

/-- A pair decodes to the well-formed operation it is the encoding of (R94, R97). -/
theorem decode_of_encode_eq {i : Instr} {w : Cmd} {ps : List Word} (hwf : i.wellFormed = true)
    (hencode : encode i = (w, ps)) : decode w ps = .ok i := by
  have hdecode := decodeOfEncode i hwf
  rwa [hencode] at hdecode

/-- An illegal command word with no payload word is rejected for the word's own reason (R93, R95). -/
theorem decode_nil_of_error {w : Cmd} {e : DecodeError} (herror : decodeCmd w = .error e) :
    decode w [] = .error e := by
  rw [decode, herror]
  rfl

/-- Settles O3: each legal pair is the encoding of its operation, and each illegal word fails in the decoder of command
words. -/
theorem knownWordsDecode : Obligations.KnownWordsDecode := by
  refine ⟨?wrcfgN, ?wrcfgTs, ?wrcfgRbs, ?wrcfgBeta, ?rdcfg, ?rdstat, ?init, ?map, ?unpack, ?modNb8, ?mod, ?rdcoef, ?wrcoef,
    ?filter, ?pushb, ?flush, ?opcodeZero, ?initImm, ?modNine, ?pushbImm, ?rdcfgFour⟩
  case wrcfgN | wrcfgTs | wrcfgRbs | wrcfgBeta | rdcfg | rdstat | init | map | unpack | modNb8 | mod | rdcoef | wrcoef |
      filter | pushb | flush =>
    exact decode_of_encode_eq rfl rfl
  case opcodeZero | initImm | modNine | pushbImm | rdcfgFour =>
    exact decode_nil_of_error rfl

end Sys2Proof.Proofs
end
